-- ==== Sys2Proof/Word.lean ====
section
/-! DEFINITION. The two word types of the block (00_scope R9, R10): 64-bit words, 8-bit bytes. -/

namespace Sys2Proof

/-- A 64-bit word; bit 0 is the least significant (R10). Also a binary64 pattern (R12). -/
abbrev Word := BitVec 64

/-- One byte of host memory (R40). -/
abbrev Byte := BitVec 8

end Sys2Proof
end

