-- ==== Sys2Proof/Config.lean ====
section
/-! DEFINITION. The build parameters of one instance (00_scope R9, 10_state R27, R28, 20_memory R42) and the
values the spec leaves open. -/

namespace Sys2Proof

/-- `HOST_ORDER` (10_state R27): the byte order of the words and cells the host keeps in memory. -/
inductive ByteOrder where
  | big
  | little
deriving DecidableEq, Repr, Inhabited

/-- A range of host byte addresses: `base .. base + size - 1`. -/
structure Region where
  base : Nat
  size : Nat
deriving DecidableEq, Repr, Inhabited

/-- The parameters fixed when an instance is built (10_state R20, R27, R28; 20_memory R42). `capPred` is
`B_MAX - 1`, so that exactly the legal caps 1 to 63 can be built. `admitted` is `MEM_ADMIT` as a union of ranges: every
predicate on the 2^64 addresses is one (log 2). -/
structure Config where
  hostOrder : ByteOrder
  capPred   : Fin 63
  admitted  : List Region
deriving DecidableEq, Repr, Inhabited

/-- `B_MAX` (R28), a number from 1 to 63. -/
def Config.bMax (c : Config) : Nat := c.capPred.val + 1

/-- The reference value of `B_MAX` in profile R1 (10_state R28). -/
def Config.referenceBMax : Nat := 31

/-- The host order of the instance that `State.reset` stands for: OPEN in the spec (R27), so it has no body. -/
opaque Config.builtOrder : ByteOrder

/-- The `MEM_ADMIT` of the instance that `State.reset` stands for: OPEN in the spec (R42), so it has no body. -/
opaque Config.builtAdmit : List Region

/-- The value a host read of `CMD` returns, which 10_state R26 calls unspecified: a free value, one for each
draw (log 6). -/
opaque Config.unspecifiedWord : Nat → Word

/-- The configuration of `State.reset`: `B_MAX` at its reference value, the two other parameters open (log 1). -/
def Config.built : Config := { hostOrder := Config.builtOrder, capPred := 30, admitted := Config.builtAdmit }

end Sys2Proof
end

