-- ==== Sys2Proof/Syntax.lean ====
section
/-! DEFINITION. The block's instructions: the seven commands of 30_encoding R60 and the three row descriptors of R70. -/

namespace Sys2Proof

/-- One constructor per row of spec/opcode_table.json. The commands carry no operand: they read them from the ARG
registers (R61). -/
inductive Instr where
  /-- NORMALIZE, 40 R102. -/
  | normalize
  /-- DECODE_HEADER, 41 R113. -/
  | decodeHeader
  /-- ENCODE_HEADER, 41 R115. -/
  | encodeHeader
  /-- PACK_ROW, 42 R140. -/
  | packRow
  /-- UNPACK_ROW, 43 R160. -/
  | unpackRow
  /-- ENCODE_FIELD, 44 R172. -/
  | encodeField
  /-- DECODE_FIELD, 44 R178. -/
  | decodeField
  /-- The row descriptor ALL_MISSING, 43 R153. -/
  | allMissing
  /-- The row descriptor CONSTANT, 43 R154. -/
  | constant
  /-- The row descriptor NORMAL with `WIDTH = b`, 43 R155. -/
  | normal (b : BitVec 8)
deriving DecidableEq, Repr

/-- What the Row Unpacker reads from a legal descriptor word (30_encoding R77). -/
inductive RowDescriptor where
  | allMissing
  | constant
  | normal (b : BitVec 8)
deriving DecidableEq, Repr

/-- The row of the opcode table that a descriptor is. -/
def RowDescriptor.toInstr : RowDescriptor → Instr
  | .allMissing => .allMissing
  | .constant => .constant
  | .normal b => .normal b

/-- The instructions a write of `CMD` selects (R60); the others are read from row records (R70). -/
def Instr.isCommand : Instr → Bool
  | .normalize => true
  | .decodeHeader => true
  | .encodeHeader => true
  | .packRow => true
  | .unpackRow => true
  | .encodeField => true
  | .decodeField => true
  | .allMissing => false
  | .constant => false
  | .normal _ => false

end Sys2Proof
end

