-- ==== Sys2Proof/WellFormed.lean ====
section
/-! DEFINITION. Which instruction terms an encoding stands for. -/

namespace Sys2Proof

/-- The one operand field of the table is the `WIDTH` of NORMAL, legal from 1 to `B_MAX` (30_encoding R73, R77). -/
def Instr.wellFormed (bMax : Nat) : Instr → Bool
  | .normalize => true
  | .decodeHeader => true
  | .encodeHeader => true
  | .packRow => true
  | .unpackRow => true
  | .encodeField => true
  | .decodeField => true
  | .allMissing => true
  | .constant => true
  | .normal b => decide (1 ≤ b.toNat) && decide (b.toNat ≤ bMax)

end Sys2Proof
end

