-- ==== Sys2Proof/Decode.lean ====
section
/-! DEFINITION. The decoders of the two instruction formats, CMD64 (30_encoding R60) and ROWDESC64 (R70, R77), and
after them the encoder. -/

namespace Sys2Proof

/-- The command a word written to `CMD` selects; `none` is the illegal command word of R63. -/
def decodeCommand (w : Word) : Option Instr :=
  if w.extractLsb' 0 56 = 0#56 then
    match (w.extractLsb' 56 8).toNat with
    | 1 => some .normalize
    | 2 => some .decodeHeader
    | 3 => some .encodeHeader
    | 4 => some .packRow
    | 5 => some .unpackRow
    | 6 => some .encodeField
    | 7 => some .decodeField
    | _ => none
  else none

/-- The row descriptor a word is; `none` is the illegal descriptor of R77. -/
def decodeDescriptor (bMax : Nat) (d : Word) : Option RowDescriptor :=
  let b : BitVec 8 := d.extractLsb' 48 8
  if d.extractLsb' 0 48 = 0#48 then
    match (d.extractLsb' 56 8).toNat with
    | 1 => if b = 0#8 then some .allMissing else none
    | 2 => if b = 0#8 then some .constant else none
    | 3 => if 1 ≤ b.toNat ∧ b.toNat ≤ bMax then some (.normal b) else none
    | _ => none
  else none

/-- The reading of a word that comes with no place: as a command word, and where it is none, as a row descriptor
(DESIGN CHOICE, log 9: the two formats share three words). -/
def decodeWord (bMax : Nat) (w : Word) : Option Instr :=
  match decodeCommand w with
  | some i => some i
  | none => (decodeDescriptor bMax w).map RowDescriptor.toInstr

/-- The first 64-bit word of an instruction given as a number, its bits from `nbits` on being 0. -/
def firstWord (nbits w : Nat) : Word := BitVec.ofNat 64 (w % 2 ^ nbits)

/-- What the decoder reads from an instruction whose bits are `w`, numbered as the opcode table numbers them; `B_MAX` at
its reference value. -/
def decodeTableWord (nbits w : Nat) : Option Instr := decodeWord Config.referenceBMax (firstWord nbits w)

/-- A CMD64 word (R60). -/
def commandWord (op : BitVec 8) : Word := op ++ 0#56

/-- A ROWDESC64 word (R70). -/
def descriptorWord (kind b : BitVec 8) : Word := kind ++ b ++ 0#48

/-- The word of an instruction (R60, R71 to R73). -/
def encode : Instr → Word
  | .normalize => commandWord 0x01#8
  | .decodeHeader => commandWord 0x02#8
  | .encodeHeader => commandWord 0x03#8
  | .packRow => commandWord 0x04#8
  | .unpackRow => commandWord 0x05#8
  | .encodeField => commandWord 0x06#8
  | .decodeField => commandWord 0x07#8
  | .allMissing => descriptorWord 0x01#8 0#8
  | .constant => descriptorWord 0x02#8 0#8
  | .normal b => descriptorWord 0x03#8 b

end Sys2Proof
end

