-- ==== Sys2Proof/Machine/Bits.lean ====
section
/-! DEFINITION. Bit strings: the primitives `BitsMSB`, `Pack64`, `Unpack64`, sub-strings (00_scope R16) and `bitlength`
(R11). A bit string is a list of Bool, the first bit first. -/

namespace Sys2Proof.Machine

/-- `BitsMSB(v, b)` (R16): the `b` low bits of `v`, the most significant first. -/
def bitsMSB (v : Nat) : Nat → List Bool
  | 0 => []
  | b + 1 => v.testBit b :: bitsMSB v b

/-- A bit string read as an unsigned number, the most significant bit first (R16). -/
def bitsValue (s : List Bool) : Nat := s.foldl (fun acc bit => 2 * acc + bit.toNat) 0

/-- The word whose bit 63 is the first bit of `s`; zero bits stand for those after the end of `s`. -/
def wordOfBits (s : List Bool) : Word := BitVec.ofNat 64 (bitsValue (s ++ List.replicate (64 - s.length) false))

/-- The first `n` words of `s` cut into slices of 64 bits. -/
def packWords : Nat → List Bool → List Word
  | 0, _ => []
  | n + 1, s => wordOfBits (s.take 64) :: packWords n (s.drop 64)

/-- `ceil(n / 64)`: the words that `n` bits take. -/
def wordsFor (n : Nat) : Nat := (n + 63) / 64

/-- `Pack64(S)` (R16). -/
def pack64 (s : List Bool) : List Word := packWords (wordsFor s.length) s

/-- `Unpack64(ws)` (R16). -/
def unpack64 : List Word → List Bool
  | [] => []
  | w :: ws => bitsMSB w.toNat 64 ++ unpack64 ws

/-- `S[p .. p+b-1]` (R16). -/
def subBits (s : List Bool) (p b : Nat) : Nat := bitsValue ((s.drop p).take b)

/-- `bitlength(n)` for `n >= 1` (R11). -/
def bitLength (n : Nat) : Nat := n.log2 + 1

end Sys2Proof.Machine
end

