-- ==== Sys2Proof/Machine/Binary64.lean ====
section
/-! DEFINITION. Binary64 patterns (00_scope R12, 93 I2) in exact integer arithmetic. Every finite binary64 value is an integer
multiple of 2^-1074, the least subnormal: `scaled x` is that integer. -/

namespace Sys2Proof.Machine

/-- The biased exponent field `x[62:52]` (93 I2). -/
def expField (x : Word) : Nat := (x.extractLsb' 52 11).toNat

/-- The fraction field `x[51:0]` (93 I2). -/
def fracField (x : Word) : Nat := (x.extractLsb' 0 52).toNat

/-- The sign bit `x[63]`. -/
def signBit (x : Word) : Bool := x.getLsbD 63

/-- `isFinite(x)` (R12). -/
def isFinite (x : Word) : Bool := decide (expField x ≠ 2047)

/-- Is `x` a NaN (93 I2). -/
def isNaN (x : Word) : Bool := decide (expField x = 2047) && decide (fracField x ≠ 0)

/-- `|Real(x)| * 2^1074` of a finite pattern (R12, 93 I2). -/
def scaledMag (x : Word) : Nat :=
  if expField x = 0 then fracField x else (2 ^ 52 + fracField x) <<< (expField x - 1)

/-- `Real(x) * 2^1074` of a finite pattern (R12). -/
def scaled (x : Word) : Int := if signBit x then -(scaledMag x : Int) else (scaledMag x : Int)

/-- `feq(x, y)` (R12): IEEE-754 equality. -/
def feq (x y : Word) : Bool :=
  if isNaN x || isNaN y then false
  else if isFinite x && isFinite y then decide (scaled x = scaled y)
  else decide (x = y)

/-- `floor(d * 2^-1074 / 2^e + 1/2)` for `d >= 0` (42 R135, with `d = (Real(c) - m) * 2^1074`): an exact shift to the left
where `e <= -1074`, and else the quotient by `2^(e+1073)`, which is twice the one wanted, plus one, halved. -/
def quantize (d : Nat) (e : Int) : Nat :=
  if d = 0 then 0
  else if e ≤ -1074 then d <<< (-1074 - e).toNat
  else ((d >>> (e + 1073).toNat) + 1) / 2

/-- `m / 2^k` rounded to the nearest integer, ties to even. -/
def roundEven (m k : Nat) : Nat :=
  if k = 0 then m
  else
    let q := m >>> k
    let rem := m - q <<< k
    let half := 1 <<< (k - 1)
    if half < rem ∨ (rem = half ∧ q % 2 = 1) then q + 1 else q

/-- The pattern of `+infinity` (R12). -/
def posInf : Nat := 0x7FF0000000000000

/-- The magnitude part (bits 62:0) of the binary64 nearest to `m * 2^u`, ties to even (R12), for `m >= 1`. The spacing of
the binary64 numbers about that value is `2^t`; `s` is the value in units of `2^t`, rounded. The exponent and fraction fields
together are `(t + 1074) * 2^52 + s`, since a carry out of the fraction runs into the exponent; at or above `2^1024 - 2^970`
that number reaches the pattern of infinity. -/
def roundMag (m : Nat) (u : Int) : Nat :=
  let t : Int := max (u + (bitLength m : Int) - 53) (-1074)
  let s : Nat := if t ≤ u then m <<< (u - t).toNat else roundEven m (t - u).toNat
  min ((t + 1074).toNat * 2 ^ 52 + s) posInf

/-- `RNE64(n * 2^u)` (R12): +0 for an exact zero, else the nearest pattern with the sign of `n`. A negative value that
rounds to zero gives -0, as IEEE-754 has it (DEDUCED, log 12). -/
def rne64 (n : Int) (u : Int) : Word :=
  if n = 0 then 0
  else if n < 0 then BitVec.ofNat 64 (2 ^ 63 + roundMag n.natAbs u)
  else BitVec.ofNat 64 (roundMag n.natAbs u)

/-- `RNE64(Real(base) + k * 2^e)` for a finite `base`: the sum is written over the finer of the units `2^e` and
`2^-1074`. -/
def addScaled (base : Word) (k : Nat) (e : Int) : Word :=
  let u : Int := min e (-1074)
  rne64 (scaled base * 2 ^ (-1074 - u).toNat + (k : Int) * 2 ^ (e - u).toNat) u

/-- `Recon(base, k, e)` (43 R156). -/
def recon (base : Word) (k : Nat) (e : Int) : Word :=
  if k = 0 then base
  else if isFinite base then addScaled base k e
  else base

end Sys2Proof.Machine
end

