-- ==== Sys2Proof/Machine/Bytes.lean ====
section
/-! DEFINITION. Words and bytes: the primitives `NatWord`, `NatBytes`, `BE64`, `BEBytes` of 00_scope R13, on single words
and on lists of words, and two's complement (R11). -/

namespace Sys2Proof.Machine

/-- The word whose bits 63:56 are `b0` and bits 7:0 are `b7`: `BE64` of R13. -/
def beWord (b0 b1 b2 b3 b4 b5 b6 b7 : Byte) : Word := b0 ++ b1 ++ b2 ++ b3 ++ b4 ++ b5 ++ b6 ++ b7

/-- `NatWord` (R13): the value of 8 bytes in host order. -/
def natWord (o : ByteOrder) (b0 b1 b2 b3 b4 b5 b6 b7 : Byte) : Word :=
  match o with
  | .big => beWord b0 b1 b2 b3 b4 b5 b6 b7
  | .little => beWord b7 b6 b5 b4 b3 b2 b1 b0

/-- `BEBytes` (R13): the 8 bytes of a word, bits 63:56 first. -/
def beBytes (w : Word) : List Byte :=
  [w.extractLsb' 56 8, w.extractLsb' 48 8, w.extractLsb' 40 8, w.extractLsb' 32 8,
   w.extractLsb' 24 8, w.extractLsb' 16 8, w.extractLsb' 8 8, w.extractLsb' 0 8]

/-- `NatBytes` (R13): the 8 bytes of a word in host order. -/
def natBytes (o : ByteOrder) (w : Word) : List Byte :=
  match o with
  | .big => beBytes w
  | .little => (beBytes w).reverse

/-- The words of a byte list in host order, one for each 8 bytes; bytes after the last whole word are not read. -/
def natWords (o : ByteOrder) : List Byte → List Word
  | b0 :: b1 :: b2 :: b3 :: b4 :: b5 :: b6 :: b7 :: rest => natWord o b0 b1 b2 b3 b4 b5 b6 b7 :: natWords o rest
  | _ => []

/-- The bytes of a word list in host order. -/
def natBytesOf (o : ByteOrder) : List Word → List Byte
  | [] => []
  | w :: ws => natBytes o w ++ natBytesOf o ws

/-- `enc_64` (R11): the 64-bit two's-complement pattern of an integer. -/
def enc64 (v : Int) : Word := BitVec.ofInt 64 v

/-- `enc_32` (R11): the 32-bit two's-complement pattern of an integer. -/
def enc32 (v : Int) : BitVec 32 := BitVec.ofInt 32 v

/-- An unsigned number as a 64-bit word (30_encoding R64). -/
def unsigned64 (n : Nat) : Word := BitVec.ofNat 64 n

end Sys2Proof.Machine
end

