-- ==== Sys2Proof/Machine/Flags.lean ====
section
/-! DEFINITION. The status codes (30_encoding R62) and the info values of errors (60 R202): the block has no flags but these
(10_state R30). -/

namespace Sys2Proof.Machine

/-- An error of the block: a kind and one info integer (60 R200, R202). -/
inductive CodecError where
  /-- A buffer length that is not a multiple of 8; the length. -/
  | invalidLength (len : Nat)
  /-- Header fields out of range; 1 to 5. -/
  | malformedHeader (info : Nat)
  /-- A dimension, cell count, accuracy or expected shape that will not do; 1 to 5. -/
  | shapeMismatch (info : Nat)
  /-- A row that needs more than `B_MAX` bits; the row index. -/
  | accuracyOverflow (row : Nat)
  /-- A row record that reaches past the limit; the row index. -/
  | truncatedRow (row : Nat)
  /-- An illegal row descriptor; the row index. -/
  | corruptRowHeader (row : Nat)
  /-- 1: the output capacity is too small; 2: the payload is too long for the header. -/
  | allocationFailure (info : Nat)
  /-- A `CMD` word that selects no command (R63). -/
  | illegalCommand
deriving DecidableEq, Repr

/-- The status code of an error kind (R62). -/
def CodecError.code : CodecError → Word
  | .invalidLength _ => 0x01
  | .malformedHeader _ => 0x02
  | .shapeMismatch _ => 0x03
  | .accuracyOverflow _ => 0x04
  | .truncatedRow _ => 0x05
  | .corruptRowHeader _ => 0x06
  | .allocationFailure _ => 0x07
  | .illegalCommand => 0x08

/-- The info value of an error (R202). -/
def CodecError.info : CodecError → Nat
  | .invalidLength n => n
  | .malformedHeader n => n
  | .shapeMismatch n => n
  | .accuracyOverflow r => r
  | .truncatedRow r => r
  | .corruptRowHeader r => r
  | .allocationFailure n => n
  | .illegalCommand => 0

/-- The code `OK` (R62). -/
def statusOK : Word := 0x00

/-- The code `NONE` (R62): no command has ended since reset. -/
def statusNone : Word := 0xFF

end Sys2Proof.Machine
end

