-- ==== Sys2Proof/Machine/State.lean ====
section
/-! DEFINITION. The state of one block instance and of the host memory it works on (10_state), as plain data, the reasons a
step can stop, and the state after reset (70 R220). -/

namespace Sys2Proof.Machine

/-- Host memory (20_memory R40): the bytes that differ from 0x00, by rising address (log 7). -/
abbrev Memory := List Host.Cell

/-- `ARG0` to `ARG7` (10_state R23). `none` is the spec's own state "unwritten" (R220), in which the register has no value
that anything may read. -/
structure ArgFile where
  arg0 : Option Word
  arg1 : Option Word
  arg2 : Option Word
  arg3 : Option Word
  arg4 : Option Word
  arg5 : Option Word
  arg6 : Option Word
  arg7 : Option Word
deriving DecidableEq, Repr

/-- `RES0` to `RES3` (10_state R25). `none` is the spec's own state "unwritten": "the register holds no value". -/
structure ResFile where
  res0 : Option Word
  res1 : Option Word
  res2 : Option Word
  res3 : Option Word
deriving DecidableEq, Repr

/-- Which command decodes row records: UNPACK_ROW (43 R160) or DECODE_FIELD (44 R178). -/
inductive RowJob where
  | unpackRow
  | decodeField
deriving DecidableEq, Repr

/-- The transient state of a command that decodes row records (10_state R29, R31; 43 R150; 44 R176). It exists only
during the command. -/
structure Transient where
  /-- The command that is running. -/
  job : RowJob
  /-- `WORK` as its native-order words `Wd` (44 R176), for UNPACK_ROW the words of its input region (43 R160). -/
  work : List Word
  /-- The limit `N`: word `lim` and beyond are not read (43 R150). -/
  lim : Nat
  /-- The word cursor `cur` (44 R176), the offset `off` of UNPACK_ROW. -/
  cur : Nat
  /-- The row index `r`. -/
  row : Nat
  /-- How many rows the command decodes. -/
  rows : Nat
  /-- The column count. -/
  cols : Nat
  /-- The missing-data pattern of the command. -/
  mdi : Word
  /-- The accuracy exponent `e`. -/
  acc : Int
  /-- `STAGE`: the cells decoded so far, which the command writes at its end (20_memory R51). -/
  stage : List Word
  /-- The kind of the last record decoded, 0 before the first. -/
  kind : Nat
  /-- The words the last record occupies, 0 before the first. -/
  consumed : Nat
  /-- The output address. -/
  out : Nat
deriving DecidableEq, Repr

/-- One access of the host to the block or to its own memory (10_state R26, 70 R221). One is one step (log 3). -/
inductive HostEvent where
  /-- Write ARG i. -/
  | writeArg (i : Fin 8) (v : Word)
  /-- Write `CMD`: issues the command the value selects (R22). -/
  | writeCmd (v : Word)
  /-- Write `STATUS`: ignored (R24). -/
  | writeStatus (v : Word)
  /-- Write RES i: ignored (R25). -/
  | writeRes (i : Fin 4) (v : Word)
  /-- Read ARG i: the last written value (R26). -/
  | readArg (i : Fin 8)
  /-- Read `CMD`: an unspecified value (R26). -/
  | readCmd
  /-- Read `STATUS`. -/
  | readStatus
  /-- Read RES i. -/
  | readRes (i : Fin 4)
  /-- Store a byte to host memory. -/
  | storeByte (a : Word) (v : Byte)
  /-- Load a byte of host memory. -/
  | loadByte (a : Word)
  /-- Reset the block (R221). -/
  | reset
deriving DecidableEq, Repr

/-- The machine: the block's registers, its transient state, its configuration and host memory (10_state R20, R31), and
three fields of the model's own (`host`, `hostData`, `freeCount`). -/
structure State where
  /-- The build parameters (10_state R27, R28); no step changes them (log 1). -/
  cfg : Config
  /-- `CMD` (R22): the last value the host wrote. -/
  cmd : Word
  /-- `ARG0` to `ARG7` (R23). -/
  args : ArgFile
  /-- `STATUS` (R24). -/
  status : Word
  /-- `RES0` to `RES3` (R25). -/
  res : ResFile
  /-- The transient state (R31), `none` between commands. -/
  transient : Option Transient
  /-- Host memory (R20, R40). -/
  mem : Memory
  /-- The host accesses still to come, the next one first (log 3). -/
  host : List HostEvent
  /-- What the last host read returned (log 18). -/
  hostData : Word
  /-- How many unspecified values have been drawn (log 6). -/
  freeCount : Nat
deriving DecidableEq, Repr

/-- The reasons the machine stops. -/
inductive Fault where
  /-- A command, or a host read, reads an ARG register the host has not written since reset. Raised by `State.arg` and the host
  port. Safe: the stop is the spec's (10_state R23: "a model shall treat it as a fault"; 92 D27). -/
  | unwrittenOperand (i : Fin 8)
  /-- A host read of a RES register the last command left unwritten. Raised by the host port. Safe: the stop is the spec's
  (10_state R25: "a model shall treat the read as a fault"; 70 R228). -/
  | unwrittenResult (i : Fin 4)
  /-- A command reaches a byte that `MEM_ADMIT` leaves out, or a region past 2^64: the command has no step (20_memory
  R43, 60 R205). Raised by `State.memRead` and `State.memWrite`. Safe (log 8). -/
  | stuckAccess
  /-- The host itself accesses a byte that does not exist (20_memory R42). Raised by the host port. Safe (log 13). -/
  | hostAccess
  /-- A row descriptor is run while no command is decoding row records. Raised by `State.runRecord` and the row
  sequencer. Safe: no step of the machine does it (log 11). -/
  | noRowRecord
deriving DecidableEq, Repr

/-- The reasons the model gives no meaning. -/
inductive Refusal where
  /-- The instruction has no meaning in the model. Raised by `exec` alone; safe. No arm raises it. -/
  | notModelled (mnemonic : String)
deriving DecidableEq, Repr

/-- The block right after reset with host memory `m`, for an instance built with configuration `c` (70 R220). The value
of `CMD`, which the spec leaves unspecified, is 0 (log 4). -/
def State.resetWith (c : Config) (m : Memory) : State where
  cfg := c
  cmd := 0
  args := ⟨none, none, none, none, none, none, none, none⟩
  status := 0xFF
  res := ⟨none, none, none, none⟩
  transient := none
  mem := m
  host := []
  hostData := 0
  freeCount := 0

/-- The machine right after reset (70 R220). -/
def State.reset : State := State.resetWith Config.built []

end Sys2Proof.Machine
end

