-- ==== Sys2Proof/Machine/Ops.lean ====
section
/-! DEFINITION. The named operations over memory and registers: reading and writing host memory (20_memory), the register
files (10_state), ending a command with success (R25) and with an error (60 R203). -/

namespace Sys2Proof.Machine

/-- What a step of the machine answers. -/
abbrev Out := Host.Outcome State Fault Refusal

/-- Why a command's work ends early: an error of the block, which is a next state (60 R203), or a stop of the model. -/
inductive Abort where
  | raise (e : CodecError)
  | stop (f : Fault)
deriving DecidableEq, Repr

/-- What a command that succeeds leaves: host memory and the result registers (10_state R25). -/
structure Completion where
  mem : Memory
  res : ResFile
deriving DecidableEq, Repr

/-! ### Host memory -/

/-- The byte at an address; an unlisted address reads 0x00 (log 7). -/
def Memory.read : Memory → Nat → Byte
  | [], _ => 0
  | (k, v) :: t, a => if k = a then v else Memory.read t a

/-- Put an entry in front of the first entry with a greater address. -/
def Memory.insert (a : Nat) (v : Byte) : Memory → Memory
  | [] => [(a, v)]
  | (k, w) :: t => if a < k then (a, v) :: (k, w) :: t else (k, w) :: Memory.insert a v t

/-- Drop what is listed at an address. -/
def Memory.erase (m : Memory) (a : Nat) : Memory := m.filter fun c => decide (c.1 ≠ a)

/-- Write one byte. Writing 0x00, what an unlisted address reads as, removes the entry. -/
def Memory.write (m : Memory) (a : Nat) (v : Byte) : Memory :=
  if v = 0 then Memory.erase m a else Memory.insert a v (Memory.erase m a)

/-- The canonical form: addresses below 2^64, strictly rising, no entry 0x00. -/
def Memory.wf : Memory → Bool
  | [] => true
  | (a, v) :: t => decide (a < 2 ^ 64) && decide (v ≠ 0) && t.all (fun c => decide (a < c.1)) && Memory.wf t

/-- The `n` bytes from address `a` on (00_scope R13). -/
def Memory.readBytes (m : Memory) (a : Nat) : Nat → List Byte
  | 0 => []
  | n + 1 => Memory.read m a :: Memory.readBytes m (a + 1) n

/-- Write a list of bytes from address `a` on (R13). -/
def Memory.writeBytes (m : Memory) (a : Nat) : List Byte → Memory
  | [] => m
  | v :: vs => Memory.writeBytes (Memory.write m a v) (a + 1) vs

/-- `MEM_ADMIT(addr)` (20_memory R42). -/
def admits (c : Config) (a : Nat) : Bool := c.admitted.any fun r => decide (r.base ≤ a) && decide (a < r.base + r.size)

/-- Every one of the `n` bytes from `a` on is admitted. -/
def admitsBytes (c : Config) (a : Nat) : Nat → Bool
  | 0 => true
  | n + 1 => admits c a && admitsBytes c (a + 1) n

/-- The region of `n` bytes at `a` exists: it ends at 2^64 or before, and every byte is admitted (20_memory R43). -/
def admitsRegion (c : Config) (a n : Nat) : Bool := decide (a + n ≤ 2 ^ 64) && admitsBytes c a n

/-- `MemRead(a, n)` (00_scope R13); stuck where the region does not exist (20_memory R43). -/
def State.memRead (s : State) (a n : Nat) : Except Abort (List Byte) :=
  if admitsRegion s.cfg a n then .ok (s.mem.readBytes a n) else .error (.stop .stuckAccess)

/-- `MemWrite(a, n, v)` with `n` the length of `v` (00_scope R13): the memory after it; stuck where the region does not exist
(20_memory R43). -/
def State.memWrite (s : State) (a : Nat) (v : List Byte) : Except Abort Memory :=
  if admitsRegion s.cfg a v.length then .ok (s.mem.writeBytes a v) else .error (.stop .stuckAccess)

/-! ### Registers -/

/-- The contents of ARG i (10_state R23). -/
def ArgFile.get (f : ArgFile) (i : Fin 8) : Option Word :=
  match i with
  | 0 => f.arg0
  | 1 => f.arg1
  | 2 => f.arg2
  | 3 => f.arg3
  | 4 => f.arg4
  | 5 => f.arg5
  | 6 => f.arg6
  | 7 => f.arg7

/-- Write ARG i (10_state R23). -/
def ArgFile.set (f : ArgFile) (i : Fin 8) (v : Word) : ArgFile :=
  match i with
  | 0 => { f with arg0 := some v }
  | 1 => { f with arg1 := some v }
  | 2 => { f with arg2 := some v }
  | 3 => { f with arg3 := some v }
  | 4 => { f with arg4 := some v }
  | 5 => { f with arg5 := some v }
  | 6 => { f with arg6 := some v }
  | 7 => { f with arg7 := some v }

/-- The contents of RES i (10_state R25). -/
def ResFile.get (f : ResFile) (i : Fin 4) : Option Word :=
  match i with
  | 0 => f.res0
  | 1 => f.res1
  | 2 => f.res2
  | 3 => f.res3

/-- `ARG[i]` as a command reads it (00_scope R14): a fault where the host has not written it (10_state R23: "a model
shall treat it as a fault"). -/
def State.arg (s : State) (i : Fin 8) : Except Abort Word :=
  match s.args.get i with
  | some v => .ok v
  | none => .error (.stop (.unwrittenOperand i))

/-- A check of a command's rule (60 R206): raise `e` unless `p` holds. -/
def check (p : Bool) (e : CodecError) : Except Abort Unit := if p then .ok () else .error (.raise e)

/-! ### The end of a command -/

/-- ERROR ENTRY (60 R203, 00_scope R15): the command ends, no byte of memory is written, `STATUS` takes the code and `RES0` the
info, `RES1` to `RES3` become unwritten, the transient state is discarded. There is no return from it (R204). -/
def State.raise (s : State) (e : CodecError) : State :=
  { s with
    status := e.code
    res := ⟨some (unsigned64 e.info), none, none, none⟩
    transient := none }

/-- The end of a command with `STATUS = OK` (10_state R24, R25): the registers its rule does not list become unwritten. -/
def State.complete (s : State) (c : Completion) : State :=
  { s with
    status := statusOK
    res := c.res
    transient := none
    mem := c.mem }

/-- The end of a command whose work answered `r`. -/
def State.conclude (s : State) (r : Except Abort Completion) : Out :=
  match r with
  | .ok c => .next (s.complete c)
  | .error (.raise e) => .next (s.raise e)
  | .error (.stop f) => .fault f

end Sys2Proof.Machine
end

