-- ==== Sys2Proof/Machine/Operands.lean ====
section
/-! DEFINITION. The operand forms of the commands (30_encoding R61, R64) and the ranges they are checked against
(00_scope R9). -/

namespace Sys2Proof.Machine

/-- The operand form `u` (R61, R64): ARG i as an unsigned number. -/
def State.argU (s : State) (i : Fin 8) : Except Abort Nat := (s.arg i).map BitVec.toNat

/-- The operand form `s` (R61, R64): ARG i as a signed number. -/
def State.argS (s : State) (i : Fin 8) : Except Abort Int := (s.arg i).map BitVec.toInt

/-- The operand form `f` (R61, R64): ARG i as a binary64 pattern, unchanged. -/
def State.argF (s : State) (i : Fin 8) : Except Abort Word := s.arg i

/-- `ACC_MIN` (R9). -/
def accMin : Int := -2 ^ 31

/-- `ACC_MAX` (R9). -/
def accMax : Int := 2 ^ 31 - 1

/-- `DIM_MAX` (R9). -/
def dimMax : Int := 2 ^ 31 - 1

/-- `PAYLOAD_MAX` (R9). -/
def payloadMax : Nat := 2 ^ 32 - 1

/-- A row or column count in `1 .. DIM_MAX`. -/
def dimOk (d : Int) : Bool := decide (1 ≤ d) && decide (d ≤ dimMax)

/-- An accuracy in `ACC_MIN .. ACC_MAX`. -/
def accOk (e : Int) : Bool := decide (accMin ≤ e) && decide (e ≤ accMax)

/-- The ARG registers a command reads are ARG0 up to this count (R61); 0 for a row descriptor, which reads none. -/
def operandCount : Instr → Nat
  | .normalize => 2
  | .decodeHeader => 2
  | .encodeHeader => 6
  | .packRow => 6
  | .unpackRow => 8
  | .encodeField => 8
  | .decodeField => 7
  | .allMissing => 0
  | .constant => 0
  | .normal _ => 0

/-- The host has written every operand register the instruction reads (10_state R23, D36). -/
def State.operandsWritten (s : State) (i : Instr) : Bool :=
  (List.finRange 8).all fun k => decide (operandCount i ≤ k.val) || (s.args.get k).isSome

end Sys2Proof.Machine
end

