-- ==== Sys2Proof/Machine/HeaderCodec.lean ====
section
/-! DEFINITION. The Header Codec: DECODE_HEADER and ENCODE_HEADER (41_header_codec). -/

namespace Sys2Proof.Machine

/-- The four integers of a header (R110). -/
structure Header where
  acc : Int
  cols : Int
  rows : Int
  plen : Nat
deriving DecidableEq, Repr

/-- Header field extraction (30_encoding R66). -/
def headerOfWords (w0 w1 : Word) : Header where
  acc := (w0.extractLsb' 32 32).toInt
  cols := (w0.extractLsb' 0 32).toInt
  rows := (w1.extractLsb' 32 32).toInt
  plen := (w1.extractLsb' 0 32).toNat

/-- The checks of a decoded header (R111). -/
def checkHeader (h : Header) : Except CodecError Header :=
  if h.cols ≤ 0 then .error (.malformedHeader 2)
  else if h.rows ≤ 0 then .error (.malformedHeader 3)
  else .ok h

/-- `DecodeHeader(H, L)` (R111), `H` in native order. -/
def decodeHeader (o : ByteOrder) (h : List Byte) (len : Nat) : Except CodecError Header :=
  if len < 16 then .error (.malformedHeader 1)
  else
    match natWords o h with
    | w0 :: w1 :: _ => checkHeader (headerOfWords w0 w1)
    | _ => .error (.malformedHeader 1)

/-- `HeaderWords(e, cols, rows, P)` (R112), as a list of two words. -/
def headerWords (h : Header) : List Word :=
  [enc32 h.acc ++ enc32 h.cols, enc32 h.rows ++ BitVec.ofNat 32 h.plen]

/-- An error of a helper function ends the command (00_scope R15). -/
def liftError {α : Type} (r : Except CodecError α) : Except Abort α := r.mapError Abort.raise

/-- The work of DECODE_HEADER (R113). -/
def decodeHeaderWork (s : State) : Except Abort Completion := do
  let a ← s.argU 0
  let len ← s.argU 1
  check (decide (16 ≤ len)) (.malformedHeader 1)
  let b ← s.memRead a 16
  let h ← liftError (decodeHeader s.cfg.hostOrder b len)
  pure { mem := s.mem, res := ⟨some (enc64 h.acc), some (enc64 h.cols), some (enc64 h.rows), some (unsigned64 h.plen)⟩ }

/-- DECODE_HEADER (R113). -/
def execDecodeHeader (s : State) : Out := s.conclude (decodeHeaderWork s)

/-- The work of ENCODE_HEADER (R115). -/
def encodeHeaderWork (s : State) : Except Abort Completion := do
  let e ← s.argS 0
  let cols ← s.argS 1
  let rows ← s.argS 2
  let p ← s.argU 3
  let o ← s.argU 4
  let k ← s.argU 5
  check (dimOk rows) (.shapeMismatch 1)
  check (dimOk cols) (.shapeMismatch 2)
  check (accOk e) (.shapeMismatch 4)
  check (decide (p ≤ payloadMax)) (.allocationFailure 2)
  check (decide (16 ≤ k)) (.allocationFailure 1)
  let m ← s.memWrite o (natBytesOf s.cfg.hostOrder (headerWords ⟨e, cols, rows, p⟩))
  pure { mem := m, res := ⟨some (unsigned64 16), none, none, none⟩ }

/-- ENCODE_HEADER (R115). -/
def execEncodeHeader (s : State) : Out := s.conclude (encodeHeaderWork s)

end Sys2Proof.Machine
end

