-- ==== Sys2Proof/Machine/RowPacker.lean ====
section
/-! DEFINITION. The Row Packer: PACK_ROW (42_row_packer). -/

namespace Sys2Proof.Machine

/-- A row record with its kind and code width (R130). -/
structure RowRecord where
  words : List Word
  kind : Nat
  width : Nat
deriving DecidableEq, Repr

/-- The first cell of least value (R134); `none` for an empty row. -/
def leastCell : List Word → Option Word
  | [] => none
  | c :: cs => some (cs.foldl (fun best x => if scaled x < scaled best then x else best) c)

/-- `q_i` of a present cell against the base (R135). -/
def cellCode (base c : Word) (e : Int) : Nat := quantize (scaled c - scaled base).toNat e

/-- `Q`, the greatest of the codes of the present cells (R135). -/
def maxCode (base : Word) (e : Int) (present : List Word) : Nat :=
  present.foldl (fun acc c => max acc (cellCode base c e)) 0

/-- The present cells of a row, in order (R131). -/
def presentCells (cells : List Word) (mdi : Word) : List Word := cells.filter fun c => !feq c mdi

/-- `code_i` in a NORMAL row of width `b` (R139). -/
def rowCode (base mdi : Word) (e : Int) (b : Nat) (c : Word) : Nat :=
  if feq c mdi then 2 ^ b - 1 else cellCode base c e

/-- The code bit string of a NORMAL row (30_encoding R74). -/
def codeBits (b : Nat) : List Nat → List Bool
  | [] => []
  | k :: ks => bitsMSB k b ++ codeBits b ks

/-- The NORMAL record (R139). -/
def normalRecord (base : Word) (b : Nat) (codes : List Nat) : RowRecord where
  words := encode (.normal (BitVec.ofNat 8 b)) :: base :: pack64 (codeBits b codes)
  kind := 3
  width := b

/-- `PackRow(c, mdi, e, r)` (R139). -/
def packRow (bMax : Nat) (cells : List Word) (mdi : Word) (e : Int) (r : Nat) : Except CodecError RowRecord :=
  let present := presentCells cells mdi
  match leastCell present with
  | none => .ok { words := [encode .allMissing], kind := 1, width := 0 }
  | some base =>
    if present.any (fun c => !isFinite c) then .error (.accuracyOverflow r)
    else
      let q := maxCode base e present
      if present.length = cells.length ∧ q = 0 then .ok { words := [encode .constant, base], kind := 2, width := 0 }
      else
        let b := bitLength (q + 1)
        if bMax < b then .error (.accuracyOverflow r)
        else .ok (normalRecord base b (cells.map (rowCode base mdi e b)))

/-- The work of PACK_ROW (R140). -/
def packRowWork (s : State) : Except Abort Completion := do
  let a ← s.argU 0
  let cols ← s.argS 1
  let mdi ← s.argF 2
  let e ← s.argS 3
  let o ← s.argU 4
  let k ← s.argU 5
  check (dimOk cols) (.shapeMismatch 2)
  check (accOk e) (.shapeMismatch 4)
  let b ← s.memRead a (8 * cols.toNat)
  let record ← liftError (packRow s.cfg.bMax (natWords s.cfg.hostOrder b) mdi e 0)
  check (decide (8 * record.words.length ≤ k)) (.allocationFailure 1)
  let m ← s.memWrite o (natBytesOf s.cfg.hostOrder record.words)
  pure { mem := m
         res := ⟨some (unsigned64 (8 * record.words.length)), some (unsigned64 record.kind), some (unsigned64 record.width), none⟩ }

/-- PACK_ROW (R140). -/
def execPackRow (s : State) : Out := s.conclude (packRowWork s)

end Sys2Proof.Machine
end

