-- ==== Sys2Proof/Machine/Normalizer.lean ====
section
/-! DEFINITION. The Endian Normalizer: NORMALIZE (40_endian_normalizer). -/

namespace Sys2Proof.Machine

/-- Every whole word of a byte list with its 8 bytes reversed; bytes after the last whole word stay. -/
def swapWords : List Byte → List Byte
  | b0 :: b1 :: b2 :: b3 :: b4 :: b5 :: b6 :: b7 :: rest => b7 :: b6 :: b5 :: b4 :: b3 :: b2 :: b1 :: b0 :: swapWords rest
  | l => l

/-- `Normalize(B)` (R100). -/
def normalizeBytes (o : ByteOrder) (b : List Byte) : List Byte :=
  match o with
  | .big => b
  | .little => swapWords b

/-- The memory NORMALIZE leaves at `a` (R102): a `BIG` host writes nothing. The region is the one just read, so the
write cannot be stuck. -/
def normalizedMem (o : ByteOrder) (m : Memory) (a : Nat) (b : List Byte) : Memory :=
  match o with
  | .big => m
  | .little => m.writeBytes a (normalizeBytes .little b)

/-- The work of NORMALIZE (R102). -/
def normalizeWork (s : State) : Except Abort Completion := do
  let a ← s.argU 0
  let n ← s.argU 1
  check (decide (n % 8 = 0)) (.invalidLength n)
  let b ← s.memRead a n
  pure { mem := normalizedMem s.cfg.hostOrder s.mem a b, res := ⟨some (unsigned64 (n / 8)), none, none, none⟩ }

/-- NORMALIZE (R102). -/
def execNormalize (s : State) : Out := s.conclude (normalizeWork s)

end Sys2Proof.Machine
end

