-- ==== Sys2Proof/Machine/RowUnpacker.lean ====
section
/-! DEFINITION. The Row Unpacker (43_row_unpacker): the meanings of the three row descriptors, the sequencer that decodes
row after row from the transient state (10_state R31), and UNPACK_ROW. -/

namespace Sys2Proof.Machine

/-- Word `k` of the working words. -/
def Transient.word (t : Transient) (k : Nat) : Word := t.work.getD k 0

/-- A record has been decoded: its cells join `STAGE`, the cursor advances by its words, the next row comes (44 R176). -/
def Transient.emit (t : Transient) (cells : List Word) (kind consumed : Nat) : Transient :=
  { t with
    stage := t.stage ++ cells
    cur := t.cur + consumed
    row := t.row + 1
    kind := kind
    consumed := consumed }

/-- Reading the descriptor at the cursor (R151, R152): TruncatedRow where no word remains, CorruptRowHeader where it is no legal
descriptor. -/
def Transient.descriptor (bMax : Nat) (t : Transient) : Except CodecError RowDescriptor :=
  if t.lim ≤ t.cur then .error (.truncatedRow t.row)
  else
    match decodeDescriptor bMax (t.word t.cur) with
    | some d => .ok d
    | none => .error (.corruptRowHeader t.row)

/-- ALL_MISSING on the transient state (R153). -/
def allMissingRecord (t : Transient) : Except CodecError Transient :=
  .ok (t.emit (List.replicate t.cols t.mdi) 1 1)

/-- CONSTANT on the transient state (R154). -/
def constantRecord (t : Transient) : Except CodecError Transient :=
  if t.lim ≤ t.cur + 1 then .error (.truncatedRow t.row)
  else .ok (t.emit (List.replicate t.cols (t.word (t.cur + 1))) 2 2)

/-- A cell of a NORMAL row from its code `k` (R155 to R157). -/
def normalCell (base mdi : Word) (e : Int) (b k : Nat) : Word := if k = 2 ^ b - 1 then mdi else recon base k e

/-- The `cols` codes of a NORMAL row of width `b` in a bit string (R155, 30_encoding R74). -/
def codesOf (s : List Bool) (b cols : Nat) : List Nat := (List.range cols).map fun i => subBits s (i * b) b

/-- NORMAL of width `b` on the transient state (R155). -/
def normalRecordOn (b : Nat) (t : Transient) : Except CodecError Transient :=
  let d := wordsFor (t.cols * b)
  if t.lim < t.cur + 2 + d then .error (.truncatedRow t.row)
  else
    let s := unpack64 ((t.work.drop (t.cur + 2)).take d)
    .ok (t.emit ((codesOf s b t.cols).map (normalCell (t.word (t.cur + 1)) t.mdi t.acc b)) 3 (2 + d))

/-- Run a record's decoding rule on the transient state of a command; an error ends the command (60 R203). -/
def State.runRecord (s : State) (f : Transient → Except CodecError Transient) : Out :=
  match s.transient with
  | none => .fault .noRowRecord
  | some t =>
    match f t with
    | .ok t' => .next { s with transient := some t' }
    | .error e => .next (s.raise e)

/-- The row descriptor ALL_MISSING (R153). -/
def execAllMissing (s : State) : Out := s.runRecord allMissingRecord

/-- The row descriptor CONSTANT (R154). -/
def execConstant (s : State) : Out := s.runRecord constantRecord

/-- The row descriptor NORMAL of width `b` (R155). -/
def execNormal (b : BitVec 8) (s : State) : Out := s.runRecord (normalRecordOn b.toNat)

/-- Run the descriptor that was read. -/
def runDescriptor (d : RowDescriptor) (s : State) : Out :=
  match d with
  | .allMissing => execAllMissing s
  | .constant => execConstant s
  | .normal b => execNormal b s

/-- Decode the record at the cursor (R158): read its descriptor, then run it. -/
def State.decodeRecord (s : State) : Out :=
  match s.transient with
  | none => .fault .noRowRecord
  | some t =>
    match t.descriptor s.cfg.bMax with
    | .ok d => runDescriptor d s
    | .error e => .next (s.raise e)

/-- The result registers of the command that decoded the rows (R160, 44 R178). -/
def Transient.results (t : Transient) : ResFile :=
  match t.job with
  | .unpackRow => ⟨some (unsigned64 (8 * t.cols)), some (unsigned64 t.kind), some (unsigned64 t.consumed), none⟩
  | .decodeField =>
    ⟨some (unsigned64 (8 * t.rows * t.cols)), some (unsigned64 t.rows), some (unsigned64 t.cols), some (enc64 t.acc)⟩

/-- DECODE_FIELD's records must end exactly at the declared payload end (44 R178 step 7). -/
def Transient.filled (t : Transient) : Bool :=
  match t.job with
  | .unpackRow => true
  | .decodeField => decide (t.cur = t.lim)

/-- The end of a command whose rows are all decoded: the payload check, then the cells are written (R160, 44 R178). -/
def finishWork (s : State) (t : Transient) : Except Abort Completion := do
  check t.filled (.malformedHeader 5)
  let m ← s.memWrite t.out (natBytesOf s.cfg.hostOrder t.stage)
  pure { mem := m, res := t.results }

/-- End the command that is decoding rows. -/
def State.finishRows (s : State) : Out :=
  match s.transient with
  | none => .fault .noRowRecord
  | some t => s.conclude (finishWork s t)

/-- Decode `n` more rows in row order, then end the command; the first row that fails ends it (44 R178, R180). -/
def State.runRows : Nat → State → Out
  | 0, s => s.finishRows
  | n + 1, s =>
    match s.decodeRecord with
    | .next s' =>
      match s'.transient with
      | some _ => State.runRows n s'
      | none => .next s'
    | .fault f => .fault f
    | .refused r => .refused r

/-- A command that decodes rows: its checks and reads answer the transient state it starts with (10_state R31); then its rows
run. -/
def State.startRows (s : State) (r : Except Abort Transient) : Out :=
  match r with
  | .ok t => State.runRows t.rows { s with transient := some t }
  | .error (.raise e) => .next (s.raise e)
  | .error (.stop f) => .fault f

/-- What UNPACK_ROW does before its record is decoded (R160). -/
def unpackRowSetup (s : State) : Except Abort Transient := do
  let a ← s.argU 0
  let len ← s.argU 1
  let off ← s.argU 2
  let cols ← s.argS 3
  let mdi ← s.argF 4
  let e ← s.argS 5
  let o ← s.argU 6
  let k ← s.argU 7
  check (decide (len % 8 = 0)) (.invalidLength len)
  check (dimOk cols) (.shapeMismatch 2)
  check (accOk e) (.shapeMismatch 4)
  check (decide (8 * cols.toNat ≤ k)) (.allocationFailure 1)
  let b ← s.memRead a len
  pure { job := .unpackRow, work := natWords s.cfg.hostOrder b, lim := len / 8, cur := off, row := 0, rows := 1,
         cols := cols.toNat, mdi := mdi, acc := e, stage := [], kind := 0, consumed := 0, out := o }

/-- UNPACK_ROW (R160). -/
def execUnpackRow (s : State) : Out := s.startRows (unpackRowSetup s)

end Sys2Proof.Machine
end

