-- ==== Sys2Proof/Machine/FieldCodec.lean ====
section
/-! DEFINITION. The Field Codec: ENCODE_FIELD and DECODE_FIELD (44_field_codec). -/

namespace Sys2Proof.Machine

/-- Pack `n` rows of `cols` cells in row order, row `r` first, into one payload (R171, R172). -/
def packRows (bMax cols : Nat) (mdi : Word) (e : Int) : Nat → Nat → List Word → Except CodecError (List Word)
  | 0, _, _ => .ok []
  | n + 1, r, cells =>
    match packRow bMax (cells.take cols) mdi e r with
    | .error err => .error err
    | .ok record =>
      match packRows bMax cols mdi e n (r + 1) (cells.drop cols) with
      | .error err => .error err
      | .ok payload => .ok (record.words ++ payload)

/-- The work of ENCODE_FIELD (R172). -/
def encodeFieldWork (s : State) : Except Abort Completion := do
  let a ← s.argU 0
  let n ← s.argU 1
  let rows ← s.argS 2
  let cols ← s.argS 3
  let mdi ← s.argF 4
  let e ← s.argS 5
  let o ← s.argU 6
  let k ← s.argU 7
  check (dimOk rows) (.shapeMismatch 1)
  check (dimOk cols) (.shapeMismatch 2)
  check (decide ((n : Int) = rows * cols)) (.shapeMismatch 3)
  check (accOk e) (.shapeMismatch 4)
  let b ← s.memRead a (8 * n)
  let payload ← liftError (packRows s.cfg.bMax cols.toNat mdi e rows.toNat 0 (natWords s.cfg.hostOrder b))
  let p := payload.length
  check (decide (p ≤ payloadMax)) (.allocationFailure 2)
  check (decide (8 * (2 + p) ≤ k)) (.allocationFailure 1)
  let stream := natBytesOf s.cfg.hostOrder (headerWords ⟨e, cols, rows, p⟩ ++ payload)
  let m ← s.memWrite o (normalizeBytes s.cfg.hostOrder stream)
  pure { mem := m, res := ⟨some (unsigned64 (8 * (2 + p))), some (unsigned64 p), none, none⟩ }

/-- ENCODE_FIELD (R172). -/
def execEncodeField (s : State) : Out := s.conclude (encodeFieldWork s)

/-- The expected shape of DECODE_FIELD agrees with the header's, or there is none (R177). -/
def shapeAgrees (erows ecols : Int) (h : Header) : Bool :=
  (decide (erows = 0) && decide (ecols = 0)) || (decide (erows = h.rows) && decide (ecols = h.cols))

/-- What DECODE_FIELD does before its rows are decoded (R176 to R178). -/
def decodeFieldSetup (s : State) : Except Abort Transient := do
  let a ← s.argU 0
  let len ← s.argU 1
  let mdi ← s.argF 2
  let erows ← s.argS 3
  let ecols ← s.argS 4
  let o ← s.argU 5
  let k ← s.argU 6
  check (decide (len % 8 = 0)) (.invalidLength len)
  let b ← s.memRead a len
  let work := normalizeBytes s.cfg.hostOrder b
  let h ← liftError (decodeHeader s.cfg.hostOrder work len)
  check (decide (2 + h.plen ≤ len / 8)) (.malformedHeader 4)
  check (shapeAgrees erows ecols h) (.shapeMismatch 5)
  check (decide (8 * h.rows.toNat * h.cols.toNat ≤ k)) (.allocationFailure 1)
  pure { job := .decodeField, work := natWords s.cfg.hostOrder work, lim := 2 + h.plen, cur := 2, row := 0,
         rows := h.rows.toNat, cols := h.cols.toNat, mdi := mdi, acc := h.acc, stage := [], kind := 0, consumed := 0,
         out := o }

/-- DECODE_FIELD (R178). -/
def execDecodeField (s : State) : Out := s.startRows (decodeFieldSetup s)

end Sys2Proof.Machine
end

