-- ==== Sys2Proof/Machine/Dispatch.lean ====
section
/-! DEFINITION. exec: one arm per constructor of Instr. -/

namespace Sys2Proof.Machine

def exec (i : Instr) (s : State) : Host.Outcome State Fault Refusal :=
  match i with
  | .normalize => Sys2Proof.Machine.execNormalize s
  | .decodeHeader => Sys2Proof.Machine.execDecodeHeader s
  | .encodeHeader => Sys2Proof.Machine.execEncodeHeader s
  | .packRow => Sys2Proof.Machine.execPackRow s
  | .unpackRow => Sys2Proof.Machine.execUnpackRow s
  | .encodeField => Sys2Proof.Machine.execEncodeField s
  | .decodeField => Sys2Proof.Machine.execDecodeField s
  | .allMissing => Sys2Proof.Machine.execAllMissing s
  | .constant => Sys2Proof.Machine.execConstant s
  | .normal b => Sys2Proof.Machine.execNormal b s

end Sys2Proof.Machine
end

