-- ==== Sys2Proof/Machine/HostPort.lean ====
section
/-! DEFINITION. The host interface (10_state R22 to R26, 70 R221): what one host access does, and where the next instruction
comes from: the `CMD` register, or the row record at the cursor of a command that is decoding rows. -/

namespace Sys2Proof.Machine

/-- What the next step has before it: an instruction to run at a state, or a step that is already decided. -/
inductive Fetched where
  | run (i : Instr) (s : State)
  | ended (o : Out)

/-- A reset of the block (70 R220, R221): the registers take their reset values; the configuration and host memory are not
touched, and the host's side of the model stays as it is. -/
def State.resetBlock (s : State) : State :=
  { State.resetWith s.cfg s.mem with host := s.host, hostData := s.hostData, freeCount := s.freeCount }

/-- A host write of `CMD` (R22): the command word it selects is decoded; a word that selects none ends at once with
IllegalCommand (30_encoding R63). -/
def State.issue (s : State) (v : Word) : Fetched :=
  match decodeCommand v with
  | some i => .run i { s with cmd := v }
  | none => .ended (.next (State.raise { s with cmd := v } .illegalCommand))

/-- A host read of ARG i (R26): the last written value; a fault where there is none (92 D27: "Reading an unwritten ARG or RES is a
fault"). -/
def State.hostReadArg (s : State) (i : Fin 8) : Out :=
  match s.args.get i with
  | some v => .next { s with hostData := v }
  | none => .fault (.unwrittenOperand i)

/-- A host read of RES i (R25): a fault where the last command left it unwritten ("a model shall treat the read as a fault"; 70
R228). -/
def State.hostReadRes (s : State) (i : Fin 4) : Out :=
  match s.res.get i with
  | some v => .next { s with hostData := v }
  | none => .fault (.unwrittenResult i)

/-- A host read of `CMD` returns an unspecified value (R26): a free value (log 6). -/
def State.hostReadCmd (s : State) : State :=
  { s with hostData := Config.unspecifiedWord s.freeCount, freeCount := s.freeCount + 1 }

/-- The host stores a byte to its memory. -/
def State.hostStore (s : State) (a : Word) (v : Byte) : Out :=
  if admits s.cfg a.toNat then .next { s with mem := s.mem.write a.toNat v } else .fault .hostAccess

/-- The host loads a byte of its memory. -/
def State.hostLoad (s : State) (a : Word) : Out :=
  if admits s.cfg a.toNat then .next { s with hostData := unsigned64 (s.mem.read a.toNat).toNat } else .fault .hostAccess

/-- One host access (R26). -/
def State.access (s : State) (e : HostEvent) : Fetched :=
  match e with
  | .writeArg i v => .ended (.next { s with args := s.args.set i v })
  | .writeCmd v => s.issue v
  | .writeStatus _ => .ended (.next s)
  | .writeRes _ _ => .ended (.next s)
  | .readArg i => .ended (s.hostReadArg i)
  | .readCmd => .ended (.next s.hostReadCmd)
  | .readStatus => .ended (.next { s with hostData := s.status })
  | .readRes i => .ended (s.hostReadRes i)
  | .storeByte a v => .ended (s.hostStore a v)
  | .loadByte a => .ended (s.hostLoad a)
  | .reset => .ended (.next s.resetBlock)

/-- In the middle of a command that decodes rows: the record at the cursor is next, or the end of the command (log 11). -/
def State.fetchRow (s : State) (t : Transient) : Fetched :=
  if t.row < t.rows then
    match t.descriptor s.cfg.bMax with
    | .ok d => .run d.toInstr s
    | .error e => .ended (.next (s.raise e))
  else .ended s.finishRows

/-- What the next step has before it. Between commands it is the next host access; with none the block is idle and holds its
registers (70 R221, 60 R216). -/
def State.fetch (s : State) : Fetched :=
  match s.transient with
  | some t => s.fetchRow t
  | none =>
    match s.host with
    | [] => .ended (.next s)
    | e :: rest => State.access { s with host := rest } e

/-- Operand word `k` of an instruction given as a number: the 64 bits from bit `64 * (k + 1)` on (30_encoding R79: the
instruction is its CMD value and its ARG values in order), those from `nbits` on being 0. -/
def operandWord (nbits w k : Nat) : Word := BitVec.ofNat 64 ((w % 2 ^ nbits) >>> (64 * (k + 1)))

/-- The transient state of a command that stands before a row record of one column whose descriptor is `d` and whose other
words are 0. -/
def rowBefore (d : Word) : Transient where
  job := .unpackRow
  work := [d, 0, 0]
  lim := 3
  cur := 0
  row := 0
  rows := 1
  cols := 1
  mdi := 0
  acc := 0
  stage := []
  kind := 0
  consumed := 0
  out := 0

/-- Place an instruction where the next step takes it from: a command word in a host write of `CMD` that comes next, its
operand words in the ARG registers; a row descriptor at the cursor of a row decode (log 10). -/
def State.placeInstr (s : State) (nbits w : Nat) : State :=
  let v := firstWord nbits w
  match decodeCommand v, decodeDescriptor s.cfg.bMax v with
  | none, some _ => { s with transient := some (rowBefore v) }
  | _, _ =>
    { s with
      transient := none
      args := ⟨some (operandWord nbits w 0), some (operandWord nbits w 1), some (operandWord nbits w 2),
        some (operandWord nbits w 3), some (operandWord nbits w 4), some (operandWord nbits w 5),
        some (operandWord nbits w 6), some (operandWord nbits w 7)⟩
      host := .writeCmd v :: s.host }

end Sys2Proof.Machine
end

