-- ==== Sys2Proof/Machine/Assembler.lean ====
section
/-! DEFINITION. The command syntax, the pseudo-instructions and the record listing of the spec (30_encoding R79 to R81): a
command with its operands, the host accesses it stands for, and its text. -/

namespace Sys2Proof.Machine

/-- A command with its operands, named as in R79. -/
inductive AsmCommand where
  | normalize (buf len : Word)
  | decodeHeader (inp len : Word)
  | encodeHeader (e cols rows : Int) (plen out cap : Word)
  | packRow (inp : Word) (cols : Int) (mdi : Word) (e : Int) (out cap : Word)
  | unpackRow (inp len off : Word) (cols : Int) (mdi : Word) (e : Int) (out cap : Word)
  | encodeField (inp n : Word) (rows cols : Int) (mdi : Word) (e : Int) (out cap : Word)
  | decodeField (inp len mdi : Word) (erows ecols : Int) (out cap : Word)
deriving DecidableEq, Repr

/-- The command the syntax names. -/
def AsmCommand.instr : AsmCommand → Instr
  | .normalize .. => .normalize
  | .decodeHeader .. => .decodeHeader
  | .encodeHeader .. => .encodeHeader
  | .packRow .. => .packRow
  | .unpackRow .. => .unpackRow
  | .encodeField .. => .encodeField
  | .decodeField .. => .decodeField

/-- An operand as the syntax writes it (R79): an integer or a binary64 pattern. -/
inductive AsmValue where
  | int (v : Int)
  | pattern (w : Word)
deriving DecidableEq, Repr

/-- The value an operand gives its ARG register (R64). -/
def AsmValue.word : AsmValue → Word
  | .int v => enc64 v
  | .pattern w => w

/-- An unsigned operand. -/
def AsmValue.unsigned (w : Word) : AsmValue := .int w.toNat

/-- The operand names and values of a command, in the order of R79. -/
def AsmCommand.operands : AsmCommand → List (String × AsmValue)
  | .normalize buf len => [("buf", .unsigned buf), ("len", .unsigned len)]
  | .decodeHeader inp len => [("in", .unsigned inp), ("len", .unsigned len)]
  | .encodeHeader e cols rows plen out cap =>
    [("e", .int e), ("cols", .int cols), ("rows", .int rows), ("plen", .unsigned plen), ("out", .unsigned out),
     ("cap", .unsigned cap)]
  | .packRow inp cols mdi e out cap =>
    [("in", .unsigned inp), ("cols", .int cols), ("mdi", .pattern mdi), ("e", .int e), ("out", .unsigned out),
     ("cap", .unsigned cap)]
  | .unpackRow inp len off cols mdi e out cap =>
    [("in", .unsigned inp), ("len", .unsigned len), ("off", .unsigned off), ("cols", .int cols), ("mdi", .pattern mdi),
     ("e", .int e), ("out", .unsigned out), ("cap", .unsigned cap)]
  | .encodeField inp n rows cols mdi e out cap =>
    [("in", .unsigned inp), ("n", .unsigned n), ("rows", .int rows), ("cols", .int cols), ("mdi", .pattern mdi),
     ("e", .int e), ("out", .unsigned out), ("cap", .unsigned cap)]
  | .decodeField inp len mdi erows ecols out cap =>
    [("in", .unsigned inp), ("len", .unsigned len), ("mdi", .pattern mdi), ("erows", .int erows), ("ecols", .int ecols),
     ("out", .unsigned out), ("cap", .unsigned cap)]

/-- The writes of `ARG i` on for a list of values; there is no ARG8, so at most 8 are made. -/
def argWrites : Nat → List Word → List HostEvent
  | _, [] => []
  | k, v :: vs => if h : k < 8 then .writeArg ⟨k, h⟩ v :: argWrites (k + 1) vs else []

/-- The encoding of a command (R79): `ARGi <- value` for each operand in order, then the CMD value. -/
def AsmCommand.hostWrites (c : AsmCommand) : List HostEvent :=
  argWrites 0 (c.operands.map fun p => p.2.word) ++ [.writeCmd (encode c.instr)]

/-- The pseudo-instruction `encode(F, mdi, e)` of a field of `rows` and `cols` at `a`, with the output region chosen
(R80). -/
def AsmCommand.encodePseudo (a : Word) (rows cols : Nat) (mdi : Word) (e : Int) (out cap : Word) : AsmCommand :=
  .encodeField a (unsigned64 (rows * cols)) rows cols mdi e out cap

/-- The pseudo-instruction `decode(bytes, mdi)` of `len` bytes at `a`, with the output region chosen (R80). -/
def AsmCommand.decodePseudo (a len mdi out cap : Word) : AsmCommand := .decodeField a len mdi 0 0 out cap

/-- A binary64 pattern as `0x` and 16 hexadecimal digits (R79). -/
def patternText (w : Word) : String :=
  "0x" ++ String.ofList ((List.range 16).map fun i => Nat.digitChar ((w.toNat >>> (60 - 4 * i)) % 16))

/-- The text of an operand value (R79). -/
def AsmValue.text : AsmValue → String
  | .int v => toString v
  | .pattern w => patternText w

/-- The mnemonic of a command (30_encoding R60). -/
def AsmCommand.mnemonic : AsmCommand → String
  | .normalize .. => "NORMALIZE"
  | .decodeHeader .. => "DECODE_HEADER"
  | .encodeHeader .. => "ENCODE_HEADER"
  | .packRow .. => "PACK_ROW"
  | .unpackRow .. => "UNPACK_ROW"
  | .encodeField .. => "ENCODE_FIELD"
  | .decodeField .. => "DECODE_FIELD"

/-- The text of a command: `MNEMONIC name=value, name=value, ...` (R79). -/
def AsmCommand.text (c : AsmCommand) : String :=
  c.mnemonic ++ " " ++ String.intercalate ", " (c.operands.map fun p => p.1 ++ "=" ++ p.2.text)

/-- The listing of a code of a NORMAL row of width `b` (R81): `M` for the missing code. -/
def codeText (b k : Nat) : String := if k = 2 ^ b - 1 then "M" else toString k

/-- The listing of a NORMAL record (R81). -/
def normalListing (b : Nat) (base : Word) (codes : List Nat) : String :=
  "NORMAL b=" ++ toString b ++ " base=" ++ patternText base ++ " codes=["
    ++ String.intercalate ", " (codes.map (codeText b)) ++ "]"

/-- The listing of a CONSTANT record (R81). -/
def constantListing (base : Word) : String := "CONSTANT base=" ++ patternText base

/-- The listing of an ALL_MISSING record (R81). -/
def allMissingListing : String := "ALL_MISSING"

/-- The listing of a cell list (R81): `mdi` for a missing cell. -/
def cellsListing (mdi : Word) (cells : List Word) : String :=
  "[" ++ String.intercalate ", " (cells.map fun c => if feq c mdi then "mdi" else patternText c) ++ "]"

end Sys2Proof.Machine
end

