-- ==== Sys2Proof/Safety.lean ====
section
/-! DEFINITION. The words the statements use: the invariant of the machine, safe runs, regions, rows and fields as lists of
cells, exact real values, and what round-to-nearest-even means. -/

namespace Sys2Proof.Machine

/-! ### The invariant and runs -/

/-- `STATUS` holds one of the codes of 30_encoding R62, so 63:8 are zero. -/
def statusLegal (w : Word) : Bool := decide (w.toNat ≤ 0x08) || decide (w = statusNone)

/-- Which RES registers hold a value, by the status code (10_state R25): none before the first command, `RES0` alone after an
error, at least `RES0` after a success. -/
def resultsMatch (w : Word) (r : ResFile) : Bool :=
  if w = statusNone then r == ⟨none, none, none, none⟩
  else r.res0.isSome && (w == statusOK || (r.res1 == none && r.res2 == none && r.res3 == none))

/-- The invariant: host memory in canonical form, a legal status, and the result registers as the status says. -/
def State.Inv (s : State) : Prop :=
  s.mem.wf = true ∧ statusLegal s.status = true ∧ resultsMatch s.status s.res = true

/-- The states that steps lead to. -/
inductive Reaches : State → State → Prop where
  | refl (s : State) : Reaches s s
  | step {s t u : State} : Reaches s t → step t = .next u → Reaches s u

/-- A run from `s` is safe when no state it reaches stops. -/
def State.Safe (s : State) : Prop := ∀ t, Reaches s t → ∃ u, step t = .next u

/-! ### Operands -/

/-- The ARG registers from ARG0 on hold these words; what the others hold does not matter (10_state R23, 92 D36). -/
def State.operandsAre (s : State) (vs : List Word) : Prop :=
  ∀ (k : Fin 8) (v : Word), vs[k.val]? = some v → s.args.get k = some v

/-- The ARG register that holds the output address of a command (30_encoding R61), for the commands that have one. -/
def outputArg : Instr → Option (Fin 8)
  | .normalize => none
  | .decodeHeader => none
  | .encodeHeader => some 4
  | .packRow => some 4
  | .unpackRow => some 6
  | .encodeField => some 6
  | .decodeField => some 5
  | .allMissing => none
  | .constant => none
  | .normal _ => none

/-- A dimension in `1 .. DIM_MAX` (00_scope R9). -/
def inDim (d : Word) : Prop := 1 ≤ d.toInt ∧ d.toInt ≤ 2 ^ 31 - 1

/-- An accuracy in `ACC_MIN .. ACC_MAX` (00_scope R9). -/
def inAcc (e : Word) : Prop := -2 ^ 31 ≤ e.toInt ∧ e.toInt ≤ 2 ^ 31 - 1

/-- A command from `s` ended with `STATUS = OK` and these results, and memory outside the `n` bytes at `a` is as it
was; nothing else but the transient state, which is gone, may differ (20_memory R51, 10_state R24, R25). -/
def EndsWell (s t : State) (res : ResFile) (a n : Nat) : Prop :=
  t.status = 0x00 ∧ t.res = res ∧ t.transient = none ∧ t.cfg = s.cfg ∧ t.cmd = s.cmd ∧ t.args = s.args ∧
    t.host = s.host ∧ t.hostData = s.hostData ∧ t.freeCount = s.freeCount ∧
    ∀ x, ¬ (a ≤ x ∧ x < a + n) → Memory.read t.mem x = Memory.read s.mem x

/-- The region of `n` bytes at `a` does not exist as a whole, in the words of 20_memory R43: its end is past 2^64, or some byte of it is
not admitted. -/
def regionMissing (c : Config) (a n : Nat) : Prop := 2 ^ 64 < a + n ∨ ∃ x, a ≤ x ∧ x < a + n ∧ admits c x = false

/-- ARG, STATUS and RES writes, STATUS and CMD reads, resets, and illegal command words: the accesses that stop in no state. -/
def registerOnly : HostEvent → Bool
  | .writeArg _ _ => true
  | .writeCmd v => (decodeCommand v).isNone
  | .writeStatus _ => true
  | .writeRes _ _ => true
  | .readArg _ => false
  | .readCmd => true
  | .readStatus => true
  | .readRes _ => false
  | .storeByte _ _ => false
  | .loadByte _ => false
  | .reset => true

/-- The legal descriptors, in the words of 30_encoding R77. -/
def legalDescriptor (bMax : Nat) (d : Word) : Prop :=
  d = 0x0100000000000000 ∨ d = 0x0200000000000000 ∨
    (d.toNat / 2 ^ 56 = 3 ∧ 1 ≤ d.toNat / 2 ^ 48 % 2 ^ 8 ∧ d.toNat / 2 ^ 48 % 2 ^ 8 ≤ bMax ∧ d.toNat % 2 ^ 48 = 0)

/-! ### Regions and cells -/

/-- The cells of `n` words in host order at `a` (20_memory R45). -/
def State.cellsAt (s : State) (a n : Nat) : List Word := natWords s.cfg.hostOrder (s.mem.readBytes a (8 * n))

/-- The stream words of `n` big-endian words at `a` (20_memory R44). -/
def State.streamAt (s : State) (a n : Nat) : List Word := natWords .big (s.mem.readBytes a (8 * n))

/-! ### Exact values -/

/-- `Real(x)` of a finite pattern (00_scope R12), as 93 I2 writes it. -/
def real (x : Word) : ℚ :=
  (if signBit x then -1 else 1) *
    (if expField x = 0 then (fracField x : ℚ) / 2 ^ 52 * (2 : ℚ) ^ (-1022 : ℤ)
     else (1 + (fracField x : ℚ) / 2 ^ 52) * (2 : ℚ) ^ ((expField x : ℤ) - 1023))

/-- The least magnitude that rounds to infinity (R12). -/
def overflowBound : ℚ := 2 ^ 1024 - 2 ^ 970

/-- `w` is `RNE64(r)` (R12) for an `r` that does not overflow: a finite pattern that no finite pattern is nearer to `r` than,
with an even fraction where another value is equally near. -/
def nearestEven (r : ℚ) (w : Word) : Prop :=
  isFinite w = true ∧ ∀ y : Word, isFinite y = true →
    |real w - r| ≤ |real y - r| ∧ (|real w - r| = |real y - r| → real y ≠ real w → fracField w % 2 = 0)

/-! ### Rows and fields -/

/-- The cells of row `r` of a field of `cols` columns (30_encoding R78). -/
def rowCells (cols r : Nat) (cells : List Word) : List Word := (cells.drop (r * cols)).take cols

/-- The row's base, where it has a present cell (42 R134). -/
def rowBase (cells : List Word) (mdi : Word) : Option Word := leastCell (presentCells cells mdi)

/-- What a cell of a packed row decodes to (43 R161), with `base` the row's base. -/
def decodedCell (base mdi : Word) (e : Int) (c : Word) : Word :=
  if feq c mdi then mdi else recon base (cellCode base c e) e

/-- The cells a packed row decodes to (43 R161): all `mdi` where no cell is present. -/
def decodedRow (cells : List Word) (mdi : Word) (e : Int) : List Word :=
  match rowBase cells mdi with
  | none => cells.map fun _ => mdi
  | some base => cells.map (decodedCell base mdi e)

/-- The cells a packed field decodes to (44 R181), row by row, `n` rows of `cols` cells. -/
def decodedRows (cols : Nat) (mdi : Word) (e : Int) : Nat → List Word → List Word
  | 0, _ => []
  | n + 1, cells => decodedRow (cells.take cols) mdi e ++ decodedRows cols mdi e n (cells.drop cols)

/-- Every present cell of a packed row decodes within `2^(e-1)` of its value plus the one rounding of its reconstruction, which is
zero where the exact sum is a binary64 value (43 R161, 42 R141). -/
def withinHalfQuantum (cells : List Word) (mdi : Word) (e : Int) : Prop :=
  ∀ base ∈ rowBase cells mdi, ∀ c ∈ presentCells cells mdi,
    |real (decodedCell base mdi e c) - real c| ≤
      (2 : ℚ) ^ (e - 1) + |real (decodedCell base mdi e c) - (real base + (cellCode base c e : ℚ) * (2 : ℚ) ^ e)| ∧
    ∀ x : Word, isFinite x = true → real x = real base + (cellCode base c e : ℚ) * (2 : ℚ) ^ e →
      real (decodedCell base mdi e c) = real x

/-- Every reconstruction of the row is exact, and no decoded present cell equals `mdi` (43 R162, 44 R182, 93 I6). -/
def exactRow (cells : List Word) (mdi : Word) (e : Int) : Prop :=
  isNaN mdi = false ∧
    ∀ base ∈ rowBase cells mdi, ∀ c ∈ presentCells cells mdi,
      isFinite (recon base (cellCode base c e) e) = true ∧
        real (recon base (cellCode base c e) e) = real base + (cellCode base c e : ℚ) * (2 : ℚ) ^ e ∧
        feq (recon base (cellCode base c e) e) mdi = false

/-! ### Records as a relation -/

/-- One record at word `cur` of `work`, below the limit, decodes to `cols` cells (43 R151 to R157): the cells, the kind
and the words it occupies. The pad bits of a NORMAL record may hold any value (R155). -/
inductive RecordDecodes (bMax : Nat) (work : List Word) (lim cols : Nat) (mdi : Word) (e : Int) (cur : Nat) :
    List Word → Nat → Nat → Prop where
  | allMissing (hd : work[cur]? = some 0x0100000000000000) (hl : cur < lim) :
      RecordDecodes bMax work lim cols mdi e cur (List.replicate cols mdi) 1 1
  | constant (base : Word) (hd : work[cur]? = some 0x0200000000000000) (hb : work[cur + 1]? = some base)
      (hl : cur + 1 < lim) : RecordDecodes bMax work lim cols mdi e cur (List.replicate cols base) 2 2
  | normal (b : Nat) (base : Word) (codes : List Nat) (pad : List Bool) (hb1 : 1 ≤ b) (hb2 : b ≤ bMax)
      (hd : work[cur]? = some (descriptorWord 0x03 (BitVec.ofNat 8 b))) (hb : work[cur + 1]? = some base)
      (hl : cur + 2 + wordsFor (cols * b) ≤ lim) (hn : codes.length = cols) (hk : ∀ k ∈ codes, k < 2 ^ b)
      (hs : unpack64 ((work.drop (cur + 2)).take (wordsFor (cols * b))) = codeBits b codes ++ pad) :
      RecordDecodes bMax work lim cols mdi e cur
        (codes.map fun k => if k = 2 ^ b - 1 then mdi else recon base k e) 3 (2 + wordsFor (cols * b))

/-- `n` records from word `cur` on decode, in row order, to these cells, and the last ends at word `stop` (44 R176). -/
inductive RowsDecode (bMax : Nat) (work : List Word) (lim cols : Nat) (mdi : Word) (e : Int) :
    Nat → Nat → List Word → Nat → Prop where
  | nil (cur : Nat) : RowsDecode bMax work lim cols mdi e 0 cur [] cur
  | cons {n cur stop : Nat} {cells rest : List Word} {kind len : Nat}
      (h : RecordDecodes bMax work lim cols mdi e cur cells kind len)
      (hr : RowsDecode bMax work lim cols mdi e n (cur + len) rest stop) :
      RowsDecode bMax work lim cols mdi e (n + 1) cur (cells ++ rest) stop

/-- DECODE_FIELD with these operands, every check before its rows passed (44 R178 steps 1 to 5): `work` is the stream's words in the
whole input region, and `e`, `rows`, `cols` and `p` are its header's fields (30_encoding R66). -/
structure DecodeFieldSetting (s : State) (a n mdi er ec o k : Word) (work : List Word) (e : Int) (rows cols p : Nat) : Prop where
  operands : s.operandsAre [a, n, mdi, er, ec, o, k]
  whole : n.toNat % 8 = 0
  admitted : admitsRegion s.cfg a.toNat n.toNat = true
  stream : s.streamAt a.toNat (n.toNat / 8) = work
  header : ∃ w0 w1 payload, work = w0 :: w1 :: payload ∧ e = (w0.extractLsb' 32 32).toInt ∧
    (cols : Int) = (w0.extractLsb' 0 32).toInt ∧ (rows : Int) = (w1.extractLsb' 32 32).toInt ∧
    p = (w1.extractLsb' 0 32).toNat
  cols_pos : 1 ≤ cols
  rows_pos : 1 ≤ rows
  fits : 2 + p ≤ n.toNat / 8
  shape : (er = 0 ∧ ec = 0) ∨ (er.toInt = rows ∧ ec.toInt = cols)
  capacity : 8 * rows * cols ≤ k.toNat

end Sys2Proof.Machine
end

