-- ==== Sys2Proof/Certificates/Slice0/Obligations.lean ====
section
/-! DEFINITION. The statements for the provers: what reset leaves, the invariant, the host interface, encodings, errors and
frames, and what each instruction does. -/

open Sys2Proof Sys2Proof.Machine

/-! ## Reset, invariants, atomicity -/

/-- 70 R220, 10_state R24, R25: after a reset `STATUS` is 0xFF and every ARG and RES register is unwritten, there is no transient
state, and the configuration and host memory are as they were. (The value of `CMD` is the model's choice, log 4, and is not stated.) -/
def Obligations.ResetEventLeavesTheResetState : Prop :=
  ∀ (s : State) (rest : List HostEvent), s.transient = none → s.host = .reset :: rest →
    ∃ t, step s = .next t ∧ t.status = 0x00000000000000FF ∧
      (∀ i, t.args.get i = none) ∧ (∀ i, t.res.get i = none) ∧ t.transient = none ∧
      t.cfg = s.cfg ∧ t.mem = s.mem ∧ t.host = rest

/-- The state after reset meets the invariant. -/
def Obligations.ResetMeetsTheInvariant : Prop := State.reset.Inv

/-- The invariant (canonical memory, a legal status code, the result registers that the status calls for) is kept by every
step from every state that meets it. -/
def Obligations.StepKeepsTheInvariant : Prop :=
  ∀ s t : State, s.Inv → step s = .next t → t.Inv

/-- 10_state R27, R28: the configuration is fixed for the life of the instance. -/
def Obligations.StepKeepsTheConfiguration : Prop :=
  ∀ s t : State, step s = .next t → t.cfg = s.cfg

/-- 20_memory R50: a command is one step. A step that starts between commands ends between commands. -/
def Obligations.StepEndsBetweenCommands : Prop :=
  ∀ s t : State, s.transient = none → step s = .next t → t.transient = none

/-- A command that decodes rows is the run of its records one step at a time (the model's small steps, log 11): from the middle
of such a command, with no host access waiting, that many steps of the machine give what the rest of the command gives at once. -/
def Obligations.RowStepsGiveTheCommand : Prop :=
  ∀ (s : State) (t : Transient), s.host = [] → s.transient = some t → t.row ≤ t.rows →
    Sys2Proof.core.run (t.rows - t.row + 1) s = State.runRows (t.rows - t.row) s

/-! ## Stepping and decoding -/

/-- A host write of `CMD` whose value decodes to a command: the step is `exec` of that command, at the state in which the
access is taken off the queue and `CMD` holds the value (10_state R22). -/
def Obligations.StepRunsTheDecodedCommand : Prop :=
  ∀ (s : State) (v : Word) (rest : List HostEvent) (i : Instr), s.transient = none → s.host = .writeCmd v :: rest →
    decodeCommand v = some i → step s = exec i { s with host := rest, cmd := v }

/-- In a command that decodes rows, with rows left and a legal descriptor at the cursor, the step is `exec` of the descriptor
(43, introduction). -/
def Obligations.StepRunsTheDecodedDescriptor : Prop :=
  ∀ (s : State) (t : Transient) (w : Word) (d : RowDescriptor), s.transient = some t → t.row < t.rows → t.cur < t.lim →
    t.work[t.cur]? = some w → decodeDescriptor s.cfg.bMax w = some d → step s = exec d.toInstr s

/-- 30_encoding R60: the seven command words, and the row descriptor words of R71 to R73 (B_MAX = 31). -/
def Obligations.TableWordsDecode : Prop :=
  decodeCommand 0x0100000000000000 = some .normalize ∧ decodeCommand 0x0200000000000000 = some .decodeHeader ∧
  decodeCommand 0x0300000000000000 = some .encodeHeader ∧ decodeCommand 0x0400000000000000 = some .packRow ∧
  decodeCommand 0x0500000000000000 = some .unpackRow ∧ decodeCommand 0x0600000000000000 = some .encodeField ∧
  decodeCommand 0x0700000000000000 = some .decodeField ∧
  decodeDescriptor 31 0x0100000000000000 = some .allMissing ∧ decodeDescriptor 31 0x0200000000000000 = some .constant ∧
  decodeDescriptor 31 0x031F000000000000 = some (.normal 31)

/-- Decode and encode agree: every command word and every legal descriptor word, with every width the cap admits, decodes to
the instruction it encodes. -/
def Obligations.DecodeOfEncode : Prop :=
  (∀ i : Instr, i.isCommand = true → decodeCommand (encode i) = some i) ∧
  ∀ (bMax : Nat) (d : RowDescriptor), d.toInstr.wellFormed bMax = true → decodeDescriptor bMax (encode d.toInstr) = some d

/-- Every word has one meaning in its format: a word that decodes is the encoding of what it decodes to. -/
def Obligations.EncodeOfDecode : Prop :=
  (∀ (w : Word) (i : Instr), decodeCommand w = some i → i.isCommand = true ∧ encode i = w) ∧
  ∀ (bMax : Nat) (w : Word) (d : RowDescriptor), decodeDescriptor bMax w = some d →
    d.toInstr.wellFormed bMax = true ∧ encode d.toInstr = w

/-- 30_encoding R63: a `CMD` value whose bits 63:56 are no opcode, or whose bits 55:0 are not zero, ends at once with IllegalCommand and
info 0, whatever the ARG registers and memory hold; nothing but `CMD`, `STATUS`, the RES registers and the queue of host accesses
(the model's, log 3) changes. -/
def Obligations.IllegalCommandWordsEndAtOnce : Prop :=
  ∀ (s : State) (v : Word) (rest : List HostEvent), s.transient = none → s.host = .writeCmd v :: rest →
    (v.toNat / 2 ^ 56 < 1 ∨ 7 < v.toNat / 2 ^ 56 ∨ v.toNat % 2 ^ 56 ≠ 0) →
    step s = .next { s with host := rest, cmd := v, status := 0x08, res := ⟨some 0, none, none, none⟩ }

/-- 30_encoding R77: the legal descriptors are exactly the ALL_MISSING word, the CONSTANT word, and the NORMAL words with a width
from 1 to B_MAX and a zero reserved field; the decoding of any other word is CorruptRowHeader. -/
def Obligations.LegalDescriptorsAreExactlyThese : Prop :=
  (∀ (bMax : Nat) (d : Word), (decodeDescriptor bMax d).isSome = true ↔ legalDescriptor bMax d) ∧
  ∀ (s : State) (a n off cols mdi e o k d : Word), s.operandsAre [a, n, off, cols, mdi, e, o, k] → n.toNat % 8 = 0 →
    inDim cols → inAcc e → 8 * cols.toNat ≤ k.toNat → admitsRegion s.cfg a.toNat n.toNat = true →
    (s.cellsAt a.toNat (n.toNat / 8))[off.toNat]? = some d → ¬ legalDescriptor s.cfg.bMax d →
    exec .unpackRow s = .next (s.raise (.corruptRowHeader 0))

/-! ## The host interface -/

/-- 10_state R23 to R25: a host write of an ARG register gives it the value and changes no other register, nor memory; host
writes to `STATUS` and `RES0` to `RES3` are ignored. -/
def Obligations.HostWritesReachOperandsAlone : Prop :=
  ∀ (s : State) (rest : List HostEvent), s.transient = none →
    (∀ i v, s.host = .writeArg i v :: rest →
      ∃ t, step s = .next t ∧ t.args.get i = some v ∧ (∀ j, j ≠ i → t.args.get j = s.args.get j) ∧ t.cmd = s.cmd ∧
        t.status = s.status ∧ t.res = s.res ∧ t.mem = s.mem ∧ t.cfg = s.cfg ∧ t.transient = none ∧ t.host = rest) ∧
    (∀ v, s.host = .writeStatus v :: rest → step s = .next { s with host := rest }) ∧
    ∀ i v, s.host = .writeRes i v :: rest → step s = .next { s with host := rest }

/-- 10_state R25, R26, 70 R228: a host read of `STATUS` and of a written ARG or RES register returns its value and changes nothing else; a
read of a RES register the last command left unwritten is a fault; a read of `CMD` changes no register. (The value a read
of `CMD` returns is free, log 6.) -/
def Obligations.HostReadsReturnTheRegisters : Prop :=
  ∀ (s : State) (rest : List HostEvent), s.transient = none →
    (s.host = .readStatus :: rest → step s = .next { s with host := rest, hostData := s.status }) ∧
    (∀ i v, s.host = .readArg i :: rest → s.args.get i = some v → step s = .next { s with host := rest, hostData := v }) ∧
    (∀ i v, s.host = .readRes i :: rest → s.res.get i = some v → step s = .next { s with host := rest, hostData := v }) ∧
    (∀ i, s.host = .readRes i :: rest → s.res.get i = none → step s = .fault (.unwrittenResult i)) ∧
    (s.host = .readCmd :: rest →
      ∃ w n, step s = .next { s with host := rest, hostData := w, freeCount := n })

/-- The host's own stores and loads of admitted bytes: a store changes that byte alone, a load returns it (20_memory R54). -/
def Obligations.HostMemoryAccessesTakeEffect : Prop :=
  ∀ (s : State) (a : Word) (rest : List HostEvent), s.transient = none → admits s.cfg a.toNat = true →
    (∀ v, s.host = .storeByte a v :: rest →
      ∃ t, step s = .next t ∧ Memory.read t.mem a.toNat = v ∧
        (∀ x, x ≠ a.toNat → Memory.read t.mem x = Memory.read s.mem x) ∧ t = { s with host := rest, mem := t.mem }) ∧
    (s.host = .loadByte a :: rest →
      step s = .next { s with host := rest, hostData := (Memory.read s.mem a.toNat).setWidth 64 })

/-- ARG, STATUS and RES writes, STATUS and CMD reads, illegal command words and resets never stop the machine: from a state between
commands whose queued accesses are these, every run is safe (10_state R22 to R26, 30_encoding R63, 70 R221; the queue is the model's,
log 3). Reads of ARG and RES are not among them: a read of an unwritten register is a fault (R23, R25, 92 D27). -/
def Obligations.RegisterTrafficIsSafe : Prop :=
  ∀ s : State, s.transient = none → (∀ e ∈ s.host, registerOnly e = true) → s.Safe

/-! ## Errors, stops and frames of commands -/

/-- 60 R203: the state after an error is the state before the command, except `STATUS`, `RES0` and `RES1` to `RES3` now being unwritten.
The code is that of 30_encoding R62 for the error's kind, the info that of R202: the length, the number of the check, the row
index, or 0. -/
def Obligations.ErrorEntryChangesOnlyStatusAndResults : Prop :=
  (∀ (s : State) (e : CodecError), 1 ≤ e.code.toNat ∧ e.code.toNat ≤ 8 ∧
    (s.raise e).status = e.code ∧ (s.raise e).res = ⟨some (BitVec.ofNat 64 e.info), none, none, none⟩ ∧
    (s.raise e).transient = none ∧ (s.raise e).mem = s.mem ∧ (s.raise e).args = s.args ∧ (s.raise e).cmd = s.cmd ∧
    (s.raise e).cfg = s.cfg ∧ (s.raise e).host = s.host ∧ (s.raise e).hostData = s.hostData ∧
    (s.raise e).freeCount = s.freeCount) ∧
  (∀ n : Nat,
    ((CodecError.invalidLength n).code = 0x01 ∧ (CodecError.invalidLength n).info = n) ∧
    ((CodecError.malformedHeader n).code = 0x02 ∧ (CodecError.malformedHeader n).info = n) ∧
    ((CodecError.shapeMismatch n).code = 0x03 ∧ (CodecError.shapeMismatch n).info = n) ∧
    ((CodecError.accuracyOverflow n).code = 0x04 ∧ (CodecError.accuracyOverflow n).info = n) ∧
    ((CodecError.truncatedRow n).code = 0x05 ∧ (CodecError.truncatedRow n).info = n) ∧
    ((CodecError.corruptRowHeader n).code = 0x06 ∧ (CodecError.corruptRowHeader n).info = n) ∧
    ((CodecError.allocationFailure n).code = 0x07 ∧ (CodecError.allocationFailure n).info = n)) ∧
  CodecError.illegalCommand.code = 0x08 ∧ CodecError.illegalCommand.info = 0

/-- 20_memory R51, 44 R175, R180, 10_state R20 to R25: whatever command runs, it ends either with `OK` or as an error entry on the state
it began with, which writes no byte of memory; and it leaves the ARG registers, `CMD`, the configuration and the host's side of the model
as they were, the transient state gone, and `RES0` written. -/
def Obligations.CommandsEndWithOkOrAnErrorEntry : Prop :=
  ∀ (i : Instr) (s t : State), i.isCommand = true → exec i s = .next t →
    (t.status = 0x00 ∨ ∃ e : CodecError, t = s.raise e) ∧
    t.args = s.args ∧ t.cmd = s.cmd ∧ t.cfg = s.cfg ∧ t.host = s.host ∧ t.hostData = s.hostData ∧
      t.freeCount = s.freeCount ∧ t.transient = none ∧ t.res.res0.isSome = true

/-- 20_memory R51: a command with an output region that ends with `OK` leaves every byte outside the first `RES0` bytes of the
region at its output address as it was; the address is the ARG register that R61 gives it. -/
def Obligations.OutputsStayInTheirRegion : Prop :=
  ∀ (i : Instr) (k : Fin 8) (s t : State) (a n : Word), outputArg i = some k → exec i s = .next t → t.status = 0x00 →
    s.args.get k = some a → t.res.res0 = some n →
    ∀ x, ¬ (a.toNat ≤ x ∧ x < a.toNat + n.toNat) → Memory.read t.mem x = Memory.read s.mem x

/-- 10_state R23: a command that reads an operand register the host has not written is a fault, before any other check. -/
def Obligations.UnwrittenOperandIsAFault : Prop :=
  ∀ (i : Instr) (s : State) (k : Fin 8), k.val < operandCount i → s.args.get k = none →
    ∃ j : Fin 8, j ≤ k ∧ s.args.get j = none ∧ exec i s = .fault (.unwrittenOperand j)

/-- The only ways a command stops: an operand the host has not written (10_state R23) and an access to a byte that is not
admitted or past the address space (20_memory R43). -/
def Obligations.CommandsStopOnlyForOperandsOrAddresses : Prop :=
  ∀ (i : Instr) (s : State), i.isCommand = true → s.operandsWritten i = true →
    (∃ t, exec i s = .next t) ∨ exec i s = .fault .stuckAccess

/-- 10_state R21: the outcome of a command is a function of the operand registers its rule lists, the configuration and host memory;
nothing else persists from one command to the next. -/
def Obligations.CommandsDependOnOperandsAndMemoryAlone : Prop :=
  ∀ (i : Instr) (s s' : State), i.isCommand = true → s.cfg = s'.cfg → s.mem = s'.mem →
    (∀ k : Fin 8, k.val < operandCount i → s.args.get k = s'.args.get k) →
    (∃ t t', exec i s = .next t ∧ exec i s' = .next t' ∧ t.status = t'.status ∧ t.res = t'.res ∧ t.mem = t'.mem) ∨
    ∃ f, exec i s = .fault f ∧ exec i s' = .fault f

/-- 60 R208, 20_memory R43: a check that stands before a memory access wins over the access being stuck, and an access that stands before
a check is stuck first. Every command is stuck (log 8) on each region its rule reaches that is missing, which is one with any byte not
admitted or with its end past 2^64: on its input region once the checks before the read pass, and on its output region once every
check passes. -/
def Obligations.ChecksAndStuckAccessesInRuleOrder : Prop :=
  (∀ (s : State) (a n : Word), s.operandsAre [a, n] → regionMissing s.cfg a.toNat n.toNat →
    (n.toNat % 8 ≠ 0 → exec .normalize s = .next (s.raise (.invalidLength n.toNat))) ∧
    (n.toNat % 8 = 0 → exec .normalize s = .fault .stuckAccess)) ∧
  (∀ (s : State) (a n : Word), s.operandsAre [a, n] → regionMissing s.cfg a.toNat 16 →
    (n.toNat < 16 → exec .decodeHeader s = .next (s.raise (.malformedHeader 1))) ∧
    (16 ≤ n.toNat → exec .decodeHeader s = .fault .stuckAccess)) ∧
  (∀ (s : State) (e cols rows p o k : Word), s.operandsAre [e, cols, rows, p, o, k] → inDim rows → inDim cols → inAcc e →
    p.toNat ≤ 2 ^ 32 - 1 → 16 ≤ k.toNat → regionMissing s.cfg o.toNat 16 → exec .encodeHeader s = .fault .stuckAccess) ∧
  (∀ (s : State) (a cols mdi e o k : Word), s.operandsAre [a, cols, mdi, e, o, k] → inDim cols → inAcc e →
    (regionMissing s.cfg a.toNat (8 * cols.toNat) → exec .packRow s = .fault .stuckAccess) ∧
    ∀ record, admitsRegion s.cfg a.toNat (8 * cols.toNat) = true →
      Machine.packRow s.cfg.bMax (s.cellsAt a.toNat cols.toNat) mdi e.toInt 0 = .ok record →
      8 * record.words.length ≤ k.toNat → regionMissing s.cfg o.toNat (8 * record.words.length) →
      exec .packRow s = .fault .stuckAccess) ∧
  (∀ (s : State) (a n off cols mdi e o k : Word), s.operandsAre [a, n, off, cols, mdi, e, o, k] → n.toNat % 8 = 0 →
    inDim cols → inAcc e → 8 * cols.toNat ≤ k.toNat →
    (regionMissing s.cfg a.toNat n.toNat → exec .unpackRow s = .fault .stuckAccess) ∧
    ∀ cells kind len, admitsRegion s.cfg a.toNat n.toNat = true →
      RecordDecodes s.cfg.bMax (s.cellsAt a.toNat (n.toNat / 8)) (n.toNat / 8) cols.toNat mdi e.toInt off.toNat cells kind len →
      regionMissing s.cfg o.toNat (8 * cols.toNat) → exec .unpackRow s = .fault .stuckAccess) ∧
  (∀ (s : State) (a n rows cols mdi e o k : Word), s.operandsAre [a, n, rows, cols, mdi, e, o, k] → inDim rows → inDim cols →
    n.toNat = rows.toNat * cols.toNat → inAcc e →
    (regionMissing s.cfg a.toNat (8 * n.toNat) → exec .encodeField s = .fault .stuckAccess) ∧
    ∀ payload, admitsRegion s.cfg a.toNat (8 * n.toNat) = true →
      packRows s.cfg.bMax cols.toNat mdi e.toInt rows.toNat 0 (s.cellsAt a.toNat n.toNat) = .ok payload →
      payload.length ≤ 2 ^ 32 - 1 → 8 * (2 + payload.length) ≤ k.toNat →
      regionMissing s.cfg o.toNat (8 * (2 + payload.length)) → exec .encodeField s = .fault .stuckAccess) ∧
  (∀ (s : State) (a n mdi er ec o k : Word), s.operandsAre [a, n, mdi, er, ec, o, k] → regionMissing s.cfg a.toNat n.toNat →
    (n.toNat % 8 ≠ 0 → exec .decodeField s = .next (s.raise (.invalidLength n.toNat))) ∧
    (n.toNat % 8 = 0 → exec .decodeField s = .fault .stuckAccess)) ∧
  ∀ (s : State) (a n mdi er ec o k : Word) (work cells : List Word) (e : Int) (rows cols p : Nat),
    DecodeFieldSetting s a n mdi er ec o k work e rows cols p →
    RowsDecode s.cfg.bMax work (2 + p) cols mdi e rows 2 cells (2 + p) →
    regionMissing s.cfg o.toNat (8 * rows * cols) → exec .decodeField s = .fault .stuckAccess

/-! ## NORMALIZE -/

/-- 40 R102: NORMALIZE, whole. -/
def Obligations.NormalizeSwapsTheWordsInPlace : Prop :=
  encode .normalize = 0x0100000000000000 ∧
  ∀ (s : State) (a n : Word), s.operandsAre [a, n] →
    (n.toNat % 8 ≠ 0 → exec .normalize s = .next (s.raise (.invalidLength n.toNat))) ∧
    (n.toNat % 8 = 0 → admitsRegion s.cfg a.toNat n.toNat = true →
      ∃ t, exec .normalize s = .next t ∧
        EndsWell s t ⟨some (BitVec.ofNat 64 (n.toNat / 8)), none, none, none⟩ a.toNat n.toNat ∧
        (s.cfg.hostOrder = .big → t.mem = s.mem) ∧
        (s.cfg.hostOrder = .little → ∀ k < n.toNat / 8, ∀ j < 8,
          Memory.read t.mem (a.toNat + 8 * k + j) = Memory.read s.mem (a.toNat + 8 * k + (7 - j))))

/-- 40 R101: `Normalize` maps a big-endian stream to native order and back. -/
def Obligations.NormalizeMapsStreamAndNativeOrder : Prop :=
  (∀ (o : ByteOrder) (b : List Byte), b.length % 8 = 0 → natWords o (normalizeBytes o b) = natWords .big b) ∧
  ∀ (o : ByteOrder) (ws : List Word), normalizeBytes o (natBytesOf o ws) = natBytesOf .big ws

/-- 40 R103: two NORMALIZE commands on the same region restore the original bytes; of canonical memory, the original
memory. -/
def Obligations.NormalizeTwiceRestoresTheBuffer : Prop :=
  ∀ (s : State) (a n : Word), s.operandsAre [a, n] → n.toNat % 8 = 0 → admitsRegion s.cfg a.toNat n.toNat = true →
    s.mem.wf = true →
    ∃ t u, exec .normalize s = .next t ∧ exec .normalize t = .next u ∧ u.mem = s.mem

/-! ## The Header Codec -/

/-- 41 R113 with R111: DECODE_HEADER, whole. On a good header it returns the fields of 30_encoding R66 and changes no memory. -/
def Obligations.DecodeHeaderReadsTheHeader : Prop :=
  encode .decodeHeader = 0x0200000000000000 ∧
  ∀ (s : State) (a n : Word), s.operandsAre [a, n] →
    (n.toNat < 16 → exec .decodeHeader s = .next (s.raise (.malformedHeader 1))) ∧
    ∀ w0 w1, 16 ≤ n.toNat → admitsRegion s.cfg a.toNat 16 = true → s.cellsAt a.toNat 2 = [w0, w1] →
      ((w0.extractLsb' 0 32).toInt ≤ 0 → exec .decodeHeader s = .next (s.raise (.malformedHeader 2))) ∧
      (0 < (w0.extractLsb' 0 32).toInt → (w1.extractLsb' 32 32).toInt ≤ 0 →
        exec .decodeHeader s = .next (s.raise (.malformedHeader 3))) ∧
      (0 < (w0.extractLsb' 0 32).toInt → 0 < (w1.extractLsb' 32 32).toInt →
        ∃ t, exec .decodeHeader s = .next t ∧ t.mem = s.mem ∧
          EndsWell s t ⟨some ((w0.extractLsb' 32 32).signExtend 64), some ((w0.extractLsb' 0 32).setWidth 64),
            some ((w1.extractLsb' 32 32).setWidth 64), some ((w1.extractLsb' 0 32).setWidth 64)⟩ 0 0)

/-- 41 R115: ENCODE_HEADER, whole: its errors in their order, and on operands in range the two words of 30_encoding R65 at the output
address, 16 bytes. -/
def Obligations.EncodeHeaderWritesTheHeader : Prop :=
  encode .encodeHeader = 0x0300000000000000 ∧
  ∀ (s : State) (e cols rows p o k : Word), s.operandsAre [e, cols, rows, p, o, k] →
    (¬ inDim rows → exec .encodeHeader s = .next (s.raise (.shapeMismatch 1))) ∧
    (inDim rows → ¬ inDim cols → exec .encodeHeader s = .next (s.raise (.shapeMismatch 2))) ∧
    (inDim rows → inDim cols → ¬ inAcc e → exec .encodeHeader s = .next (s.raise (.shapeMismatch 4))) ∧
    (inDim rows → inDim cols → inAcc e → 2 ^ 32 - 1 < p.toNat →
      exec .encodeHeader s = .next (s.raise (.allocationFailure 2))) ∧
    (inDim rows → inDim cols → inAcc e → p.toNat ≤ 2 ^ 32 - 1 → k.toNat < 16 →
      exec .encodeHeader s = .next (s.raise (.allocationFailure 1))) ∧
    (inDim rows → inDim cols → inAcc e → p.toNat ≤ 2 ^ 32 - 1 → 16 ≤ k.toNat → admitsRegion s.cfg o.toNat 16 = true →
      ∃ t, exec .encodeHeader s = .next t ∧ EndsWell s t ⟨some 16, none, none, none⟩ o.toNat 16 ∧
        t.cellsAt o.toNat 2 =
          [BitVec.setWidth 32 e ++ BitVec.setWidth 32 cols, BitVec.setWidth 32 rows ++ BitVec.setWidth 32 p])

/-- 41 R116: header round trip, as functions and as the two commands. -/
def Obligations.HeaderRoundTrip : Prop :=
  (∀ (o : ByteOrder) (h : Header), accMin ≤ h.acc → h.acc ≤ accMax → 1 ≤ h.cols → h.cols ≤ dimMax → 1 ≤ h.rows →
    h.rows ≤ dimMax → h.plen ≤ payloadMax → decodeHeader o (natBytesOf o (headerWords h)) 16 = .ok h) ∧
  ∀ (s s' t : State) (e cols rows p o k : Word), s.operandsAre [e, cols, rows, p, o, k] →
    exec .encodeHeader s = .next t → t.status = 0x00 → s'.cfg = s.cfg → s'.mem = t.mem → s'.operandsAre [o, 16] →
    ∃ u, exec .decodeHeader s' = .next u ∧ u.status = 0x00 ∧ u.res = ⟨some e, some cols, some rows, some p⟩

/-! ## The Row Packer -/

/-- 42 R140 on a row that packs: PACK_ROW writes the record's words at the output address and returns its size, kind and
width. -/
def Obligations.PackRowWritesTheRecord : Prop :=
  ∀ (s : State) (a cols mdi e o k : Word) (record : RowRecord), s.operandsAre [a, cols, mdi, e, o, k] →
    inDim cols → inAcc e → admitsRegion s.cfg a.toNat (8 * cols.toNat) = true →
    Machine.packRow s.cfg.bMax (s.cellsAt a.toNat cols.toNat) mdi e.toInt 0 = .ok record →
    8 * record.words.length ≤ k.toNat → admitsRegion s.cfg o.toNat (8 * record.words.length) = true →
    ∃ t, exec .packRow s = .next t ∧
      EndsWell s t ⟨some (BitVec.ofNat 64 (8 * record.words.length)), some (BitVec.ofNat 64 record.kind),
        some (BitVec.ofNat 64 record.width), none⟩ o.toNat (8 * record.words.length) ∧
      t.cellsAt o.toNat record.words.length = record.words

/-- 42 R140: the errors of PACK_ROW, in their order. -/
def Obligations.PackRowChecksInOrder : Prop :=
  ∀ (s : State) (a cols mdi e o k : Word), s.operandsAre [a, cols, mdi, e, o, k] →
    (¬ inDim cols → exec .packRow s = .next (s.raise (.shapeMismatch 2))) ∧
    (inDim cols → ¬ inAcc e → exec .packRow s = .next (s.raise (.shapeMismatch 4))) ∧
    (inDim cols → inAcc e → admitsRegion s.cfg a.toNat (8 * cols.toNat) = true →
      (∀ err, Machine.packRow s.cfg.bMax (s.cellsAt a.toNat cols.toNat) mdi e.toInt 0 = .error err →
        err = .accuracyOverflow 0 ∧ exec .packRow s = .next (s.raise (.accuracyOverflow 0))) ∧
      ∀ record, Machine.packRow s.cfg.bMax (s.cellsAt a.toNat cols.toNat) mdi e.toInt 0 = .ok record →
        k.toNat < 8 * record.words.length → exec .packRow s = .next (s.raise (.allocationFailure 1)))

/-- 42 R132, R133, R136 to R139: which record a row gets. An all-missing row is ALL_MISSING; a row with a non-finite present cell overflows;
of the others, with `base` the row's base, a row with no missing cell and only codes 0 is CONSTANT, and any other is NORMAL of the least width in which
every code lies below the missing code, with the descriptor, the base and the codes packed, the missing code in missing cells; or
overflows where that width is above `B_MAX` (a number from 1 to 63, 10_state R28). -/
def Obligations.RowKindAndWidth : Prop :=
  ∀ (bMax : Nat) (cells : List Word) (mdi : Word) (e : Int) (r : Nat),
    ((∀ c ∈ cells, feq c mdi = true) → Machine.packRow bMax cells mdi e r = .ok ⟨[0x0100000000000000], 1, 0⟩) ∧
    ((∃ c ∈ cells, feq c mdi = false ∧ isFinite c = false) →
      Machine.packRow bMax cells mdi e r = .error (.accuracyOverflow r)) ∧
    ∀ base ∈ rowBase cells mdi, (∀ c ∈ cells, feq c mdi = false → isFinite c = true) →
      ((∀ c ∈ cells, feq c mdi = false ∧ cellCode base c e = 0) →
        Machine.packRow bMax cells mdi e r = .ok ⟨[0x0200000000000000, base], 2, 0⟩) ∧
      ((∃ c ∈ cells, feq c mdi = true ∨ 1 ≤ cellCode base c e) →
        ∃ b, 1 ≤ b ∧ (∀ c ∈ cells, feq c mdi = false → cellCode base c e ≤ 2 ^ b - 2) ∧
          (∀ b' < b, ∃ c ∈ cells, feq c mdi = false ∧ 2 ^ b' - 2 < (cellCode base c e : Int)) ∧
          (bMax < b → Machine.packRow bMax cells mdi e r = .error (.accuracyOverflow r)) ∧
          (b ≤ bMax → ∃ record, Machine.packRow bMax cells mdi e r = .ok record ∧ record.kind = 3 ∧ record.width = b ∧
            (bMax ≤ 63 → record.words = BitVec.ofNat 64 (0x03 * 2 ^ 56 + b * 2 ^ 48) :: base ::
              pack64 (codeBits b (cells.map fun c => if feq c mdi then 2 ^ b - 1 else cellCode base c e)))))

/-- 42 R143: an all-missing row gives ALL_MISSING; a row with a missing and a present cell, where it packs, gives NORMAL; a row of
finite present cells that are pairwise equal gives CONSTANT with its first cell as the base; a row with a non-finite present cell
gives no record. -/
def Obligations.KindFidelity : Prop :=
  ∀ (bMax : Nat) (cells : List Word) (mdi : Word) (e : Int) (r : Nat),
    ((∀ c ∈ cells, feq c mdi = true) → ∃ record, Machine.packRow bMax cells mdi e r = .ok record ∧ record.kind = 1) ∧
    ((∃ c ∈ cells, feq c mdi = true) → (∃ c ∈ cells, feq c mdi = false) →
      ∀ record, Machine.packRow bMax cells mdi e r = .ok record → record.kind = 3) ∧
    (∀ c rest, cells = c :: rest → (∀ x ∈ cells, feq x mdi = false ∧ isFinite x = true) →
      (∀ x ∈ cells, ∀ y ∈ cells, feq x y = true) →
      Machine.packRow bMax cells mdi e r = .ok ⟨[0x0200000000000000, c], 2, 0⟩) ∧
    ((∃ c ∈ cells, feq c mdi = false ∧ isFinite c = false) → ∀ record, Machine.packRow bMax cells mdi e r ≠ .ok record)

/-- 42 R134: the base is the first present cell of least value, stored bit for bit in the record. -/
def Obligations.BaseIsTheFirstLeastPresentCell : Prop :=
  ∀ (cells : List Word) (mdi base : Word), (∀ c ∈ cells, feq c mdi = false → isFinite c = true) →
    rowBase cells mdi = some base →
    ∃ j, ∃ h : j < cells.length, cells[j] = base ∧ feq base mdi = false ∧
      (∀ c ∈ cells, feq c mdi = false → real base ≤ real c) ∧
      (∀ i, ∀ hi : i < j, feq (cells[i]'(by omega)) mdi = false → real base < real (cells[i]'(by omega))) ∧
      ∀ bMax e r record, Machine.packRow bMax cells mdi e r = .ok record → record.words[1]? = some base

/-- 42 R135: quantization is `floor((Real(c) - m) / 2^e + 1/2)` in exact arithmetic, and `Q` is the largest code of a present
cell. -/
def Obligations.QuantizationIsExact : Prop :=
  (∀ (base c : Word) (e : Int), isFinite base = true → isFinite c = true → real base ≤ real c →
    (cellCode base c e : ℤ) = ⌊(real c - real base) / (2 : ℚ) ^ e + 1 / 2⌋) ∧
  ∀ (base : Word) (e : Int) (present : List Word), present ≠ [] →
    (∀ c ∈ present, cellCode base c e ≤ maxCode base e present) ∧ ∃ c ∈ present, cellCode base c e = maxCode base e present

/-- 42 R141: the quantization error, and where it is reached; and the values of a CONSTANT row. -/
def Obligations.QuantizationErrorBound : Prop :=
  ∀ (bMax : Nat) (cells : List Word) (mdi : Word) (e : Int) (r : Nat) (record : RowRecord) (base : Word),
    Machine.packRow bMax cells mdi e r = .ok record → rowBase cells mdi = some base →
    ∀ c ∈ presentCells cells mdi,
      |real c - (real base + (cellCode base c e : ℚ) * (2 : ℚ) ^ e)| ≤ (2 : ℚ) ^ (e - 1) ∧
      (|real c - (real base + (cellCode base c e : ℚ) * (2 : ℚ) ^ e)| = (2 : ℚ) ^ (e - 1) →
        ∃ k : ℤ, (real c - real base) / (2 : ℚ) ^ e = (2 * k + 1) / 2) ∧
      (record.kind = 2 → cellCode base c e = 0 ∧ real base ≤ real c ∧ real c < real base + (2 : ℚ) ^ (e - 1))

/-- 42 R142: monotonicity in `e`. -/
def Obligations.CoarserAccuracyNeedsNoMoreBits : Prop :=
  ∀ (bMax : Nat) (cells : List Word) (mdi : Word) (r : Nat), 1 ≤ bMax →
    ((∀ c ∈ cells, feq c mdi = false → isFinite c = true) →
      (∀ base ∈ rowBase cells mdi, ∀ c ∈ presentCells cells mdi, ∀ e e' : Int, e ≤ e' →
        cellCode base c e' ≤ cellCode base c e) ∧
      (∀ e e' : Int, ∀ rec0, e ≤ e' → Machine.packRow bMax cells mdi e r = .ok rec0 →
        ∃ rec1, Machine.packRow bMax cells mdi e' r = .ok rec1 ∧ rec1.width ≤ rec0.width) ∧
      ∃ e0 : Int, accMin ≤ e0 ∧ e0 ≤ accMax ∧ ∀ e : Int, e0 ≤ e →
        (∀ base ∈ rowBase cells mdi, ∀ c ∈ presentCells cells mdi, cellCode base c e = 0) ∧
        ∃ rec1, Machine.packRow bMax cells mdi e r = .ok rec1 ∧ rec1.width ≤ 1) ∧
    ((∃ c ∈ cells, feq c mdi = false ∧ isFinite c = false) →
      ∀ e : Int, Machine.packRow bMax cells mdi e r = .error (.accuracyOverflow r))

/-- 30_encoding R73, R74: the descriptor of a NORMAL record is its first word and the base its second; code `i` occupies bit-string positions `i*b` to `i*b+b-1`, most significant bit first, and the pad bits are
zero; bit string position `p` is bit `63 - p mod 64` of code word `p / 64`. -/
def Obligations.CodeWordsHoldTheCodes : Prop :=
  ∀ (base : Word) (b : Nat) (codes : List Nat), (∀ k ∈ codes, k < 2 ^ b) →
    (normalRecord base b codes).words.length = 2 + (codes.length * b + 63) / 64 ∧
    (b ≤ 63 → (normalRecord base b codes).words[0]? = some (BitVec.ofNat 64 (0x03 * 2 ^ 56 + b * 2 ^ 48))) ∧
    (normalRecord base b codes).words[1]? = some base ∧
    (∀ i, ∀ hi : i < codes.length, ∀ j < b, ∀ w,
      (normalRecord base b codes).words[2 + (i * b + j) / 64]? = some w →
        w.getLsbD (63 - (i * b + j) % 64) = codes[i].testBit (b - 1 - j)) ∧
    ∀ p w, codes.length * b ≤ p → (normalRecord base b codes).words[2 + p / 64]? = some w →
      w.getLsbD (63 - p % 64) = false

/-! ## The row descriptors -/

/-- 43 R153: ALL_MISSING fills the row with the mdi pattern and occupies one word. -/
def Obligations.AllMissingFillsTheRow : Prop :=
  ∀ (s : State) (t : Transient), s.transient = some t →
    exec .allMissing s = .next { s with transient := some { t with
      stage := t.stage ++ List.replicate t.cols t.mdi, cur := t.cur + 1, row := t.row + 1, kind := 1, consumed := 1 } }

/-- 43 R154: CONSTANT fills the row with the base word, bit for bit, and occupies two words; TruncatedRow where the base
word is beyond the limit. -/
def Obligations.ConstantFillsTheRow : Prop :=
  ∀ (s : State) (t : Transient), s.transient = some t →
    (t.lim ≤ t.cur + 1 → exec .constant s = .next (s.raise (.truncatedRow t.row))) ∧
    ∀ base, t.cur + 1 < t.lim → t.work[t.cur + 1]? = some base →
      exec .constant s = .next { s with transient := some { t with
        stage := t.stage ++ List.replicate t.cols base, cur := t.cur + 2, row := t.row + 1, kind := 2, consumed := 2 } }

/-- 43 R155, R157: NORMAL reads `cols` codes of `b` bits; the all-ones code gives the mdi pattern, any other its
reconstruction; pad bits are not read; TruncatedRow where the record runs past the limit. -/
def Obligations.NormalDecodesTheCodes : Prop :=
  ∀ (s : State) (t : Transient) (b : BitVec 8), s.transient = some t → (Instr.normal b).wellFormed s.cfg.bMax = true →
    (t.lim < t.cur + 2 + (t.cols * b.toNat + 63) / 64 → exec (.normal b) s = .next (s.raise (.truncatedRow t.row))) ∧
    ∀ (base : Word) (codes : List Nat) (pad : List Bool), t.cur + 2 + (t.cols * b.toNat + 63) / 64 ≤ t.lim →
      t.work[t.cur + 1]? = some base → codes.length = t.cols → (∀ k ∈ codes, k < 2 ^ b.toNat) →
      unpack64 ((t.work.drop (t.cur + 2)).take ((t.cols * b.toNat + 63) / 64)) = codeBits b.toNat codes ++ pad →
      exec (.normal b) s = .next { s with transient := some { t with
        stage := t.stage ++ codes.map (fun k => if k = 2 ^ b.toNat - 1 then t.mdi else recon base k t.acc)
        cur := t.cur + (2 + (t.cols * b.toNat + 63) / 64), row := t.row + 1, kind := 3
        consumed := 2 + (t.cols * b.toNat + 63) / 64 } }

/-- 43 R151, R152, 60 R207: with rows left, a cursor at or past the limit is TruncatedRow, and an illegal descriptor below it is
CorruptRowHeader, even where the record would be truncated too. -/
def Obligations.DescriptorIsCheckedFirst : Prop :=
  ∀ (s : State) (t : Transient), s.transient = some t → t.row < t.rows →
    (t.lim ≤ t.cur → step s = .next (s.raise (.truncatedRow t.row))) ∧
    ∀ d, t.cur < t.lim → t.work[t.cur]? = some d → decodeDescriptor s.cfg.bMax d = none →
      step s = .next (s.raise (.corruptRowHeader t.row))

/-- 43 R156, 00_scope R12: reconstruction is the base for code 0 and for a non-finite base, and else the exact sum rounded once to the
nearest binary64, ties to even; an exact zero gives +0 and a sum of 2^1024 - 2^970 or more gives +infinity. -/
def Obligations.ReconstructionRoundsTheExactSumOnce : Prop :=
  ∀ (base : Word) (k : Nat) (e : Int),
    (k = 0 → recon base k e = base) ∧ (isFinite base = false → recon base k e = base) ∧
    (1 ≤ k → isFinite base = true →
      (real base + k * (2 : ℚ) ^ e = 0 → recon base k e = 0) ∧
      (overflowBound ≤ real base + k * (2 : ℚ) ^ e → recon base k e = 0x7FF0000000000000) ∧
      (real base + k * (2 : ℚ) ^ e < overflowBound → nearestEven (real base + k * (2 : ℚ) ^ e) (recon base k e)))

/-- 00_scope R12: IEEE-754 equality. -/
def Obligations.FloatEqualityIsIeee : Prop :=
  ∀ x y : Word,
    ((isNaN x = true ∨ isNaN y = true) → feq x y = false) ∧
    (isFinite x = true → isFinite y = true → (feq x y = true ↔ real x = real y)) ∧
    (isNaN x = false → isNaN y = false → (isFinite x = false ∨ isFinite y = false) → (feq x y = true ↔ x = y))

/-! ## UNPACK_ROW and the row round trip -/

/-- 43 R160 on a record that decodes: UNPACK_ROW writes its cells and returns their size, the kind and the words
consumed. -/
def Obligations.UnpackRowWritesTheCells : Prop :=
  ∀ (s : State) (a n off cols mdi e o k : Word) (cells : List Word) (kind len : Nat),
    s.operandsAre [a, n, off, cols, mdi, e, o, k] → n.toNat % 8 = 0 → inDim cols → inAcc e → 8 * cols.toNat ≤ k.toNat →
    admitsRegion s.cfg a.toNat n.toNat = true → admitsRegion s.cfg o.toNat (8 * cols.toNat) = true →
    RecordDecodes s.cfg.bMax (s.cellsAt a.toNat (n.toNat / 8)) (n.toNat / 8) cols.toNat mdi e.toInt off.toNat cells kind len →
    ∃ t, exec .unpackRow s = .next t ∧
      EndsWell s t ⟨some (BitVec.ofNat 64 (8 * cols.toNat)), some (BitVec.ofNat 64 kind), some (BitVec.ofNat 64 len), none⟩
        o.toNat (8 * cols.toNat) ∧
      t.cellsAt o.toNat cols.toNat = cells

/-- 43 R160: the errors of UNPACK_ROW that stand before its memory access, in their order. -/
def Obligations.UnpackRowChecksInOrder : Prop :=
  ∀ (s : State) (a n off cols mdi e o k : Word), s.operandsAre [a, n, off, cols, mdi, e, o, k] →
    (n.toNat % 8 ≠ 0 → exec .unpackRow s = .next (s.raise (.invalidLength n.toNat))) ∧
    (n.toNat % 8 = 0 → ¬ inDim cols → exec .unpackRow s = .next (s.raise (.shapeMismatch 2))) ∧
    (n.toNat % 8 = 0 → inDim cols → ¬ inAcc e → exec .unpackRow s = .next (s.raise (.shapeMismatch 4))) ∧
    (n.toNat % 8 = 0 → inDim cols → inAcc e → k.toNat < 8 * cols.toNat →
      exec .unpackRow s = .next (s.raise (.allocationFailure 1)))

/-- 43 R151, R152, R154, R155, R160: the errors of UNPACK_ROW's record, with info 0. -/
def Obligations.UnpackRowReportsABadRecord : Prop :=
  ∀ (s : State) (a n off cols mdi e o k : Word), s.operandsAre [a, n, off, cols, mdi, e, o, k] →
    n.toNat % 8 = 0 → inDim cols → inAcc e → 8 * cols.toNat ≤ k.toNat → admitsRegion s.cfg a.toNat n.toNat = true →
    (n.toNat / 8 ≤ off.toNat → exec .unpackRow s = .next (s.raise (.truncatedRow 0))) ∧
    ∀ d, (s.cellsAt a.toNat (n.toNat / 8))[off.toNat]? = some d →
      (decodeDescriptor s.cfg.bMax d = none → exec .unpackRow s = .next (s.raise (.corruptRowHeader 0))) ∧
      (decodeDescriptor s.cfg.bMax d = some .constant → n.toNat / 8 ≤ off.toNat + 1 →
        exec .unpackRow s = .next (s.raise (.truncatedRow 0))) ∧
      ∀ b, decodeDescriptor s.cfg.bMax d = some (.normal b) →
        n.toNat / 8 < off.toNat + 2 + wordsFor (cols.toNat * b.toNat) →
        exec .unpackRow s = .next (s.raise (.truncatedRow 0))

/-- 43 R161: pack then unpack. A row that packs, its record in memory in native order: UNPACK_ROW succeeds, returns the same kind, consumes
exactly the record's words, and gives mdi in every missing cell and in every present cell the base or the rounded sum, within half a
quantum plus that one rounding. -/
def Obligations.PackThenUnpackRoundTrip : Prop :=
  ∀ (s : State) (a n cols mdi e o k : Word) (cells : List Word) (r : Nat) (record : RowRecord),
    s.operandsAre [a, n, 0, cols, mdi, e, o, k] → inDim cols → inAcc e → cells.length = cols.toNat →
    Machine.packRow s.cfg.bMax cells mdi e.toInt r = .ok record → n.toNat = 8 * record.words.length →
    s.cellsAt a.toNat record.words.length = record.words → 8 * cols.toNat ≤ k.toNat →
    admitsRegion s.cfg a.toNat n.toNat = true → admitsRegion s.cfg o.toNat (8 * cols.toNat) = true →
    ∃ t, exec .unpackRow s = .next t ∧ t.status = 0x00 ∧
      t.res = ⟨some (BitVec.ofNat 64 (8 * cols.toNat)), some (BitVec.ofNat 64 record.kind),
        some (BitVec.ofNat 64 record.words.length), none⟩ ∧
      t.cellsAt o.toNat cols.toNat = decodedRow cells mdi e.toInt ∧ withinHalfQuantum cells mdi e.toInt

/-- 43 R162 with the condition of 44 R182 and 93 I6 that no decoded present value equals mdi: a decoded row packs to the same
record. -/
def Obligations.ReEncodeGivesTheSameRecord : Prop :=
  ∀ (bMax : Nat) (cells : List Word) (mdi : Word) (e : Int) (r : Nat) (record : RowRecord),
    Machine.packRow bMax cells mdi e r = .ok record → exactRow cells mdi e →
    Machine.packRow bMax (decodedRow cells mdi e) mdi e r = .ok record

/-! ## The Field Codec -/

/-- 44 R172 on a field that packs: ENCODE_FIELD writes the header and the payload as one big-endian stream on every host, and
returns its size and the payload length. -/
def Obligations.EncodeFieldWritesTheStream : Prop :=
  ∀ (s : State) (a n rows cols mdi e o k : Word) (payload : List Word),
    s.operandsAre [a, n, rows, cols, mdi, e, o, k] → inDim rows → inDim cols → n.toNat = rows.toNat * cols.toNat → inAcc e →
    admitsRegion s.cfg a.toNat (8 * n.toNat) = true →
    packRows s.cfg.bMax cols.toNat mdi e.toInt rows.toNat 0 (s.cellsAt a.toNat n.toNat) = .ok payload →
    payload.length ≤ 2 ^ 32 - 1 → 8 * (2 + payload.length) ≤ k.toNat →
    admitsRegion s.cfg o.toNat (8 * (2 + payload.length)) = true →
    ∃ t, exec .encodeField s = .next t ∧
      EndsWell s t ⟨some (BitVec.ofNat 64 (8 * (2 + payload.length))), some (BitVec.ofNat 64 payload.length), none, none⟩
        o.toNat (8 * (2 + payload.length)) ∧
      t.streamAt o.toNat (2 + payload.length) =
        (BitVec.setWidth 32 e ++ BitVec.setWidth 32 cols) ::
          (BitVec.setWidth 32 rows ++ BitVec.ofNat 32 payload.length) :: payload

/-- 44 R171, R172: the errors of ENCODE_FIELD, in their order. -/
def Obligations.EncodeFieldChecksInOrder : Prop :=
  ∀ (s : State) (a n rows cols mdi e o k : Word), s.operandsAre [a, n, rows, cols, mdi, e, o, k] →
    (¬ inDim rows → exec .encodeField s = .next (s.raise (.shapeMismatch 1))) ∧
    (inDim rows → ¬ inDim cols → exec .encodeField s = .next (s.raise (.shapeMismatch 2))) ∧
    (inDim rows → inDim cols → n.toNat ≠ rows.toNat * cols.toNat → exec .encodeField s = .next (s.raise (.shapeMismatch 3))) ∧
    (inDim rows → inDim cols → n.toNat = rows.toNat * cols.toNat → ¬ inAcc e →
      exec .encodeField s = .next (s.raise (.shapeMismatch 4))) ∧
    (inDim rows → inDim cols → n.toNat = rows.toNat * cols.toNat → inAcc e →
      admitsRegion s.cfg a.toNat (8 * n.toNat) = true →
      (∀ err, packRows s.cfg.bMax cols.toNat mdi e.toInt rows.toNat 0 (s.cellsAt a.toNat n.toNat) = .error err →
        exec .encodeField s = .next (s.raise err)) ∧
      ∀ payload, packRows s.cfg.bMax cols.toNat mdi e.toInt rows.toNat 0 (s.cellsAt a.toNat n.toNat) = .ok payload →
        (2 ^ 32 - 1 < payload.length → exec .encodeField s = .next (s.raise (.allocationFailure 2))) ∧
        (payload.length ≤ 2 ^ 32 - 1 → k.toNat < 8 * (2 + payload.length) →
          exec .encodeField s = .next (s.raise (.allocationFailure 1))))

/-- 44 R171, R173: rows are packed in row order, the payload is the concatenation of the rows' records, so its length is the sum of their
lengths; where a row fails, the error is that of the first row that does. -/
def Obligations.PayloadIsTheRecordsInRowOrder : Prop :=
  ∀ (bMax rows cols : Nat) (mdi : Word) (e : Int) (cells : List Word),
    (∀ payload, packRows bMax cols mdi e rows 0 cells = .ok payload ↔
      ∃ records : List RowRecord, records.length = rows ∧
        (∀ r, ∀ h : r < records.length, Machine.packRow bMax (rowCells cols r cells) mdi e r = .ok records[r]) ∧
        payload = (records.map RowRecord.words).flatten ∧ payload.length = (records.map fun x => x.words.length).sum) ∧
    (∀ err, packRows bMax cols mdi e rows 0 cells = .error err ↔
      ∃ r < rows, Machine.packRow bMax (rowCells cols r cells) mdi e r = .error err ∧
        err = .accuracyOverflow r ∧
        ∀ r' < r, ∃ record, Machine.packRow bMax (rowCells cols r' cells) mdi e r' = .ok record)

/-- 44 R178 on a good stream: DECODE_FIELD writes the cells of its rows in native order and returns the shape and the
accuracy; the expected shape is none or the header's (R177). -/
def Obligations.DecodeFieldWritesTheField : Prop :=
  ∀ (s : State) (a n mdi er ec o k : Word) (work cells : List Word) (e : Int) (rows cols p : Nat),
    DecodeFieldSetting s a n mdi er ec o k work e rows cols p →
    RowsDecode s.cfg.bMax work (2 + p) cols mdi e rows 2 cells (2 + p) →
    admitsRegion s.cfg o.toNat (8 * rows * cols) = true →
    ∃ t, exec .decodeField s = .next t ∧
      EndsWell s t ⟨some (BitVec.ofNat 64 (8 * rows * cols)), some (BitVec.ofNat 64 rows), some (BitVec.ofNat 64 cols),
        some (BitVec.ofInt 64 e)⟩ o.toNat (8 * rows * cols) ∧
      t.cellsAt o.toNat (rows * cols) = cells

/-- 44 R178 steps 6 and 7: the error of the first row that fails, with its index, and MalformedHeader 5 where all rows decode but do not
end at the declared payload end. -/
def Obligations.DecodeFieldReportsTheFirstBadRow : Prop :=
  ∀ (s : State) (a n mdi er ec o k : Word) (work cells : List Word) (e : Int) (rows cols p r stop : Nat),
    DecodeFieldSetting s a n mdi er ec o k work e rows cols p →
    RowsDecode s.cfg.bMax work (2 + p) cols mdi e r 2 cells stop →
    (r = rows → stop ≠ 2 + p → exec .decodeField s = .next (s.raise (.malformedHeader 5))) ∧
    (r < rows → 2 + p ≤ stop → exec .decodeField s = .next (s.raise (.truncatedRow r))) ∧
    ∀ d, r < rows → stop < 2 + p → work[stop]? = some d →
      (decodeDescriptor s.cfg.bMax d = none → exec .decodeField s = .next (s.raise (.corruptRowHeader r))) ∧
      (decodeDescriptor s.cfg.bMax d = some .constant → 2 + p ≤ stop + 1 →
        exec .decodeField s = .next (s.raise (.truncatedRow r))) ∧
      ∀ b, decodeDescriptor s.cfg.bMax d = some (.normal b) → 2 + p < stop + 2 + wordsFor (cols * b.toNat) →
        exec .decodeField s = .next (s.raise (.truncatedRow r))

/-- 44 R178: the errors of DECODE_FIELD that stand before its rows, in their order. -/
def Obligations.DecodeFieldChecksInOrder : Prop :=
  ∀ (s : State) (a n mdi er ec o k : Word), s.operandsAre [a, n, mdi, er, ec, o, k] →
    (n.toNat % 8 ≠ 0 → exec .decodeField s = .next (s.raise (.invalidLength n.toNat))) ∧
    (n.toNat % 8 = 0 → admitsRegion s.cfg a.toNat n.toNat = true →
      (n.toNat < 16 → exec .decodeField s = .next (s.raise (.malformedHeader 1))) ∧
      ∀ w0 w1 payload, s.streamAt a.toNat (n.toNat / 8) = w0 :: w1 :: payload →
        let cols := (w0.extractLsb' 0 32).toInt
        let rows := (w1.extractLsb' 32 32).toInt
        let p := (w1.extractLsb' 0 32).toNat
        (cols ≤ 0 → exec .decodeField s = .next (s.raise (.malformedHeader 2))) ∧
        (0 < cols → rows ≤ 0 → exec .decodeField s = .next (s.raise (.malformedHeader 3))) ∧
        (0 < cols → 0 < rows → n.toNat / 8 < 2 + p → exec .decodeField s = .next (s.raise (.malformedHeader 4))) ∧
        (0 < cols → 0 < rows → 2 + p ≤ n.toNat / 8 → ¬ (er = 0 ∧ ec = 0) → ¬ (er.toInt = rows ∧ ec.toInt = cols) →
          exec .decodeField s = .next (s.raise (.shapeMismatch 5))) ∧
        (0 < cols → 0 < rows → 2 + p ≤ n.toNat / 8 → ((er = 0 ∧ ec = 0) ∨ (er.toInt = rows ∧ ec.toInt = cols)) →
          (k.toNat : Int) < 8 * rows * cols → exec .decodeField s = .next (s.raise (.allocationFailure 1))))

/-- 44 R181: field round trip. ENCODE_FIELD succeeds and writes a stream; then DECODE_FIELD of that stream with the same mdi, and no expected
shape or the field's own, succeeds, returns rows, cols and e, and writes the cells that R161 gives, row by row, within half a
quantum plus one rounding. -/
def Obligations.FieldRoundTrip : Prop :=
  ∀ (s t s' : State) (a n rows cols mdi e o k len er ec o' k' : Word),
    s.operandsAre [a, n, rows, cols, mdi, e, o, k] → exec .encodeField s = .next t → t.status = 0x00 →
    t.res.res0 = some len → s'.cfg = s.cfg → s'.mem = t.mem → s'.operandsAre [o, len, mdi, er, ec, o', k'] →
    ((er = 0 ∧ ec = 0) ∨ (er = rows ∧ ec = cols)) → 8 * n.toNat ≤ k'.toNat → admitsRegion s.cfg o'.toNat (8 * n.toNat) = true →
    ∃ u, exec .decodeField s' = .next u ∧ u.status = 0x00 ∧
      u.res = ⟨some (BitVec.ofNat 64 (8 * n.toNat)), some rows, some cols, some e⟩ ∧
      u.cellsAt o'.toNat n.toNat = decodedRows cols.toNat mdi e.toInt rows.toNat (s.cellsAt a.toNat n.toNat) ∧
      ∀ r < rows.toNat, withinHalfQuantum (rowCells cols.toNat r (s.cellsAt a.toNat n.toNat)) mdi e.toInt

/-- 44 R182: field re-encode. Where every row is exact (R162), ENCODE_FIELD of the cells that DECODE_FIELD gives for a stream that
ENCODE_FIELD wrote, with the same shape, mdi and accuracy, writes the same stream. -/
def Obligations.FieldReEncode : Prop :=
  ∀ (s t s' u s'' : State) (a n rows cols mdi e o k len er ec o' k' o'' k'' : Word),
    s.operandsAre [a, n, rows, cols, mdi, e, o, k] → exec .encodeField s = .next t → t.status = 0x00 →
    t.res.res0 = some len →
    (∀ r < rows.toNat, exactRow (rowCells cols.toNat r (s.cellsAt a.toNat n.toNat)) mdi e.toInt) →
    s'.cfg = s.cfg → s'.mem = t.mem → s'.operandsAre [o, len, mdi, er, ec, o', k'] → exec .decodeField s' = .next u →
    u.status = 0x00 → s''.cfg = s.cfg → s''.mem = u.mem → s''.operandsAre [o', n, rows, cols, mdi, e, o'', k''] →
    len.toNat ≤ k''.toNat → admitsRegion s.cfg o''.toNat len.toNat = true →
    ∃ v, exec .encodeField s'' = .next v ∧ v.status = 0x00 ∧ v.res = t.res ∧
      Memory.readBytes v.mem o''.toNat len.toNat = Memory.readBytes t.mem o.toNat len.toNat

/-- 40 R105, 44 R174: the stream ENCODE_FIELD writes for given cells is the same on a BIG and a LITTLE host, and so are the cells
DECODE_FIELD gives for given stream bytes. -/
def Obligations.FieldCommandsDoNotDependOnHostOrder : Prop :=
  (∀ (s s' t : State) (a n rows cols mdi e o k : Word), s.operandsAre [a, n, rows, cols, mdi, e, o, k] → s'.args = s.args →
    s'.cfg.capPred = s.cfg.capPred → s'.cfg.admitted = s.cfg.admitted → s'.cellsAt a.toNat n.toNat = s.cellsAt a.toNat n.toNat →
    exec .encodeField s = .next t →
    ∃ t', exec .encodeField s' = .next t' ∧ t'.status = t.status ∧ t'.res = t.res ∧
      (t.status = 0x00 → ∀ len ∈ t.res.res0,
        Memory.readBytes t'.mem o.toNat len.toNat = Memory.readBytes t.mem o.toNat len.toNat)) ∧
  ∀ (s s' t : State) (a n mdi er ec o k : Word), s.operandsAre [a, n, mdi, er, ec, o, k] → s'.args = s.args →
    s'.cfg.capPred = s.cfg.capPred → s'.cfg.admitted = s.cfg.admitted →
    Memory.readBytes s'.mem a.toNat n.toNat = Memory.readBytes s.mem a.toNat n.toNat → exec .decodeField s = .next t →
    ∃ t', exec .decodeField s' = .next t' ∧ t'.status = t.status ∧ t'.res = t.res ∧
      (t.status = 0x00 → ∀ len ∈ t.res.res0,
        t'.cellsAt o.toNat (len.toNat / 8) = t.cellsAt o.toNat (len.toNat / 8))

/-! ## The assembler -/

/-- 30_encoding R79, 70 R223: the host writes a command's syntax stands for, made in order on a machine between commands, run the command on its
operands: after the ARG writes the step is `exec` of the command, with the operand values in the ARG registers. -/
def Obligations.CommandSyntaxRunsTheCommand : Prop :=
  ∀ (c : AsmCommand) (s : State) (rest : List HostEvent), s.transient = none → s.host = c.hostWrites ++ rest →
    ∃ t : State, t.operandsAre (c.operands.map fun p => p.2.word) ∧ t.cfg = s.cfg ∧ t.mem = s.mem ∧ t.host = rest ∧
      Sys2Proof.core.run (c.operands.length + 1) s = exec c.instr t
end

