-- ==== Sys2Proof/Laws/Encoding.lean ====
section
/-! SUPPORT. The words of the two formats as numbers, and their fields. -/

namespace Sys2Proof

/-- A bit field of a word as a number. -/
theorem field_toNat (w : Word) (p n : Nat) : (w.extractLsb' p n).toNat = w.toNat / 2 ^ p % 2 ^ n := by
  simp [BitVec.extractLsb'_toNat, Nat.shiftRight_eq_div_pow]

theorem commandWord_toNat (op : BitVec 8) : (commandWord op).toNat = op.toNat * 2 ^ 56 := by
  show BitVec.toNat (w := 8 + 56) (op ++ 0#56) = _
  rw [BitVec.toNat_append, ← Nat.shiftLeft_add_eq_or_of_lt (by simp)]
  simp only [Nat.shiftLeft_eq, BitVec.toNat_ofNat]
  omega

theorem descriptorWord_toNat (k b : BitVec 8) : (descriptorWord k b).toNat = k.toNat * 2 ^ 56 + b.toNat * 2 ^ 48 := by
  show BitVec.toNat (w := 8 + 8 + 48) (k ++ b ++ 0#48) = _
  rw [BitVec.toNat_append, BitVec.toNat_append, ← Nat.shiftLeft_add_eq_or_of_lt (by simp), ← Nat.shiftLeft_add_eq_or_of_lt b.isLt]
  simp only [Nat.shiftLeft_eq, BitVec.toNat_ofNat]
  omega

/-- The fields of a ROWDESC64 word (30_encoding R70). -/
theorem descriptorWord_fields (k b : BitVec 8) :
    (descriptorWord k b).extractLsb' 0 48 = 0#48 ∧ (descriptorWord k b).extractLsb' 48 8 = b ∧
      (descriptorWord k b).extractLsb' 56 8 = k := by
  have hb := b.isLt
  have hk := k.isLt
  refine ⟨?_, ?_, ?_⟩ <;> apply BitVec.eq_of_toNat_eq <;> rw [field_toNat, descriptorWord_toNat] <;> simp <;> omega

end Sys2Proof
end

