-- ==== Sys2Proof/Laws/Memory.lean ====
section
/-! SUPPORT. The laws of host memory: a read after a write, and the canonical form, which every operation keeps. -/

namespace Sys2Proof.Machine

theorem Memory.read_erase_self (m : Memory) (a : Nat) : Memory.read (Memory.erase m a) a = 0 := by
  induction m with
  | nil => rfl
  | cons c t ih =>
    obtain ⟨k, v⟩ := c
    by_cases h : k = a
    · simpa [Memory.erase, h] using ih
    · simpa [Memory.erase, h, Memory.read] using ih

theorem Memory.read_erase_other (m : Memory) (a b : Nat) (h : b ≠ a) :
    Memory.read (Memory.erase m a) b = Memory.read m b := by
  induction m with
  | nil => rfl
  | cons c t ih =>
    obtain ⟨k, v⟩ := c
    by_cases hk : k = a
    · have hb : a ≠ b := fun e => h e.symm
      simpa [Memory.erase, hk, Memory.read, hb] using ih
    · by_cases hb : k = b
      · simp [Memory.erase, Memory.read, hb, h]
      · simpa [Memory.erase, hk, Memory.read, hb] using ih

theorem Memory.read_insert_self (m : Memory) (a : Nat) (v : Byte) (h : ∀ c ∈ m, c.1 ≠ a) :
    Memory.read (Memory.insert a v m) a = v := by
  induction m with
  | nil => simp [Memory.insert, Memory.read]
  | cons c t ih =>
    obtain ⟨k, w⟩ := c
    have hk : k ≠ a := h _ List.mem_cons_self
    by_cases hlt : a < k
    · simp [Memory.insert, hlt, Memory.read]
    · simpa [Memory.insert, hlt, Memory.read, hk] using ih fun c hc => h c (List.mem_cons_of_mem _ hc)

theorem Memory.read_insert_other (m : Memory) (a b : Nat) (v : Byte) (h : b ≠ a) :
    Memory.read (Memory.insert a v m) b = Memory.read m b := by
  have hab : a ≠ b := fun e => h e.symm
  induction m with
  | nil => simp [Memory.insert, Memory.read, hab]
  | cons c t ih =>
    obtain ⟨k, w⟩ := c
    by_cases hlt : a < k
    · simp [Memory.insert, hlt, Memory.read, hab]
    · by_cases hk : k = b
      · subst hk; simp [Memory.insert, hlt, Memory.read]
      · simpa [Memory.insert, hlt, Memory.read, hk] using ih

/-- A byte reads as what was last written there. -/
@[simp] theorem Memory.read_write_self (m : Memory) (a : Nat) (v : Byte) : Memory.read (Memory.write m a v) a = v := by
  unfold Memory.write
  split
  · next h => rw [Memory.read_erase_self, h]
  · refine Memory.read_insert_self _ _ _ fun c hc => ?_
    simpa [Memory.erase] using (List.mem_filter.mp hc).2

/-- A write leaves every other byte alone. -/
theorem Memory.read_write_other (m : Memory) (a b : Nat) (v : Byte) (h : b ≠ a) :
    Memory.read (Memory.write m a v) b = Memory.read m b := by
  unfold Memory.write
  split
  · exact Memory.read_erase_other m a b h
  · rw [Memory.read_insert_other _ _ _ _ h, Memory.read_erase_other m a b h]

/-- A list of bytes written at `a` leaves every byte outside its region alone. -/
theorem Memory.read_writeBytes_outside (m : Memory) (a x : Nat) (l : List Byte) (h : x < a ∨ a + l.length ≤ x) :
    Memory.read (Memory.writeBytes m a l) x = Memory.read m x := by
  induction l generalizing m a with
  | nil => rfl
  | cons v vs ih =>
    simp only [List.length_cons] at h
    rw [Memory.writeBytes, ih _ _ (by omega), Memory.read_write_other _ _ _ _ (by omega)]

/-- A list of bytes written at `a` reads back byte by byte. -/
theorem Memory.read_writeBytes_inside (m : Memory) (a k : Nat) (l : List Byte) (h : k < l.length) :
    Memory.read (Memory.writeBytes m a l) (a + k) = l[k] := by
  induction l generalizing m a k with
  | nil => simp at h
  | cons v vs ih =>
    rw [Memory.writeBytes]
    cases k with
    | zero => rw [Memory.read_writeBytes_outside _ _ _ _ (by omega)]; simp
    | succ k =>
      simp only [List.length_cons] at h
      have := ih (Memory.write m a v) (a + 1) k (by omega)
      rw [show a + (k + 1) = a + 1 + k by omega, this]
      simp

@[simp] theorem Memory.readBytes_length (m : Memory) (a n : Nat) : (Memory.readBytes m a n).length = n := by
  induction n generalizing a with
  | zero => rfl
  | succ n ih => simp [Memory.readBytes, ih]

theorem Memory.readBytes_getElem (m : Memory) (a n k : Nat) (h : k < (Memory.readBytes m a n).length) :
    (Memory.readBytes m a n)[k] = Memory.read m (a + k) := by
  induction n generalizing a k with
  | zero => simp [Memory.readBytes] at h
  | succ n ih =>
    cases k with
    | zero => simp [Memory.readBytes]
    | succ k =>
      simp only [Memory.readBytes_length] at h
      simp only [Memory.readBytes, List.getElem_cons_succ]
      rw [ih (a + 1) k (by simp; omega), show a + 1 + k = a + (k + 1) by omega]

/-- A read of the region just written gives the bytes written. -/
@[simp] theorem Memory.readBytes_writeBytes (m : Memory) (a : Nat) (l : List Byte) :
    Memory.readBytes (Memory.writeBytes m a l) a l.length = l := by
  refine List.ext_getElem (by simp) fun k h1 h2 => ?_
  rw [Memory.readBytes_getElem, Memory.read_writeBytes_inside _ _ _ _ h2]

/-- Two memories that agree on a region read alike there. -/
theorem Memory.readBytes_congr (m m' : Memory) (a n : Nat) (h : ∀ x, a ≤ x → x < a + n → Memory.read m x = Memory.read m' x) :
    Memory.readBytes m a n = Memory.readBytes m' a n := by
  refine List.ext_getElem (by simp) fun k h1 h2 => ?_
  rw [Memory.readBytes_getElem, Memory.readBytes_getElem]
  simp only [Memory.readBytes_length] at h1
  exact h _ (by omega) (by omega)

theorem Memory.wf_cons (a : Nat) (v : Byte) (t : Memory) :
    Memory.wf ((a, v) :: t) = true ↔ a < 2 ^ 64 ∧ v ≠ 0 ∧ (∀ c ∈ t, a < c.1) ∧ Memory.wf t = true := by
  simp [Memory.wf, and_assoc]

theorem Memory.wf_erase (m : Memory) (a : Nat) (h : Memory.wf m = true) : Memory.wf (Memory.erase m a) = true := by
  induction m with
  | nil => rfl
  | cons c t ih =>
    obtain ⟨k, v⟩ := c
    obtain ⟨hk, hv, hlt, ht⟩ := (Memory.wf_cons k v t).mp h
    by_cases hka : k = a
    · simpa [Memory.erase, hka] using ih ht
    · have : Memory.erase ((k, v) :: t) a = (k, v) :: Memory.erase t a := by simp [Memory.erase, hka]
      rw [this, Memory.wf_cons]
      exact ⟨hk, hv, fun c hc => hlt c (List.mem_filter.mp hc).1, ih ht⟩

theorem Memory.mem_insert (m : Memory) (a : Nat) (v : Byte) (c : Host.Cell) (h : c ∈ Memory.insert a v m) :
    c = (a, v) ∨ c ∈ m := by
  induction m with
  | nil => simpa [Memory.insert] using h
  | cons d t ih =>
    obtain ⟨k, w⟩ := d
    by_cases hlt : a < k
    · simpa [Memory.insert, hlt] using h
    · simp only [Memory.insert, hlt, if_false, List.mem_cons] at h
      rcases h with rfl | h
      · simp
      · rcases ih h with rfl | h'
        · simp
        · exact .inr (List.mem_cons_of_mem _ h')

theorem Memory.wf_insert (m : Memory) (a : Nat) (v : Byte) (h : Memory.wf m = true) (ha : a < 2 ^ 64) (hv : v ≠ 0)
    (hn : ∀ c ∈ m, c.1 ≠ a) : Memory.wf (Memory.insert a v m) = true := by
  induction m with
  | nil => simp only [Memory.insert, Memory.wf_cons]; exact ⟨ha, hv, by simp, rfl⟩
  | cons d t ih =>
    obtain ⟨k, w⟩ := d
    obtain ⟨hk, hw, hlt, ht⟩ := (Memory.wf_cons k w t).mp h
    have hka : k ≠ a := hn _ List.mem_cons_self
    by_cases hak : a < k
    · simp only [Memory.insert, hak, if_true]
      rw [Memory.wf_cons]
      refine ⟨ha, hv, fun c hc => ?_, h⟩
      rcases List.mem_cons.mp hc with rfl | hc
      · exact hak
      · have := hlt c hc; omega
    · simp only [Memory.insert, hak, if_false]
      rw [Memory.wf_cons]
      refine ⟨hk, hw, fun c hc => ?_, ih ht fun c hc => hn c (List.mem_cons_of_mem _ hc)⟩
      rcases Memory.mem_insert t a v c hc with rfl | hc
      · exact lt_of_le_of_ne (Nat.le_of_not_lt hak) hka
      · exact hlt c hc

/-- A write keeps the canonical form. -/
theorem Memory.wf_write (m : Memory) (a : Nat) (v : Byte) (h : Memory.wf m = true) (ha : a < 2 ^ 64) :
    Memory.wf (Memory.write m a v) = true := by
  unfold Memory.write
  split
  · exact Memory.wf_erase m a h
  · next hv =>
    refine Memory.wf_insert _ _ _ (Memory.wf_erase m a h) ha hv fun c hc => ?_
    simpa [Memory.erase] using (List.mem_filter.mp hc).2

/-- A write of a list of bytes that ends at 2^64 or before keeps the canonical form. -/
theorem Memory.wf_writeBytes (m : Memory) (a : Nat) (l : List Byte) (h : Memory.wf m = true) (ha : a + l.length ≤ 2 ^ 64) :
    Memory.wf (Memory.writeBytes m a l) = true := by
  induction l generalizing m a with
  | nil => exact h
  | cons v vs ih =>
    simp only [List.length_cons] at ha
    exact ih _ _ (Memory.wf_write m a v h (by omega)) (by omega)

/-- Two canonical memories that read alike everywhere are equal data. -/
theorem Memory.ext_of_wf (m m' : Memory) (h : Memory.wf m = true) (h' : Memory.wf m' = true)
    (hr : ∀ a, Memory.read m a = Memory.read m' a) : m = m' := by
  have low : ∀ (t : Memory) (a : Nat), (∀ c ∈ t, a < c.1) → Memory.read t a = 0 := by
    intro t a ht
    induction t with
    | nil => rfl
    | cons c t ih =>
      obtain ⟨k, v⟩ := c
      have hk : a < k := ht _ List.mem_cons_self
      have hne : k ≠ a := by omega
      simpa [Memory.read, hne] using ih fun c hc => ht c (List.mem_cons_of_mem _ hc)
  induction m generalizing m' with
  | nil =>
    cases m' with
    | nil => rfl
    | cons d t' =>
      obtain ⟨k, v⟩ := d
      have := hr k
      simp [Memory.read] at this
      exact absurd this.symm ((Memory.wf_cons k v t').mp h').2.1
  | cons c t ih =>
    obtain ⟨k, v⟩ := c
    obtain ⟨hk, hv, hlt, ht⟩ := (Memory.wf_cons k v t).mp h
    cases m' with
    | nil =>
      have := hr k
      simp [Memory.read] at this
      exact absurd this hv
    | cons d t' =>
      obtain ⟨k', v'⟩ := d
      obtain ⟨hk', hv', hlt', ht'⟩ := (Memory.wf_cons k' v' t').mp h'
      have hkk : k = k' := by
        rcases Nat.lt_trichotomy k k' with hlt2 | heq | hgt
        · have h1 := hr k
          rw [low ((k', v') :: t') k (by
            intro c hc
            rcases List.mem_cons.mp hc with rfl | hc
            · exact hlt2
            · have := hlt' c hc; omega)] at h1
          simp [Memory.read] at h1
          exact absurd h1 hv
        · exact heq
        · have h1 := hr k'
          rw [low ((k, v) :: t) k' (by
            intro c hc
            rcases List.mem_cons.mp hc with rfl | hc
            · exact hgt
            · have := hlt c hc; omega)] at h1
          simp [Memory.read] at h1
          exact absurd h1.symm hv'
      subst hkk
      have hvv : v = v' := by simpa [Memory.read] using hr k
      subst hvv
      congr 1
      refine ih t' ht ht' fun a => ?_
      by_cases hak : a = k
      · subst hak; rw [low t a hlt, low t' a hlt']
      · have := hr a
        have hne : k ≠ a := fun e => hak e.symm
        simpa [Memory.read, hne] using this

/-- The region of a list of bytes is admitted exactly where its end is 2^64 or before and each byte is admitted. -/
theorem admitsBytes_iff (c : Config) (a n : Nat) : admitsBytes c a n = true ↔ ∀ x, a ≤ x → x < a + n → admits c x = true := by
  induction n generalizing a with
  | zero => simp [admitsBytes]; intro x h1 h2; omega
  | succ n ih =>
    simp only [admitsBytes, Bool.and_eq_true, ih]
    constructor
    · rintro ⟨h1, h2⟩ x hx1 hx2
      by_cases h : x = a
      · rw [h]; exact h1
      · exact h2 x (by omega) (by omega)
    · intro h
      exact ⟨h a (by omega) (by omega), fun x h1 h2 => h x (by omega) (by omega)⟩

theorem admitsRegion_iff (c : Config) (a n : Nat) :
    admitsRegion c a n = true ↔ a + n ≤ 2 ^ 64 ∧ ∀ x, a ≤ x → x < a + n → admits c x = true := by
  simp [admitsRegion, admitsBytes_iff]

end Sys2Proof.Machine
end

