-- ==== Sys2Proof/Laws/State.lean ====
section
/-! SUPPORT. One lemma per field and update of State, and the registers after a write. -/

namespace Sys2Proof.Machine

@[simp] theorem State.raise_cfg (s : State) (e : CodecError) : (s.raise e).cfg = s.cfg := rfl
@[simp] theorem State.raise_cmd (s : State) (e : CodecError) : (s.raise e).cmd = s.cmd := rfl
@[simp] theorem State.raise_args (s : State) (e : CodecError) : (s.raise e).args = s.args := rfl
@[simp] theorem State.raise_status (s : State) (e : CodecError) : (s.raise e).status = e.code := rfl
@[simp] theorem State.raise_res (s : State) (e : CodecError) :
    (s.raise e).res = ⟨some (unsigned64 e.info), none, none, none⟩ := rfl
@[simp] theorem State.raise_transient (s : State) (e : CodecError) : (s.raise e).transient = none := rfl
@[simp] theorem State.raise_mem (s : State) (e : CodecError) : (s.raise e).mem = s.mem := rfl
@[simp] theorem State.raise_host (s : State) (e : CodecError) : (s.raise e).host = s.host := rfl
@[simp] theorem State.raise_hostData (s : State) (e : CodecError) : (s.raise e).hostData = s.hostData := rfl
@[simp] theorem State.raise_freeCount (s : State) (e : CodecError) : (s.raise e).freeCount = s.freeCount := rfl

@[simp] theorem State.complete_cfg (s : State) (c : Completion) : (s.complete c).cfg = s.cfg := rfl
@[simp] theorem State.complete_cmd (s : State) (c : Completion) : (s.complete c).cmd = s.cmd := rfl
@[simp] theorem State.complete_args (s : State) (c : Completion) : (s.complete c).args = s.args := rfl
@[simp] theorem State.complete_status (s : State) (c : Completion) : (s.complete c).status = statusOK := rfl
@[simp] theorem State.complete_res (s : State) (c : Completion) : (s.complete c).res = c.res := rfl
@[simp] theorem State.complete_transient (s : State) (c : Completion) : (s.complete c).transient = none := rfl
@[simp] theorem State.complete_mem (s : State) (c : Completion) : (s.complete c).mem = c.mem := rfl
@[simp] theorem State.complete_host (s : State) (c : Completion) : (s.complete c).host = s.host := rfl
@[simp] theorem State.complete_hostData (s : State) (c : Completion) : (s.complete c).hostData = s.hostData := rfl
@[simp] theorem State.complete_freeCount (s : State) (c : Completion) : (s.complete c).freeCount = s.freeCount := rfl

@[simp] theorem State.resetBlock_cfg (s : State) : s.resetBlock.cfg = s.cfg := rfl
@[simp] theorem State.resetBlock_cmd (s : State) : s.resetBlock.cmd = 0 := rfl
@[simp] theorem State.resetBlock_args (s : State) :
    s.resetBlock.args = ⟨none, none, none, none, none, none, none, none⟩ := rfl
@[simp] theorem State.resetBlock_status (s : State) : s.resetBlock.status = statusNone := rfl
@[simp] theorem State.resetBlock_res (s : State) : s.resetBlock.res = ⟨none, none, none, none⟩ := rfl
@[simp] theorem State.resetBlock_transient (s : State) : s.resetBlock.transient = none := rfl
@[simp] theorem State.resetBlock_mem (s : State) : s.resetBlock.mem = s.mem := rfl
@[simp] theorem State.resetBlock_host (s : State) : s.resetBlock.host = s.host := rfl
@[simp] theorem State.resetBlock_hostData (s : State) : s.resetBlock.hostData = s.hostData := rfl
@[simp] theorem State.resetBlock_freeCount (s : State) : s.resetBlock.freeCount = s.freeCount := rfl

@[simp] theorem State.hostReadCmd_cfg (s : State) : s.hostReadCmd.cfg = s.cfg := rfl
@[simp] theorem State.hostReadCmd_cmd (s : State) : s.hostReadCmd.cmd = s.cmd := rfl
@[simp] theorem State.hostReadCmd_args (s : State) : s.hostReadCmd.args = s.args := rfl
@[simp] theorem State.hostReadCmd_status (s : State) : s.hostReadCmd.status = s.status := rfl
@[simp] theorem State.hostReadCmd_res (s : State) : s.hostReadCmd.res = s.res := rfl
@[simp] theorem State.hostReadCmd_transient (s : State) : s.hostReadCmd.transient = s.transient := rfl
@[simp] theorem State.hostReadCmd_mem (s : State) : s.hostReadCmd.mem = s.mem := rfl
@[simp] theorem State.hostReadCmd_host (s : State) : s.hostReadCmd.host = s.host := rfl

@[simp] theorem Transient.emit_stage (t : Transient) (cells : List Word) (k n : Nat) :
    (t.emit cells k n).stage = t.stage ++ cells := rfl
@[simp] theorem Transient.emit_cur (t : Transient) (cells : List Word) (k n : Nat) : (t.emit cells k n).cur = t.cur + n := rfl
@[simp] theorem Transient.emit_row (t : Transient) (cells : List Word) (k n : Nat) : (t.emit cells k n).row = t.row + 1 := rfl
@[simp] theorem Transient.emit_kind (t : Transient) (cells : List Word) (k n : Nat) : (t.emit cells k n).kind = k := rfl
@[simp] theorem Transient.emit_consumed (t : Transient) (cells : List Word) (k n : Nat) :
    (t.emit cells k n).consumed = n := rfl
@[simp] theorem Transient.emit_work (t : Transient) (cells : List Word) (k n : Nat) : (t.emit cells k n).work = t.work := rfl
@[simp] theorem Transient.emit_lim (t : Transient) (cells : List Word) (k n : Nat) : (t.emit cells k n).lim = t.lim := rfl
@[simp] theorem Transient.emit_rows (t : Transient) (cells : List Word) (k n : Nat) : (t.emit cells k n).rows = t.rows := rfl
@[simp] theorem Transient.emit_cols (t : Transient) (cells : List Word) (k n : Nat) : (t.emit cells k n).cols = t.cols := rfl
@[simp] theorem Transient.emit_mdi (t : Transient) (cells : List Word) (k n : Nat) : (t.emit cells k n).mdi = t.mdi := rfl
@[simp] theorem Transient.emit_acc (t : Transient) (cells : List Word) (k n : Nat) : (t.emit cells k n).acc = t.acc := rfl
@[simp] theorem Transient.emit_job (t : Transient) (cells : List Word) (k n : Nat) : (t.emit cells k n).job = t.job := rfl
@[simp] theorem Transient.emit_out (t : Transient) (cells : List Word) (k n : Nat) : (t.emit cells k n).out = t.out := rfl

/-- An ARG register reads as the value last written to it. -/
@[simp] theorem ArgFile.get_set_self (f : ArgFile) (i : Fin 8) (v : Word) : (f.set i v).get i = some v := by
  fin_cases i <;> rfl

/-- A write of one ARG register leaves the others alone. -/
theorem ArgFile.get_set_other (f : ArgFile) (i j : Fin 8) (v : Word) (h : i ≠ j) : (f.set i v).get j = f.get j := by
  fin_cases i <;> fin_cases j <;> first | rfl | exact absurd rfl h

end Sys2Proof.Machine
end

