-- ==== Sys2Proof/Laws/Words.lean ====
section
/-! SUPPORT. The laws of bytes, words and bit strings. -/

namespace Sys2Proof.Machine

theorem beWord_beBytes (w : Word) :
    beWord (w.extractLsb' 56 8) (w.extractLsb' 48 8) (w.extractLsb' 40 8) (w.extractLsb' 32 8)
      (w.extractLsb' 24 8) (w.extractLsb' 16 8) (w.extractLsb' 8 8) (w.extractLsb' 0 8) = w := by
  apply BitVec.eq_of_getLsbD_eq
  intro i hi
  simp only [beWord, BitVec.getLsbD_append, BitVec.getLsbD_extractLsb']
  interval_cases i <;> simp

theorem beBytes_beWord (b0 b1 b2 b3 b4 b5 b6 b7 : Byte) :
    beBytes (beWord b0 b1 b2 b3 b4 b5 b6 b7) = [b0, b1, b2, b3, b4, b5, b6, b7] := by
  simp only [beBytes, List.cons.injEq, and_true]
  refine ⟨?_, ?_, ?_, ?_, ?_, ?_, ?_, ?_⟩ <;>
    · apply BitVec.eq_of_getLsbD_eq
      intro i hi
      simp only [beWord, BitVec.getLsbD_append, BitVec.getLsbD_extractLsb', hi, decide_true, Bool.true_and]
      interval_cases i <;> simp

@[simp] theorem beBytes_length (w : Word) : (beBytes w).length = 8 := rfl

@[simp] theorem natBytes_length (o : ByteOrder) (w : Word) : (natBytes o w).length = 8 := by cases o <;> rfl

@[simp] theorem natBytesOf_length (o : ByteOrder) (ws : List Word) : (natBytesOf o ws).length = 8 * ws.length := by
  induction ws with
  | nil => rfl
  | cons w ws ih => simp [natBytesOf, ih]; omega

theorem natBytesOf_append (o : ByteOrder) (xs ys : List Word) :
    natBytesOf o (xs ++ ys) = natBytesOf o xs ++ natBytesOf o ys := by
  induction xs with
  | nil => rfl
  | cons x xs ih => simp [natBytesOf, ih]

/-- The words of the bytes of a word and more bytes. -/
theorem natWords_natBytes_append (o : ByteOrder) (w : Word) (rest : List Byte) :
    natWords o (natBytes o w ++ rest) = w :: natWords o rest := by
  cases o <;> simp [natBytes, beBytes, natWords, natWord, beWord_beBytes]

/-- Reading back the bytes of words in the order they were written gives the words. -/
@[simp] theorem natWords_natBytesOf (o : ByteOrder) (ws : List Word) : natWords o (natBytesOf o ws) = ws := by
  induction ws with
  | nil => rfl
  | cons w ws ih => rw [natBytesOf, natWords_natBytes_append, ih]

/-- A byte list whose length is a multiple of 8, cut into its words. -/
theorem byteWords_cases (l : List Byte) (h : l.length % 8 = 0) :
    l = [] ∨ ∃ b0 b1 b2 b3 b4 b5 b6 b7 rest, l = b0 :: b1 :: b2 :: b3 :: b4 :: b5 :: b6 :: b7 :: rest ∧
      rest.length % 8 = 0 := by
  match l, h with
  | [], _ => exact .inl rfl
  | b0 :: b1 :: b2 :: b3 :: b4 :: b5 :: b6 :: b7 :: rest, h =>
    exact .inr ⟨b0, b1, b2, b3, b4, b5, b6, b7, rest, rfl, by simp at h; omega⟩
  | [_], h | [_, _], h | [_, _, _], h | [_, _, _, _], h | [_, _, _, _, _], h | [_, _, _, _, _, _], h
  | [_, _, _, _, _, _, _], h => simp at h

/-- Induction over a byte list word by word. -/
theorem byteWords_induction {P : List Byte → Prop} (nil : P [])
    (word : ∀ b0 b1 b2 b3 b4 b5 b6 b7 rest, rest.length % 8 = 0 → P rest →
      P (b0 :: b1 :: b2 :: b3 :: b4 :: b5 :: b6 :: b7 :: rest))
    (l : List Byte) (h : l.length % 8 = 0) : P l := by
  induction hn : l.length using Nat.strong_induction_on generalizing l with
  | _ n ih =>
    rcases byteWords_cases l h with rfl | ⟨b0, b1, b2, b3, b4, b5, b6, b7, rest, rfl, hr⟩
    · exact nil
    · exact word _ _ _ _ _ _ _ _ _ hr (ih rest.length (by simp at hn; omega) rest hr rfl)

/-- Whole words read in an order and written in the same order are the bytes read. -/
theorem natBytesOf_natWords (o : ByteOrder) (l : List Byte) (h : l.length % 8 = 0) : natBytesOf o (natWords o l) = l := by
  refine byteWords_induction (P := fun l => natBytesOf o (natWords o l) = l) rfl ?_ l h
  intro b0 b1 b2 b3 b4 b5 b6 b7 rest _ ih
  cases o <;> simp [natWords, natBytesOf, natWord, natBytes, beBytes_beWord, ih]

@[simp] theorem natWords_length (o : ByteOrder) (l : List Byte) (h : l.length % 8 = 0) :
    (natWords o l).length = l.length / 8 := by
  refine byteWords_induction (P := fun l => (natWords o l).length = l.length / 8) rfl ?_ l h
  intro b0 b1 b2 b3 b4 b5 b6 b7 rest _ ih
  simp [natWords, ih]; omega

@[simp] theorem swapWords_length (l : List Byte) : (swapWords l).length = l.length := by
  fun_induction swapWords l with
  | case1 => simp_all
  | case2 => rfl

@[simp] theorem normalizeBytes_length (o : ByteOrder) (l : List Byte) : (normalizeBytes o l).length = l.length := by
  cases o <;> simp [normalizeBytes]

/-- Swapping the bytes of every word turns one host order's reading into the other's. -/
theorem swapWords_natBytes_append (w : Word) (rest : List Byte) :
    swapWords (natBytes .little w ++ rest) = beBytes w ++ swapWords rest := by
  simp [natBytes, beBytes, swapWords]

@[simp] theorem bitsMSB_length (v b : Nat) : (bitsMSB v b).length = b := by
  induction b with
  | zero => rfl
  | succ b ih => simp [bitsMSB, ih]

theorem bitsValue_append (s t : List Bool) : bitsValue (s ++ t) = bitsValue s * 2 ^ t.length + bitsValue t := by
  have fold : ∀ (t : List Bool) (a : Nat),
      t.foldl (fun acc bit => 2 * acc + bit.toNat) a = a * 2 ^ t.length + t.foldl (fun acc bit => 2 * acc + bit.toNat) 0 := by
    intro t
    induction t with
    | nil => simp
    | cons x t ih =>
      intro a
      simp only [List.foldl_cons, List.length_cons]
      rw [ih (2 * a + x.toNat), ih (2 * 0 + x.toNat)]
      ring
  simp only [bitsValue, List.foldl_append]
  rw [fold t]

/-- The value of the `b` bits of `v` is `v`, where `v` fits in them. -/
theorem bitsValue_bitsMSB (v b : Nat) : bitsValue (bitsMSB v b) = v % 2 ^ b := by
  induction b with
  | zero => simp [bitsMSB, bitsValue, Nat.mod_one]
  | succ b ih =>
    rw [bitsMSB, show v.testBit b :: bitsMSB v b = [v.testBit b] ++ bitsMSB v b from rfl, bitsValue_append, ih, bitsMSB_length]
    have h : bitsValue [v.testBit b] = v / 2 ^ b % 2 := by
      simp only [bitsValue, List.foldl_cons, List.foldl_nil, Nat.testBit_eq_decide_div_mod_eq]
      rcases Nat.mod_two_eq_zero_or_one (v / 2 ^ b) with h | h <;> simp [h]
    rw [h, Nat.mod_pow_succ]
    ring

theorem bitsValue_lt (s : List Bool) : bitsValue s < 2 ^ s.length := by
  induction s using List.reverseRecOn with
  | nil => simp [bitsValue]
  | append_singleton s x ih =>
    rw [bitsValue_append]
    have : bitsValue [x] ≤ 1 := by cases x <;> simp [bitsValue]
    simp only [List.length_append, List.length_singleton, pow_succ]
    omega

/-- The bits of the value of a bit string are the bit string. -/
theorem bitsMSB_bitsValue (s : List Bool) : bitsMSB (bitsValue s) s.length = s := by
  have tail : ∀ (b v v' : Nat), v % 2 ^ b = v' % 2 ^ b → bitsMSB v b = bitsMSB v' b := by
    intro b
    induction b with
    | zero => intros; rfl
    | succ b ih =>
      intro v v' h
      have hbit : v.testBit b = v'.testBit b := by
        have := congrArg (fun n => n.testBit b) h
        simpa [Nat.testBit_mod_two_pow] using this
      have hlow : v % 2 ^ b = v' % 2 ^ b := by
        have := congrArg (fun n => n % 2 ^ b) h
        simpa [Nat.mod_mod_of_dvd, Nat.pow_dvd_pow 2 (Nat.le_succ b)] using this
      rw [bitsMSB, bitsMSB, hbit, ih _ _ hlow]
  induction s with
  | nil => rfl
  | cons x s ih =>
    have hv : bitsValue (x :: s) = x.toNat * 2 ^ s.length + bitsValue s := by
      rw [show x :: s = [x] ++ s from rfl, bitsValue_append]; cases x <;> simp [bitsValue]
    have hlt := bitsValue_lt s
    rw [List.length_cons, bitsMSB]
    congr 1
    · rw [hv, Nat.testBit_eq_decide_div_mod_eq, Nat.mul_comm, Nat.mul_add_div (by positivity), Nat.div_eq_of_lt hlt]
      cases x <;> rfl
    · rw [tail s.length (bitsValue (x :: s)) (bitsValue s) (by rw [hv, Nat.mul_comm, Nat.mul_add_mod]), ih]

/-- The bits of a packed word: the slice, and zero bits after its end. -/
theorem bitsMSB_wordOfBits (s : List Bool) (h : s.length ≤ 64) :
    bitsMSB (wordOfBits s).toNat 64 = s ++ List.replicate (64 - s.length) false := by
  have hlen : (s ++ List.replicate (64 - s.length) false).length = 64 := by simp; omega
  have hlt := bitsValue_lt (s ++ List.replicate (64 - s.length) false)
  rw [hlen] at hlt
  rw [wordOfBits, BitVec.toNat_ofNat, Nat.mod_eq_of_lt hlt]
  have := bitsMSB_bitsValue (s ++ List.replicate (64 - s.length) false)
  rwa [hlen] at this

/-- Unpacking the words of a bit string gives the bit string, and zero bits after its end. -/
theorem unpack64_packWords (n : Nat) (s : List Bool) (h : s.length ≤ 64 * n) :
    unpack64 (packWords n s) = s ++ List.replicate (64 * n - s.length) false := by
  induction n generalizing s with
  | zero =>
    have : s = [] := List.eq_nil_of_length_eq_zero (by omega)
    simp [this, packWords, unpack64]
  | succ n ih =>
    rw [packWords, unpack64, bitsMSB_wordOfBits _ (by simp), ih _ (by simp; omega)]
    by_cases hs : s.length ≤ 64
    · rw [List.take_of_length_le hs, List.drop_eq_nil_of_le hs]
      simp only [List.nil_append, List.append_assoc, List.replicate_append_replicate, List.length_nil]
      congr 2
      omega
    · have h1 : (s.take 64).length = 64 := by simp; omega
      rw [h1]
      simp only [Nat.sub_self, List.replicate_zero, List.append_nil]
      rw [← List.append_assoc, List.take_append_drop, List.length_drop]
      congr 2
      omega

/-- `Unpack64(Pack64(S))` is `S` and its pad bits (30_encoding R74). -/
theorem unpack64_pack64 (s : List Bool) :
    unpack64 (pack64 s) = s ++ List.replicate (64 * wordsFor s.length - s.length) false :=
  unpack64_packWords _ _ (by simp only [wordsFor]; omega)

@[simp] theorem packWords_length (n : Nat) (s : List Bool) : (packWords n s).length = n := by
  induction n generalizing s with
  | zero => rfl
  | succ n ih => simp [packWords, ih]

@[simp] theorem pack64_length (s : List Bool) : (pack64 s).length = wordsFor s.length := packWords_length _ _

end Sys2Proof.Machine
end

