-- ==== Sys2Proof/Laws/Ops.lean ====
section
/-! SUPPORT. What each shared operation can do, said once: the reads of operands and memory, the checks, the end of a
command, and the row sequencer. -/

namespace Sys2Proof.Machine

@[simp] theorem Abort.bind_ok {α β : Type} (a : α) (f : α → Except Abort β) : (Except.ok a >>= f) = f a := rfl

@[simp] theorem Abort.bind_error {α β : Type} (x : Abort) (f : α → Except Abort β) :
    ((Except.error x : Except Abort α) >>= f) = .error x := rfl

/-- A sequence of two pieces of work succeeds exactly where both do. -/
theorem Abort.bind_eq_ok {α β : Type} (r : Except Abort α) (f : α → Except Abort β) (b : β) :
    (r >>= f) = .ok b ↔ ∃ a, r = .ok a ∧ f a = .ok b := by
  cases r with
  | ok a => simp
  | error x => simp

theorem State.arg_eq_ok (s : State) (i : Fin 8) (v : Word) : s.arg i = .ok v ↔ s.args.get i = some v := by
  unfold State.arg; cases s.args.get i <;> simp

theorem State.arg_of_get (s : State) (i : Fin 8) (v : Word) (h : s.args.get i = some v) : s.arg i = .ok v :=
  (s.arg_eq_ok i v).mpr h

theorem State.argU_of_get (s : State) (i : Fin 8) (v : Word) (h : s.args.get i = some v) : s.argU i = .ok v.toNat := by
  simp [State.argU, s.arg_of_get i v h, Except.map]

theorem State.argS_of_get (s : State) (i : Fin 8) (v : Word) (h : s.args.get i = some v) : s.argS i = .ok v.toInt := by
  simp [State.argS, s.arg_of_get i v h, Except.map]

theorem State.argF_of_get (s : State) (i : Fin 8) (v : Word) (h : s.args.get i = some v) : s.argF i = .ok v :=
  s.arg_of_get i v h

theorem State.argU_of_none (s : State) (i : Fin 8) (h : s.args.get i = none) :
    s.argU i = .error (.stop (.unwrittenOperand i)) := by
  simp [State.argU, State.arg, h, Except.map]

theorem State.argS_of_none (s : State) (i : Fin 8) (h : s.args.get i = none) :
    s.argS i = .error (.stop (.unwrittenOperand i)) := by
  simp [State.argS, State.arg, h, Except.map]

theorem State.argF_of_none (s : State) (i : Fin 8) (h : s.args.get i = none) :
    s.argF i = .error (.stop (.unwrittenOperand i)) := by
  simp [State.argF, State.arg, h]

@[simp] theorem check_true (e : CodecError) : check true e = .ok () := rfl
@[simp] theorem check_false (e : CodecError) : check false e = .error (.raise e) := rfl

theorem check_eq_ok (p : Bool) (e : CodecError) (u : Unit) : check p e = .ok u ↔ p = true := by
  cases p <;> simp [check]

/-- A region is missing exactly where it is not admitted as a whole. -/
theorem regionMissing_iff (c : Config) (a n : Nat) : regionMissing c a n ↔ admitsRegion c a n = false := by
  rw [← Bool.not_eq_true, admitsRegion_iff]
  simp only [regionMissing, not_and_or, not_le, not_forall, exists_prop, Bool.not_eq_true]

theorem State.memRead_of_admits (s : State) (a n : Nat) (h : admitsRegion s.cfg a n = true) :
    s.memRead a n = .ok (s.mem.readBytes a n) := by simp [State.memRead, h]

theorem State.memRead_stuck (s : State) (a n : Nat) (h : admitsRegion s.cfg a n = false) :
    s.memRead a n = .error (.stop .stuckAccess) := by simp [State.memRead, h]

theorem State.memRead_eq_ok (s : State) (a n : Nat) (b : List Byte) :
    s.memRead a n = .ok b ↔ admitsRegion s.cfg a n = true ∧ b = s.mem.readBytes a n := by
  unfold State.memRead
  split
  · next h => simpa [h] using eq_comm
  · next h => simp [h]

theorem State.memWrite_of_admits (s : State) (a : Nat) (v : List Byte) (h : admitsRegion s.cfg a v.length = true) :
    s.memWrite a v = .ok (s.mem.writeBytes a v) := by simp [State.memWrite, h]

theorem State.memWrite_stuck (s : State) (a : Nat) (v : List Byte) (h : admitsRegion s.cfg a v.length = false) :
    s.memWrite a v = .error (.stop .stuckAccess) := by simp [State.memWrite, h]

theorem State.memWrite_eq_ok (s : State) (a : Nat) (v : List Byte) (m : Memory) :
    s.memWrite a v = .ok m ↔ admitsRegion s.cfg a v.length = true ∧ m = s.mem.writeBytes a v := by
  unfold State.memWrite
  split
  · next h => simpa [h] using eq_comm
  · next h => simp [h]

@[simp] theorem liftError_ok {α : Type} (a : α) : liftError (.ok a : Except CodecError α) = .ok a := rfl
@[simp] theorem liftError_error {α : Type} (e : CodecError) : liftError (.error e : Except CodecError α) = .error (.raise e) := rfl

theorem liftError_eq_ok {α : Type} (r : Except CodecError α) (a : α) : liftError r = .ok a ↔ r = .ok a := by
  cases r <;> simp

@[simp] theorem State.conclude_ok (s : State) (c : Completion) : s.conclude (.ok c) = .next (s.complete c) := rfl
@[simp] theorem State.conclude_raise (s : State) (e : CodecError) : s.conclude (.error (.raise e)) = .next (s.raise e) := rfl
@[simp] theorem State.conclude_stop (s : State) (f : Fault) : s.conclude (.error (.stop f)) = .fault f := rfl

/-- What the end of a command can be. -/
theorem State.conclude_next (s t : State) (r : Except Abort Completion) (h : s.conclude r = .next t) :
    (∃ c, r = .ok c ∧ t = s.complete c) ∨ ∃ e, r = .error (.raise e) ∧ t = s.raise e := by
  match r, h with
  | .ok c, h => exact .inl ⟨c, rfl, by simpa using h.symm⟩
  | .error (.raise e), h => exact .inr ⟨e, rfl, by simpa using h.symm⟩

@[simp] theorem State.runRecord_some (s : State) (t : Transient) (f : Transient → Except CodecError Transient)
    (h : s.transient = some t) :
    s.runRecord f = match f t with
      | .ok u => .next { s with transient := some u }
      | .error e => .next (s.raise e) := by
  unfold State.runRecord
  cases hf : f t <;> simp [h, hf]

/-- What a record's decoding rule can do to the machine: it fails and ends the command, or the transient state moves on. -/
theorem State.runRecord_next (s t : State) (f : Transient → Except CodecError Transient) (h : s.runRecord f = .next t) :
    ∃ u, s.transient = some u ∧
      ((∃ e, f u = .error e ∧ t = s.raise e) ∨ ∃ v, f u = .ok v ∧ t = { s with transient := some v }) := by
  unfold State.runRecord at h
  split at h
  · simp at h
  · next u hu =>
    refine ⟨u, hu, ?_⟩
    split at h
    · next v hv => exact .inr ⟨v, hv, by simpa using h.symm⟩
    · next e he => exact .inl ⟨e, he, by simpa using h.symm⟩

/-- The decoding rule of a descriptor. -/
def recordRule : RowDescriptor → Transient → Except CodecError Transient
  | .allMissing => allMissingRecord
  | .constant => constantRecord
  | .normal b => normalRecordOn b.toNat

/-- Decoding one record (43 R158) on the transient state. -/
def nextRecord (bMax : Nat) (t : Transient) : Except CodecError Transient :=
  match t.descriptor bMax with
  | .ok d => recordRule d t
  | .error e => .error e

theorem runDescriptor_eq (d : RowDescriptor) (s : State) : runDescriptor d s = s.runRecord (recordRule d) := by
  cases d <;> rfl

/-- The row sequencer's one row is the decoding of one record on the transient state. -/
theorem State.decodeRecord_eq (s : State) : s.decodeRecord = s.runRecord (nextRecord s.cfg.bMax) := by
  unfold State.decodeRecord State.runRecord nextRecord
  cases ht : s.transient with
  | none => rfl
  | some t =>
    simp only
    cases hd : t.descriptor s.cfg.bMax with
    | error e => rfl
    | ok d => simp [runDescriptor_eq, State.runRecord, ht]

/-- Decoding `n` records in a row. -/
def nextRecords (bMax : Nat) : Nat → Transient → Except CodecError Transient
  | 0, t => .ok t
  | n + 1, t =>
    match nextRecord bMax t with
    | .ok u => nextRecords bMax n u
    | .error e => .error e

/-- The rows of a command, then its end, are the decoding of its records on the transient state, then its end. -/
theorem State.runRows_eq (n : Nat) (s : State) (t : Transient) :
    State.runRows n { s with transient := some t } =
      match nextRecords s.cfg.bMax n t with
      | .ok u => s.conclude (finishWork s u)
      | .error e => .next (s.raise e) := by
  induction n generalizing t with
  | zero =>
    simp only [State.runRows, State.finishRows, nextRecords]
    have hw : finishWork { s with transient := some t } t = finishWork s t := rfl
    rw [hw]
    rcases finishWork s t with (e | f) | c <;> rfl
  | succ n ih =>
    simp only [State.runRows, State.decodeRecord_eq, nextRecords]
    rw [State.runRecord_some { s with transient := some t } t _ rfl]
    cases hr : nextRecord s.cfg.bMax t with
    | error e => rfl
    | ok u => simpa using ih u

/-- A command that decodes rows, as its records decoded in order and then its end. -/
theorem State.startRows_ok (s : State) (t : Transient) :
    s.startRows (.ok t) =
      match nextRecords s.cfg.bMax t.rows t with
      | .ok u => s.conclude (finishWork s u)
      | .error e => .next (s.raise e) := State.runRows_eq t.rows s t

@[simp] theorem State.startRows_raise (s : State) (e : CodecError) : s.startRows (.error (.raise e)) = .next (s.raise e) := rfl
@[simp] theorem State.startRows_stop (s : State) (f : Fault) : s.startRows (.error (.stop f)) = .fault f := rfl

/-- What a row decode leaves alone in the transient state. -/
theorem recordRule_keeps (d : RowDescriptor) (t u : Transient) (h : recordRule d t = .ok u) :
    u.job = t.job ∧ u.work = t.work ∧ u.lim = t.lim ∧ u.rows = t.rows ∧ u.cols = t.cols ∧ u.mdi = t.mdi ∧
      u.acc = t.acc ∧ u.out = t.out ∧ u.row = t.row + 1 ∧ u.cur = t.cur + u.consumed := by
  cases d with
  | allMissing =>
    simp only [recordRule, allMissingRecord, Except.ok.injEq] at h
    subst h; simp
  | constant =>
    simp only [recordRule, constantRecord] at h
    split at h
    · simp at h
    · simp only [Except.ok.injEq] at h; subst h; simp
  | normal b =>
    simp only [recordRule, normalRecordOn] at h
    split at h
    · simp at h
    · simp only [Except.ok.injEq] at h; subst h; simp

theorem nextRecord_eq_ok (bMax : Nat) (t u : Transient) :
    nextRecord bMax t = .ok u ↔ ∃ d, t.descriptor bMax = .ok d ∧ recordRule d t = .ok u := by
  unfold nextRecord; cases t.descriptor bMax <;> simp

/-- What decoding rows leaves alone in the transient state. -/
theorem nextRecords_keeps (bMax n : Nat) (t u : Transient) (h : nextRecords bMax n t = .ok u) :
    u.job = t.job ∧ u.work = t.work ∧ u.lim = t.lim ∧ u.rows = t.rows ∧ u.cols = t.cols ∧ u.mdi = t.mdi ∧
      u.acc = t.acc ∧ u.out = t.out ∧ u.row = t.row + n := by
  induction n generalizing t with
  | zero => simp only [nextRecords, Except.ok.injEq] at h; subst h; simp
  | succ n ih =>
    simp only [nextRecords] at h
    split at h
    · next v hv =>
      obtain ⟨d, _, hd⟩ := (nextRecord_eq_ok bMax t v).mp hv
      obtain ⟨h1, h2, h3, h4, h5, h6, h7, h8, h9, _⟩ := recordRule_keeps d t v hd
      obtain ⟨k1, k2, k3, k4, k5, k6, k7, k8, k9⟩ := ih v h
      exact ⟨k1.trans h1, k2.trans h2, k3.trans h3, k4.trans h4, k5.trans h5, k6.trans h6, k7.trans h7, k8.trans h8,
        by omega⟩
    · simp at h

/-- A run of `m + n` records is a run of `m` and then one of `n`. -/
theorem nextRecords_add (bMax m n : Nat) (t : Transient) :
    nextRecords bMax (m + n) t =
      match nextRecords bMax m t with
      | .ok u => nextRecords bMax n u
      | .error e => .error e := by
  induction m generalizing t with
  | zero => simp [nextRecords]
  | succ m ih =>
    rw [show m + 1 + n = (m + n) + 1 by omega]
    simp only [nextRecords]
    cases nextRecord bMax t with
    | ok u => simpa using ih u
    | error e => rfl

/-- What a command can leave, as a frame: an error state, or a success whose memory is that of a write of bytes within the
address space, or the memory as it was. -/
def CommandEnds (s t : State) : Prop :=
  (∃ e, t = s.raise e) ∨
    ∃ c : Completion, t = s.complete c ∧ c.res.res0.isSome = true ∧
      (c.mem = s.mem ∨ ∃ a v, admitsRegion s.cfg a v.length = true ∧ c.mem = s.mem.writeBytes a v)

theorem State.startRows_ends (s t : State) (r : Except Abort Transient) (h : s.startRows r = .next t) : CommandEnds s t := by
  match r, h with
  | .error (.raise e), h => exact .inl ⟨e, by simpa using h.symm⟩
  | .ok u, h =>
    rw [State.startRows_ok] at h
    split at h
    · next v hv =>
      rcases State.conclude_next _ _ _ h with ⟨c, hc, rfl⟩ | ⟨e, _, rfl⟩
      · refine .inr ⟨c, rfl, ?_⟩
        simp only [finishWork, Abort.bind_eq_ok, State.memWrite_eq_ok] at hc
        obtain ⟨_, _, m, ⟨ha, rfl⟩, hc⟩ := hc
        simp only [pure, Except.pure, Except.ok.injEq] at hc
        subst hc
        refine ⟨?_, .inr ⟨_, _, ha, rfl⟩⟩
        unfold Transient.results; cases v.job <;> rfl
      · exact .inl ⟨e, rfl⟩
    · next e _ => exact .inl ⟨e, by simpa using h.symm⟩

theorem execNormalize_ends (s t : State) (h : execNormalize s = .next t) : CommandEnds s t := by
  rcases State.conclude_next _ _ _ h with ⟨c, hc, rfl⟩ | ⟨e, _, rfl⟩
  · refine .inr ⟨c, rfl, ?_⟩
    simp only [normalizeWork, Abort.bind_eq_ok, State.memRead_eq_ok] at hc
    obtain ⟨a, _, n, _, _, _, b, ⟨ha, rfl⟩, hc⟩ := hc
    simp only [pure, Except.pure, Except.ok.injEq] at hc
    subst hc
    refine ⟨rfl, ?_⟩
    cases ho : s.cfg.hostOrder with
    | big => exact .inl (by simp [normalizedMem])
    | little => exact .inr ⟨a, normalizeBytes .little (s.mem.readBytes a n), by simpa using ha, by simp [normalizedMem]⟩
  · exact .inl ⟨e, rfl⟩

theorem execDecodeHeader_ends (s t : State) (h : execDecodeHeader s = .next t) : CommandEnds s t := by
  rcases State.conclude_next _ _ _ h with ⟨c, hc, rfl⟩ | ⟨e, _, rfl⟩
  · refine .inr ⟨c, rfl, ?_⟩
    simp only [decodeHeaderWork, Abort.bind_eq_ok] at hc
    obtain ⟨_, _, _, _, _, _, _, _, _, _, hc⟩ := hc
    simp only [pure, Except.pure, Except.ok.injEq] at hc
    subst hc
    exact ⟨rfl, .inl rfl⟩
  · exact .inl ⟨e, rfl⟩

theorem execEncodeHeader_ends (s t : State) (h : execEncodeHeader s = .next t) : CommandEnds s t := by
  rcases State.conclude_next _ _ _ h with ⟨c, hc, rfl⟩ | ⟨e, _, rfl⟩
  · refine .inr ⟨c, rfl, ?_⟩
    simp only [encodeHeaderWork, Abort.bind_eq_ok, State.memWrite_eq_ok] at hc
    obtain ⟨_, _, _, _, _, _, _, _, _, _, _, _, _, _, _, _, _, _, _, _, _, _, m, ⟨ha, rfl⟩, hc⟩ := hc
    simp only [pure, Except.pure, Except.ok.injEq] at hc
    subst hc
    exact ⟨rfl, .inr ⟨_, _, ha, rfl⟩⟩
  · exact .inl ⟨e, rfl⟩

theorem execPackRow_ends (s t : State) (h : execPackRow s = .next t) : CommandEnds s t := by
  rcases State.conclude_next _ _ _ h with ⟨c, hc, rfl⟩ | ⟨e, _, rfl⟩
  · refine .inr ⟨c, rfl, ?_⟩
    simp only [packRowWork, Abort.bind_eq_ok, State.memWrite_eq_ok] at hc
    obtain ⟨_, _, _, _, _, _, _, _, _, _, _, _, _, _, _, _, _, _, _, _, _, _, m, ⟨ha, rfl⟩, hc⟩ := hc
    simp only [pure, Except.pure, Except.ok.injEq] at hc
    subst hc
    exact ⟨rfl, .inr ⟨_, _, ha, rfl⟩⟩
  · exact .inl ⟨e, rfl⟩

theorem execEncodeField_ends (s t : State) (h : execEncodeField s = .next t) : CommandEnds s t := by
  rcases State.conclude_next _ _ _ h with ⟨c, hc, rfl⟩ | ⟨e, _, rfl⟩
  · refine .inr ⟨c, rfl, ?_⟩
    simp only [encodeFieldWork, Abort.bind_eq_ok, State.memWrite_eq_ok] at hc
    obtain ⟨_, _, _, _, _, _, _, _, _, _, _, _, _, _, _, _, _, _, _, _, _, _, _, _, _, _, _, _, _, _, _, _, m, ⟨ha, rfl⟩, hc⟩ := hc
    simp only [pure, Except.pure, Except.ok.injEq] at hc
    subst hc
    exact ⟨rfl, .inr ⟨_, _, ha, rfl⟩⟩
  · exact .inl ⟨e, rfl⟩

theorem execUnpackRow_ends (s t : State) (h : execUnpackRow s = .next t) : CommandEnds s t := s.startRows_ends t _ h

theorem execDecodeField_ends (s t : State) (h : execDecodeField s = .next t) : CommandEnds s t := s.startRows_ends t _ h

end Sys2Proof.Machine
end

