-- ==== Sys2Proof/Laws/PerInstr.lean ====
section
/-! SUPPORT. Statements made for every instruction, one lemma per constructor. -/

namespace Sys2Proof.Laws.FormatFields

/-- The fields that both formats share (30_encoding R60, R70): a tag byte from 1 to 7 in bits 63:56, the WIDTH of NORMAL and
else 0 in bits 55:48, zeros in bits 47:0. -/
def Statement (i : Instr) : Prop :=
  (encode i).extractLsb' 0 48 = 0#48 ∧
    (encode i).extractLsb' 48 8 = (match i with | .normal b => b | _ => 0#8) ∧
    1 ≤ ((encode i).extractLsb' 56 8).toNat ∧ ((encode i).extractLsb' 56 8).toNat ≤ 7

theorem normalize : Statement .normalize := by unfold Statement; decide
theorem decodeHeader : Statement .decodeHeader := by unfold Statement; decide
theorem encodeHeader : Statement .encodeHeader := by unfold Statement; decide
theorem packRow : Statement .packRow := by unfold Statement; decide
theorem unpackRow : Statement .unpackRow := by unfold Statement; decide
theorem encodeField : Statement .encodeField := by unfold Statement; decide
theorem decodeField : Statement .decodeField := by unfold Statement; decide
theorem allMissing : Statement .allMissing := by unfold Statement; decide
theorem constant : Statement .constant := by unfold Statement; decide

theorem normal (b : BitVec 8) : Statement (.normal b) := by
  obtain ⟨h0, h1, h2⟩ := descriptorWord_fields 0x03#8 b
  exact ⟨h0, h1, by rw [encode, h2]; decide, by rw [encode, h2]; decide⟩

end Sys2Proof.Laws.FormatFields
end

