-- ==== Sys2Proof/Laws/Step.lean ====
section
/-! SUPPORT. What one step of the machine can do, said once: the cases of a step, and the frame that every command keeps. -/

namespace Sys2Proof.Machine

/-- Memory after reset is in canonical form. -/
theorem State.reset_mem_wf : State.reset.mem.wf = true := rfl

/-- What the end of a command that decodes rows can leave. -/
theorem State.finishRows_ends (s t : State) (h : s.finishRows = .next t) : CommandEnds s t := by
  cases hu : s.transient with
  | none => simp [State.finishRows, hu] at h
  | some u =>
    simp only [State.finishRows, hu] at h
    rcases State.conclude_next _ _ _ h with ⟨c, hc, rfl⟩ | ⟨e, _, rfl⟩
    · refine .inr ⟨c, rfl, ?_⟩
      simp only [finishWork, Abort.bind_eq_ok, State.memWrite_eq_ok] at hc
      obtain ⟨_, _, m, ⟨ha, rfl⟩, hc⟩ := hc
      simp only [pure, Except.pure, Except.ok.injEq] at hc
      subst hc
      refine ⟨?_, .inr ⟨_, _, ha, rfl⟩⟩
      unfold Transient.results; cases u.job <;> rfl
    · exact .inl ⟨e, rfl⟩

/-- What a command can leave. -/
theorem exec_ends {i : Instr} {s t : State} (hi : i.isCommand = true) (h : exec i s = .next t) : CommandEnds s t := by
  cases i with
  | normalize => exact execNormalize_ends s t h
  | decodeHeader => exact execDecodeHeader_ends s t h
  | encodeHeader => exact execEncodeHeader_ends s t h
  | packRow => exact execPackRow_ends s t h
  | unpackRow => exact execUnpackRow_ends s t h
  | encodeField => exact execEncodeField_ends s t h
  | decodeField => exact execDecodeField_ends s t h
  | allMissing => simp [Instr.isCommand] at hi
  | constant => simp [Instr.isCommand] at hi
  | normal b => simp [Instr.isCommand] at hi

/-- The command format reads commands alone. -/
theorem decodeCommand_isCommand {w : Word} {i : Instr} (h : decodeCommand w = some i) : i.isCommand = true := by
  unfold decodeCommand at h
  split at h
  · split at h <;> first | (simp only [Option.some.injEq] at h; subst h; rfl) | simp at h
  · simp at h

/-- An access that leads to an instruction is a write of `CMD`, and the instruction is a command. -/
theorem State.access_run {s s' : State} {e : HostEvent} {i : Instr} (h : s.access e = .run i s') :
    ∃ v, e = .writeCmd v ∧ s' = { s with cmd := v } ∧ decodeCommand v = some i := by
  cases e <;> simp only [State.access] at h <;> try (simp at h)
  next v =>
    refine ⟨v, rfl, ?_⟩
    unfold State.issue at h
    split at h
    · next i' hd => simp only [Fetched.run.injEq] at h; obtain ⟨rfl, rfl⟩ := h; exact ⟨rfl, hd⟩
    · simp at h

/-- What a step can be. In the middle of a row decode: one record, an error, or the end of the command. Between commands: nothing,
one command, or one access of another kind. -/
theorem step_cases {s t : State} (h : step s = .next t) :
    (∃ u, s.transient = some u ∧
      ((∃ d, s.runRecord (recordRule d) = .next t) ∨ (∃ e, t = s.raise e) ∨ s.finishRows = .next t)) ∨
    (s.transient = none ∧
      ((s.host = [] ∧ t = s) ∨
        ∃ e rest, s.host = e :: rest ∧
          ((∃ i v, e = .writeCmd v ∧ decodeCommand v = some i ∧ exec i { s with host := rest, cmd := v } = .next t) ∨
            State.access { s with host := rest } e = .ended (.next t)))) := by
  unfold step at h
  cases ht : s.transient with
  | some u =>
    left; refine ⟨u, rfl, ?_⟩
    simp only [State.fetch, ht, State.fetchRow] at h
    by_cases hr : u.row < u.rows
    · simp only [hr, if_true] at h
      cases hd : u.descriptor s.cfg.bMax with
      | ok d =>
        rw [hd] at h
        left; refine ⟨d, ?_⟩
        rw [← runDescriptor_eq, ← h]; cases d <;> rfl
      | error e => rw [hd] at h; right; left; exact ⟨e, by simpa using h.symm⟩
    · simp only [hr, if_false] at h
      right; right; exact h
  | none =>
    right; refine ⟨rfl, ?_⟩
    simp only [State.fetch, ht] at h
    cases hh : s.host with
    | nil => rw [hh] at h; left; exact ⟨rfl, by simpa using h.symm⟩
    | cons e rest =>
      right; refine ⟨e, rest, rfl, ?_⟩
      rw [hh] at h
      simp only at h
      cases ha : State.access { s with host := rest, transient := none } e with
      | run i s' =>
        rw [ha] at h
        obtain ⟨v, rfl, rfl, hd⟩ := State.access_run ha
        exact .inl ⟨i, v, rfl, hd, h⟩
      | ended o => rw [ha] at h; simp only at h; exact .inr (by rw [h])

/-- A run whose first step goes on. -/
theorem core_run_next (k : Nat) (s t : State) (h : step s = .next t) :
    Sys2Proof.core.run (k + 1) s = Sys2Proof.core.run k t := by
  have h' : Sys2Proof.core.step s = .next t := h
  simp [Host.Core.run, h']

/-- A run whose first step is a fault. -/
theorem core_run_fault (k : Nat) (s : State) (f : Fault) (h : step s = .fault f) :
    Sys2Proof.core.run (k + 1) s = .fault f := by
  have h' : Sys2Proof.core.step s = .fault f := h
  simp [Host.Core.run, h']

end Sys2Proof.Machine
end

