-- ==== Sys2Proof/Tests/Slice0.lean ====
section
/-! SUPPORT. Tests: the spec's own encodings and vectors (95_test_vectors.md), the smoke test of WellFormed, and for each statement that
has hypotheses a witness that meets them. -/

namespace Sys2Proof.Tests

open Sys2Proof.Machine

set_option Elab.async false

/-! ### Helpers -/

/-- The reset state of an instance with `B_MAX = 31` whose host memory is 64 KiB from address 0, with these operands and this
memory. -/
def sample (o : ByteOrder) (vs : List Word) (m : Memory) : State :=
  { State.resetWith ⟨o, 30, [⟨0, 0x10000⟩]⟩ m with
    args := ⟨vs[0]?, vs[1]?, vs[2]?, vs[3]?, vs[4]?, vs[5]?, vs[6]?, vs[7]?⟩ }

/-- Memory that holds bytes at an address. -/
def bytesAt (a : Nat) (b : List Byte) : Memory := Memory.writeBytes [] a b

/-- Memory that holds words in host order at an address. -/
def wordsAt (o : ByteOrder) (a : Nat) (ws : List Word) : Memory := bytesAt a (natBytesOf o ws)

/-- A sample state with accesses queued. -/
def queued (h : List HostEvent) : State := { sample .big [] [] with host := h }

/-- A sample state in the middle of a row decode. -/
def decoding (t : Transient) : State := { sample .big [] [] with transient := some t }

/-- `STATUS`, the result registers and `n` bytes of memory at `a` after a step that goes on. -/
def report (o : Out) (a n : Nat) : Option (Word × ResFile × List Byte) :=
  match o with
  | .next s => some (s.status, s.res, s.mem.readBytes a n)
  | .fault _ => none
  | .refused _ => none

/-- The state a step leads to, for steps that go on. -/
def after (o : Out) : State :=
  match o with
  | .next s => s
  | .fault _ => State.reset
  | .refused _ => State.reset

/-- A check of every word of a list, one by one. -/
theorem all_of {P : Word → Prop} [DecidablePred P] (l : List Word) (h : l.all (fun c => decide (P c)) = true) :
    ∀ c ∈ l, P c := by simpa using h

/-- The exact value of a pattern from its three fields. -/
theorem real_of (x : Word) (s : Bool) (e f : Nat) (hs : signBit x = s) (he : expField x = e) (hf : fracField x = f) :
    real x = (if s then -1 else 1) *
      (if e = 0 then (f : ℚ) / 2 ^ 52 * (2 : ℚ) ^ (-1022 : ℤ) else (1 + (f : ℚ) / 2 ^ 52) * (2 : ℚ) ^ ((e : ℤ) - 1023)) := by
  subst hs he hf; rfl

/-- Does a step go on? -/
def goesOn (o : Out) : Bool :=
  match o with
  | .next _ => true
  | .fault _ => false
  | .refused _ => false

theorem next_after (o : Out) (h : goesOn o = true) : o = .next (after o) := by
  cases o <;> first | rfl | cases h

/-- The pattern of -9999.0 (95_test_vectors.md section 0). -/
def mdi : Word := 0xC0C3878000000000

theorem sample_operands (o : ByteOrder) (vs : List Word) (m : Memory) : (sample o vs m).operandsAre vs := by
  intro k v h
  fin_cases k <;> exact h

theorem sample_mem (o : ByteOrder) (vs : List Word) (m : Memory) : (sample o vs m).mem = m := rfl

theorem sample_cfg (o : ByteOrder) (vs vs' : List Word) (m m' : Memory) : (sample o vs m).cfg = (sample o vs' m').cfg := rfl

/-! ### WellFormed: the ill-formed terms are refused -/

theorem test_normal_width_0_ill_formed : Instr.wellFormed 31 (.normal 0) = false := by decide
theorem test_normal_width_32_ill_formed : Instr.wellFormed 31 (.normal 32) = false := by decide
theorem test_normal_width_31_well_formed : Instr.wellFormed 31 (.normal 31) = true := by decide

/-! ### Decoding: words written out from 30_encoding R60, R71 to R73 -/

theorem test_decode_normalize : decodeCommand 0x0100000000000000 = some .normalize := by decide
theorem test_decode_decode_header : decodeCommand 0x0200000000000000 = some .decodeHeader := by decide
theorem test_decode_encode_header : decodeCommand 0x0300000000000000 = some .encodeHeader := by decide
theorem test_decode_pack_row : decodeCommand 0x0400000000000000 = some .packRow := by decide
theorem test_decode_unpack_row : decodeCommand 0x0500000000000000 = some .unpackRow := by decide
theorem test_decode_encode_field : decodeCommand 0x0600000000000000 = some .encodeField := by decide
theorem test_decode_decode_field : decodeCommand 0x0700000000000000 = some .decodeField := by decide
theorem test_decode_all_missing : decodeDescriptor 31 0x0100000000000000 = some .allMissing := by decide
theorem test_decode_constant : decodeDescriptor 31 0x0200000000000000 = some .constant := by decide
theorem test_decode_normal : decodeDescriptor 31 0x031F000000000000 = some (.normal 31) := by decide
theorem test_decode_table_normalize : decodeTableWord 64 0x0100000000000000 = some .normalize := by decide
theorem test_decode_table_normal : decodeTableWord 64 0x0301000000000000 = some (.normal 1) := by decide

/-- 30_encoding R63 and 95_test_vectors IC1 to IC4: words that select no command. -/
theorem test_illegal_commands :
    decodeCommand 0x0800000000000000 = none ∧ decodeCommand 0x0100000000000001 = none ∧
      decodeCommand 0x0000000000000000 = none ∧ decodeCommand 0xFF00000000000000 = none := by decide

/-- 30_encoding R77: a width on ALL_MISSING or CONSTANT, width 0 or 32, a reserved bit, and the kinds 0 and 4. -/
theorem test_illegal_descriptors :
    decodeDescriptor 31 0x0101000000000000 = none ∧ decodeDescriptor 31 0x0201000000000000 = none ∧
      decodeDescriptor 31 0x0300000000000000 = none ∧ decodeDescriptor 31 0x0320000000000000 = none ∧
      decodeDescriptor 31 0x0301000000000001 = none ∧ decodeDescriptor 31 0x0000000000000000 = none ∧
      decodeDescriptor 31 0x0401000000000000 = none := by decide

/-! ### Instructions: vectors of 95_test_vectors.md -/

/-- N1. -/
theorem test_normalize_little :
    report (exec .normalize (sample .little [0, 16] (bytesAt 0 [0, 1, 2, 3, 4, 5, 6, 7, 8, 9, 10, 11, 12, 13, 14, 15]))) 0 16 =
      some (0x00, ⟨some 2, none, none, none⟩, [7, 6, 5, 4, 3, 2, 1, 0, 15, 14, 13, 12, 11, 10, 9, 8]) := by decide +kernel

/-- N2. -/
theorem test_normalize_invalid_length :
    report (exec .normalize (sample .little [0, 12] [])) 0 0 = some (0x01, ⟨some 0xC, none, none, none⟩, []) := by decide +kernel

/-- H3, and H2 for the byte order. -/
theorem test_decode_header :
    report (exec .decodeHeader (sample .little [0x100, 16]
      (bytesAt 0x100 [0xC0, 0, 0, 0, 0xFD, 0xFF, 0xFF, 0xFF, 0xE8, 3, 0, 0, 0x91, 0, 0, 0]))) 0 0 =
      some (0x00, ⟨some 0xFFFFFFFFFFFFFFFD, some 0xC0, some 0x91, some 0x3E8⟩, []) := by decide +kernel

/-- H12. -/
theorem test_decode_header_negative_cols :
    report (exec .decodeHeader (sample .big [0, 16]
      (bytesAt 0 [0, 0, 0, 0, 0x80, 0, 0, 0, 0, 0, 0, 0, 0, 0, 0, 0]))) 0 0 =
      some (0x02, ⟨some 2, none, none, none⟩, []) := by decide +kernel

/-- H1. -/
theorem test_encode_header :
    report (exec .encodeHeader (sample .big [0xFFFFFFFFFFFFFFFD, 192, 145, 1000, 0x100, 16] [])) 0x100 16 =
      some (0x00, ⟨some 16, none, none, none⟩, [0xFF, 0xFF, 0xFF, 0xFD, 0, 0, 0, 0xC0, 0, 0, 0, 0x91, 0, 0, 3, 0xE8]) := by
  decide +kernel

/-- H9. -/
theorem test_encode_header_payload :
    report (exec .encodeHeader (sample .big [0, 1, 1, 0x100000000, 0x100, 16] [])) 0 0 =
      some (0x07, ⟨some 2, none, none, none⟩, []) := by decide +kernel

/-- PR19 as a command: a tie rounds up, to code 3. -/
theorem test_pack_row :
    report (exec .packRow (sample .big [0, 2, mdi, 0, 0x1000, 24] (wordsAt .big 0 [0, 0x4004000000000000]))) 0x1000 24 =
      some (0x00, ⟨some 0x18, some 3, some 3, none⟩,
        natBytesOf .big [0x0303000000000000, 0x0000000000000000, 0x0C00000000000000]) := by decide +kernel

/-- PC5: AccuracyOverflow comes before the capacity. -/
theorem test_pack_row_overflow :
    report (exec .packRow (sample .big [0x10, 2, mdi, 0, 0x1000, 0] (wordsAt .big 0x10 [0, 0x41DFFFFFFFC00000]))) 0 0 =
      some (0x04, ⟨some 0, none, none, none⟩, []) := by decide +kernel

/-- P4 step 3. -/
theorem test_unpack_row :
    report (exec .unpackRow (sample .little [0x2010, 24, 0, 2, mdi, 0, 0x3000, 16]
      (wordsAt .little 0x2010 [0x0301000000000000, 0x3FF0000000000000, 0x4000000000000000]))) 0x3000 16 =
      some (0x00, ⟨some 0x10, some 3, some 3, none⟩, natBytesOf .little [0x3FF0000000000000, mdi]) := by decide +kernel

/-- UE4: the capacity comes before the record. -/
theorem test_unpack_row_capacity :
    report (exec .unpackRow (sample .big [0, 8, 0, 2, mdi, 0, 0x3000, 15] [])) 0 0 =
      some (0x07, ⟨some 1, none, none, none⟩, []) := by decide +kernel

/-- P1 step 1: the scenario on a LITTLE host. -/
theorem test_encode_field :
    report (exec .encodeField (sample .little [0x1000, 4, 2, 2, mdi, 0, 0x2000, 64]
      (wordsAt .little 0x1000 [0x3FF0000000000000, mdi, 0x4008000000000000, 0x4008000000000000]))) 0x2000 56 =
      some (0x00, ⟨some 0x38, some 5, none, none⟩,
        natBytesOf .big [0x0000000000000002, 0x0000000200000005, 0x0301000000000000, 0x3FF0000000000000, 0x4000000000000000,
          0x0200000000000000, 0x4008000000000000]) := by decide +kernel

/-- EF5: the second row overflows. -/
theorem test_encode_field_overflow :
    report (exec .encodeField (sample .big [0x1000, 4, 2, 2, mdi, 0, 0x2000, 99]
      (wordsAt .big 0x1000 [0x3FF0000000000000, 0x4000000000000000, 0, 0x41DFFFFFFFC00000]))) 0x2000 2 =
      some (0x04, ⟨some 1, none, none, none⟩, [0, 0]) := by decide +kernel

/-- DF1 on a LITTLE host (P1 step 2). -/
theorem test_decode_field :
    report (exec .decodeField (sample .little [0x2000, 56, mdi, 2, 2, 0x3000, 32]
      (wordsAt .big 0x2000 [0x0000000000000002, 0x0000000200000005, 0x0301000000000000, 0x3FF0000000000000,
        0x4000000000000000, 0x0200000000000000, 0x4008000000000000]))) 0x3000 32 =
      some (0x00, ⟨some 0x20, some 2, some 2, some 0⟩,
        natBytesOf .little [0x3FF0000000000000, mdi, 0x4008000000000000, 0x4008000000000000]) := by decide +kernel

/-- DF12: the rows end before the declared payload end. -/
theorem test_decode_field_fill :
    report (exec .decodeField (sample .big [0x2000, 64, mdi, 0, 0, 0x3000, 32]
      (wordsAt .big 0x2000 [0x0000000000000002, 0x0000000200000006, 0x0301000000000000, 0x3FF0000000000000,
        0x4000000000000000, 0x0200000000000000, 0x4008000000000000, 0]))) 0x3000 1 =
      some (0x02, ⟨some 5, none, none, none⟩, [0]) := by decide +kernel

/-- A row decode that stands at the first of two words of work. -/
def atRow (work : List Word) (lim cur row rows cols : Nat) : Transient :=
  { job := .unpackRow, work := work, lim := lim, cur := cur, row := row, rows := rows, cols := cols, mdi := mdi, acc := 0,
    stage := [], kind := 0, consumed := 0, out := 0x3000 }

/-- PR1: ALL_MISSING. -/
theorem test_all_missing :
    (after (exec .allMissing (decoding (atRow [0x0100000000000000] 1 0 0 1 3)))).transient.map Transient.stage =
      some [mdi, mdi, mdi] := by decide +kernel

/-- PR2: CONSTANT. -/
theorem test_constant :
    (after (exec .constant (decoding (atRow [0x0200000000000000, 0x4008000000000000] 2 0 0 1 2)))).transient.map Transient.stage =
      some [0x4008000000000000, 0x4008000000000000] := by decide +kernel

/-- PR14: NORMAL with codes that span three words. -/
theorem test_normal :
    (after (exec (.normal 31) (decoding (atRow [0x031F000000000000, 0, 0x0000000100000003, 0xFFFFFFF800000000]
      4 0 0 1 3)))).transient.map Transient.stage = some [0, 0x41D0000000000000, mdi] := by decide +kernel

/-- PR10c: a rounded sum above 2^31. -/
theorem test_recon : recon 0 (2 ^ 30) 1 = 0x41E0000000000000 := by decide +kernel

/-- RS3: a command whose operands were never written. -/
theorem test_unwritten_operand : exec .normalize (sample .big [] []) = .fault (.unwrittenOperand 0) := rfl

/-- RS2: a read of RES0 after reset. -/
theorem test_unwritten_result : step (queued [.readRes 0]) = .fault (.unwrittenResult 0) := rfl

/-- PR2 as a listing (30_encoding R81). -/
theorem test_constant_listing : constantListing 0x4008000000000000 = "CONSTANT base=0x4008000000000000" := by decide +kernel

/-- P4 step 1: its host accesses. -/
theorem test_assembler_writes :
    (AsmCommand.normalize 0x2000 56).hostWrites =
      [.writeArg 0 0x2000, .writeArg 1 0x38, .writeCmd 0x0100000000000000] := by decide +kernel

/-! ### Witnesses: the hypotheses of the statements are met -/

theorem witness_ResetEventLeavesTheResetState : ∃ (s : State) (rest : List HostEvent),
    s.transient = none ∧ s.host = .reset :: rest := ⟨queued [.reset], [], rfl, rfl⟩

theorem witness_StepKeepsTheInvariant : ∃ s t : State, s.Inv ∧ step s = .next t :=
  ⟨queued [.readStatus], _, ⟨by decide, by decide, by decide⟩, rfl⟩

theorem witness_StepKeepsTheConfiguration : ∃ s t : State, step s = .next t := ⟨queued [.readStatus], _, rfl⟩

theorem witness_StepEndsBetweenCommands : ∃ s t : State, s.transient = none ∧ step s = .next t :=
  ⟨queued [.readStatus], _, rfl, rfl⟩

/-- With a row left, and with none. -/
theorem witness_RowStepsGiveTheCommand :
    (∃ (s : State) (t : Transient), s.host = [] ∧ s.transient = some t ∧ t.row < t.rows) ∧
    ∃ (s : State) (t : Transient), s.host = [] ∧ s.transient = some t ∧ t.row = t.rows :=
  ⟨⟨decoding (atRow [0x0100000000000000] 1 0 0 1 3), _, rfl, rfl, by decide⟩,
    ⟨decoding (atRow [0x0100000000000000] 1 1 1 1 3), _, rfl, rfl, rfl⟩⟩

theorem witness_StepRunsTheDecodedCommand : ∃ (s : State) (v : Word) (rest : List HostEvent) (i : Instr),
    s.transient = none ∧ s.host = .writeCmd v :: rest ∧ decodeCommand v = some i :=
  ⟨queued [.writeCmd 0x0700000000000000], _, _, .decodeField, rfl, rfl, by decide⟩

theorem witness_StepRunsTheDecodedDescriptor : ∃ (s : State) (t : Transient) (w : Word) (d : RowDescriptor),
    s.transient = some t ∧ t.row < t.rows ∧ t.cur < t.lim ∧ t.work[t.cur]? = some w ∧ decodeDescriptor s.cfg.bMax w = some d :=
  ⟨decoding (atRow [0x0100000000000000] 1 0 0 1 3), _, _, .allMissing, rfl, by decide, by decide, rfl, by decide⟩

/-- A command, and NORMAL at the least and the greatest width of the greatest cap. -/
theorem witness_DecodeOfEncode : Instr.isCommand .decodeField = true ∧
    (RowDescriptor.normal 1).toInstr.wellFormed 63 = true ∧ (RowDescriptor.normal 63).toInstr.wellFormed 63 = true := by decide

theorem witness_EncodeOfDecode : decodeCommand 0x0300000000000000 = some .encodeHeader ∧
    decodeDescriptor 63 0x033F000000000000 = some (.normal 63) := by decide

/-- Opcode 0, opcode 8, and the lowest reserved bit. -/
theorem witness_IllegalCommandWordsEndAtOnce : ∀ v ∈ [(0x00FFFFFFFFFFFFFF : Word), 0x0800000000000000, 0x0700000000000001],
    (queued [.writeCmd v]).transient = none ∧ (queued [.writeCmd v]).host = .writeCmd v :: [] ∧
      (v.toNat / 2 ^ 56 < 1 ∨ 7 < v.toNat / 2 ^ 56 ∨ v.toNat % 2 ^ 56 ≠ 0) := all_of _ (by decide +kernel)

/-- Word 0 of one word of input is no descriptor. -/
theorem witness_LegalDescriptorsAreExactlyThese : ∃ (s : State) (a n off cols m e o k d : Word),
    s.operandsAre [a, n, off, cols, m, e, o, k] ∧ n.toNat % 8 = 0 ∧ inDim cols ∧ inAcc e ∧ 8 * cols.toNat ≤ k.toNat ∧
      admitsRegion s.cfg a.toNat n.toNat = true ∧ (s.cellsAt a.toNat (n.toNat / 8))[off.toNat]? = some d ∧
      ¬ legalDescriptor s.cfg.bMax d :=
  ⟨sample .big [0, 8, 0, 1, mdi, 0, 0x3000, 8] (wordsAt .big 0 [0x0320000000000000]), 0, 8, 0, 1, mdi, 0, 0x3000, 8,
    0x0320000000000000, sample_operands _ _ _, by decide, ⟨by decide, by decide⟩, ⟨by decide, by decide⟩, by decide,
    by decide, by decide +kernel, by unfold legalDescriptor; decide⟩

theorem witness_HostWritesReachOperandsAlone :
    (∃ (s : State) (rest : List HostEvent) (i : Fin 8) (v : Word), s.transient = none ∧ s.host = .writeArg i v :: rest) ∧
    (∃ (s : State) (rest : List HostEvent) (v : Word), s.transient = none ∧ s.host = .writeStatus v :: rest) ∧
    ∃ (s : State) (rest : List HostEvent) (i : Fin 4) (v : Word), s.transient = none ∧ s.host = .writeRes i v :: rest :=
  ⟨⟨queued [.writeArg 7 1], [], 7, 1, rfl, rfl⟩, ⟨queued [.writeStatus 1], [], 1, rfl, rfl⟩,
    ⟨queued [.writeRes 3 1], [], 3, 1, rfl, rfl⟩⟩

/-- A written and an unwritten register among them. -/
theorem witness_HostReadsReturnTheRegisters :
    (∃ (s : State) (rest : List HostEvent), s.transient = none ∧ s.host = .readStatus :: rest) ∧
    (∃ (s : State) (rest : List HostEvent) (i : Fin 8) (v : Word), s.transient = none ∧ s.host = .readArg i :: rest ∧ s.args.get i = some v) ∧
    (∃ (s : State) (rest : List HostEvent) (i : Fin 4) (v : Word), s.transient = none ∧ s.host = .readRes i :: rest ∧ s.res.get i = some v) ∧
    (∃ (s : State) (rest : List HostEvent) (i : Fin 4), s.transient = none ∧ s.host = .readRes i :: rest ∧ s.res.get i = none) ∧
    ∃ (s : State) (rest : List HostEvent), s.transient = none ∧ s.host = .readCmd :: rest :=
  ⟨⟨queued [.readStatus], [], rfl, rfl⟩,
    ⟨{ sample .big [5] [] with host := [.readArg 0] }, [], 0, 5, rfl, rfl, rfl⟩,
    ⟨{ queued [.readRes 3] with res := ⟨none, none, none, some 5⟩ }, [], 3, 5, rfl, rfl, rfl⟩,
    ⟨queued [.readRes 3], [], 3, rfl, rfl, rfl⟩, ⟨queued [.readCmd], [], rfl, rfl⟩⟩

/-- At the last admitted byte. -/
theorem witness_HostMemoryAccessesTakeEffect :
    (∃ (s : State) (a : Word) (rest : List HostEvent) (v : Byte), s.transient = none ∧ admits s.cfg a.toNat = true ∧ s.host = .storeByte a v :: rest) ∧
    ∃ (s : State) (a : Word) (rest : List HostEvent), s.transient = none ∧ admits s.cfg a.toNat = true ∧ s.host = .loadByte a :: rest :=
  ⟨⟨queued [.storeByte 0xFFFF 1], 0xFFFF, [], 1, rfl, by decide, rfl⟩, ⟨queued [.loadByte 0xFFFF], 0xFFFF, [], rfl, by decide, rfl⟩⟩

theorem witness_RegisterTrafficIsSafe : ∃ s : State, s.transient = none ∧ s.host ≠ [] ∧
    ∀ e ∈ s.host, registerOnly e = true :=
  ⟨queued [.writeArg 0 1, .readStatus, .readCmd, .writeCmd 0, .reset], rfl, by decide, by decide⟩

/-- Ends with OK, and ends with an error. -/
theorem witness_CommandsEndWithOkOrAnErrorEntry :
    (∃ (i : Instr) (s t : State), i.isCommand = true ∧ exec i s = .next t ∧ t.status = 0x00) ∧
    ∃ (i : Instr) (s t : State), i.isCommand = true ∧ exec i s = .next t ∧ t.status = 0x01 :=
  ⟨⟨.normalize, sample .big [0, 8] [], _, rfl, next_after _ (by decide +kernel), by decide +kernel⟩,
    ⟨.normalize, sample .big [0, 9] [], _, rfl, next_after _ (by decide +kernel), by decide +kernel⟩⟩

theorem witness_OutputsStayInTheirRegion : ∃ (i : Instr) (k : Fin 8) (s t : State) (a n : Word), outputArg i = some k ∧
    exec i s = .next t ∧ t.status = 0x00 ∧ s.args.get k = some a ∧ t.res.res0 = some n :=
  ⟨.encodeHeader, 4, sample .big [0, 1, 1, 1, 0x100, 16] [], _, 0x100, 16, rfl, next_after _ (by decide +kernel), by decide +kernel,
    rfl, by decide +kernel⟩

/-- The last operand alone unwritten. -/
theorem witness_UnwrittenOperandIsAFault : ∃ (i : Instr) (s : State) (k : Fin 8), k.val < operandCount i ∧ s.args.get k = none :=
  ⟨.unpackRow, sample .big [0, 8, 0, 1, mdi, 0, 0x3000] [], 7, by decide, rfl⟩

theorem witness_CommandsStopOnlyForOperandsOrAddresses : ∃ (i : Instr) (s : State), i.isCommand = true ∧
    s.operandsWritten i = true := ⟨.normalize, sample .big [0, 8] [], rfl, by decide⟩

/-- States that differ in a register the command does not read. -/
theorem witness_CommandsDependOnOperandsAndMemoryAlone : ∃ (i : Instr) (s s' : State), i.isCommand = true ∧ s ≠ s' ∧
    s.cfg = s'.cfg ∧ s.mem = s'.mem ∧ ∀ k : Fin 8, k.val < operandCount i → s.args.get k = s'.args.get k :=
  ⟨.normalize, sample .big [0, 8] [], sample .big [0, 8, 5] [], rfl, by decide, rfl, rfl, by decide⟩

/-- Length 9; lengths 0 and 0x10000 on each host. -/
theorem witness_NormalizeSwapsTheWordsInPlace :
    ((sample .big [0, 9] []).operandsAre [0, 9] ∧ (9 : Word).toNat % 8 ≠ 0) ∧
    ∀ o, ∀ n ∈ [(0 : Word), 16], (sample o [0, n] []).operandsAre [0, n] ∧ n.toNat % 8 = 0 ∧
      admitsRegion (sample o [0, n] []).cfg (0 : Word).toNat n.toNat = true ∧ (sample o [0, n] []).cfg.hostOrder = o := by
  refine ⟨⟨sample_operands _ _ _, by decide⟩, fun o n hn => ⟨sample_operands _ _ _, ?_, ?_, rfl⟩⟩ <;>
    rcases List.mem_pair.mp hn with rfl | rfl <;> rfl

theorem witness_NormalizeMapsStreamAndNativeOrder : ∃ b : List Byte, b ≠ [] ∧ b.length % 8 = 0 :=
  ⟨[1, 2, 3, 4, 5, 6, 7, 8], by decide, by decide⟩

theorem witness_NormalizeTwiceRestoresTheBuffer : ∃ (s : State) (a n : Word), s.operandsAre [a, n] ∧ n.toNat % 8 = 0 ∧
    admitsRegion s.cfg a.toNat n.toNat = true ∧ s.mem.wf = true ∧ s.cfg.hostOrder = .little :=
  ⟨sample .little [0, 8] (bytesAt 0 [1, 2]), 0, 8, sample_operands _ _ _, by decide, by decide, by decide, rfl⟩

/-- Length 15; length 16 with each of the three outcomes: cols 0, rows 0, both 1. -/
theorem witness_DecodeHeaderReadsTheHeader :
    ((sample .big [0, 15] []).operandsAre [0, 15] ∧ (15 : Word).toNat < 16) ∧
    ∀ w ∈ [((0, 1) : Word × Word), (1, 0), (1, 0x0000000100000000)],
      (sample .big [0, 16] (wordsAt .big 0 [w.1, w.2])).operandsAre [0, 16] ∧
      admitsRegion (sample .big [0, 16] (wordsAt .big 0 [w.1, w.2])).cfg (0 : Word).toNat 16 = true ∧
      (sample .big [0, 16] (wordsAt .big 0 [w.1, w.2])).cellsAt (0 : Word).toNat 2 = [w.1, w.2] := by
  refine ⟨⟨sample_operands _ _ _, by decide⟩, fun w hw => ⟨sample_operands _ _ _, by rfl, ?_⟩⟩
  simp only [List.mem_cons, List.not_mem_nil, or_false] at hw
  rcases hw with rfl | rfl | rfl <;> decide +kernel

/-- The three outcomes of the last witness are the three clauses. -/
theorem witness_DecodeHeaderClauses :
    ((0 : Word).extractLsb' 0 32).toInt ≤ 0 ∧ 0 < ((1 : Word).extractLsb' 0 32).toInt ∧ ((0 : Word).extractLsb' 32 32).toInt ≤ 0 ∧
      0 < ((0x0000000100000000 : Word).extractLsb' 32 32).toInt := by decide

/-- Each check at the first value it refuses and the last it lets pass. -/
theorem witness_EncodeHeaderWritesTheHeader :
    (∀ vs : List Word, (sample .big vs []).operandsAre vs) ∧
    ¬ inDim 0 ∧ ¬ inDim 0x80000000 ∧ inDim 1 ∧ inDim 0x7FFFFFFF ∧
    ¬ inAcc 0x80000000 ∧ ¬ inAcc 0xFFFFFFFF7FFFFFFF ∧ inAcc 0x7FFFFFFF ∧ inAcc 0xFFFFFFFF80000000 ∧
    2 ^ 32 - 1 < (0x100000000 : Word).toNat ∧ (0xFFFFFFFF : Word).toNat ≤ 2 ^ 32 - 1 ∧ (15 : Word).toNat < 16 ∧
    16 ≤ (16 : Word).toNat ∧ admitsRegion (sample .big [] []).cfg (0xFFF0 : Word).toNat 16 = true := by
  refine ⟨fun vs => sample_operands _ _ _, ?_⟩
  unfold inDim inAcc
  decide

theorem witness_HeaderRoundTrip :
    (∃ h : Header, accMin ≤ h.acc ∧ h.acc ≤ accMax ∧ 1 ≤ h.cols ∧ h.cols ≤ dimMax ∧ 1 ≤ h.rows ∧ h.rows ≤ dimMax ∧
      h.plen ≤ payloadMax) ∧
    ∃ (s s' t : State) (e cols rows p o k : Word), s.operandsAre [e, cols, rows, p, o, k] ∧ exec .encodeHeader s = .next t ∧
      t.status = 0x00 ∧ s'.cfg = s.cfg ∧ s'.mem = t.mem ∧ s'.operandsAre [o, 16] := by
  refine ⟨⟨⟨-2 ^ 31, 1, 2 ^ 31 - 1, 2 ^ 32 - 1⟩, by decide⟩, ?_⟩
  exact ⟨sample .big [0, 1, 1, 1, 0x100, 16] [],
    sample .big [0x100, 16] (after (exec .encodeHeader (sample .big [0, 1, 1, 1, 0x100, 16] []))).mem, _, 0, 1, 1, 1, 0x100, 16,
    sample_operands _ _ _, next_after _ (by decide +kernel), by decide +kernel, rfl, rfl, sample_operands _ _ _⟩

/-- PR3's row at its exact capacity. -/
theorem witness_PackRowWritesTheRecord : ∃ (s : State) (a cols m e o k : Word) (record : RowRecord),
    s.operandsAre [a, cols, m, e, o, k] ∧ inDim cols ∧ inAcc e ∧ admitsRegion s.cfg a.toNat (8 * cols.toNat) = true ∧
      Machine.packRow s.cfg.bMax (s.cellsAt a.toNat cols.toNat) m e.toInt 0 = .ok record ∧
      8 * record.words.length ≤ k.toNat ∧ admitsRegion s.cfg o.toNat (8 * record.words.length) = true :=
  ⟨sample .big [0, 2, mdi, 0, 0x1000, 24] (wordsAt .big 0 [0x3FF0000000000000, mdi]), 0, 2, mdi, 0, 0x1000, 24,
    ⟨[0x0301000000000000, 0x3FF0000000000000, 0x4000000000000000], 3, 1⟩, sample_operands _ _ _, ⟨by decide, by decide⟩,
    ⟨by decide, by decide⟩, by decide, by decide +kernel, by decide, by decide⟩

/-- A row that overflows, and one that packs but does not fit. -/
theorem witness_PackRowChecksInOrder :
    (∃ s : State, s.operandsAre [0x10, 2, mdi, 0, 0x1000, 0] ∧ admitsRegion s.cfg 0x10 16 = true ∧
      Machine.packRow s.cfg.bMax (s.cellsAt 0x10 2) mdi 0 0 = .error (.accuracyOverflow 0)) ∧
    ∃ s record, State.operandsAre s [0, 2, mdi, 0, 0x1000, 15] ∧ admitsRegion s.cfg 0 16 = true ∧
      Machine.packRow s.cfg.bMax (s.cellsAt 0 2) mdi 0 0 = .ok record ∧ 15 < 8 * record.words.length :=
  ⟨⟨sample .big [0x10, 2, mdi, 0, 0x1000, 0] (wordsAt .big 0x10 [0, 0x41DFFFFFFFC00000]), sample_operands _ _ _, by decide, by decide +kernel⟩,
    ⟨sample .big [0, 2, mdi, 0, 0x1000, 15] (wordsAt .big 0 [0, 0]), ⟨[0x0200000000000000, 0], 2, 0⟩, sample_operands _ _ _,
      by decide, by decide +kernel, by decide⟩⟩

/-- PR1, PR13, PR2, PR10a and PR10b: each kind of row, with the width at and above the cap. -/
theorem witness_RowKindAndWidth :
    (∀ c ∈ [mdi, mdi, mdi], feq c mdi = true) ∧
    (∃ c ∈ [(0xFFF0000000000000 : Word), mdi], feq c mdi = false ∧ isFinite c = false) ∧
    (rowBase [0x4008000000000000, 0x4008000000000000] mdi = some 0x4008000000000000 ∧
      ∀ c ∈ [(0x4008000000000000 : Word), 0x4008000000000000], feq c mdi = false ∧ isFinite c = true ∧
        cellCode 0x4008000000000000 c 0 = 0) ∧
    ∀ top ∈ [(0x41DFFFFFFF800000 : Word), 0x41DFFFFFFFC00000], rowBase [0, top] mdi = some 0 ∧
      (feq 0 mdi = false ∧ isFinite 0 = true) ∧ (feq top mdi = false ∧ isFinite top = true) ∧ 1 ≤ cellCode 0 top 0 :=
  ⟨all_of _ (by decide +kernel), ⟨0xFFF0000000000000, by decide, by decide +kernel⟩,
    ⟨by decide +kernel, all_of _ (by decide +kernel)⟩, all_of _ (by decide +kernel)⟩

/-- PR1, PR3, PR15, PR12. -/
theorem witness_KindFidelity :
    (∀ c ∈ [mdi, mdi, mdi], feq c mdi = true) ∧
    ((∃ c ∈ [(0x3FF0000000000000 : Word), mdi], feq c mdi = true) ∧ (∃ c ∈ [(0x3FF0000000000000 : Word), mdi], feq c mdi = false) ∧
      ∃ record, Machine.packRow 31 [0x3FF0000000000000, mdi] mdi 0 0 = .ok record) ∧
    ((∀ x ∈ [(0 : Word), 0x8000000000000000], feq x mdi = false ∧ isFinite x = true) ∧
      (∀ y ∈ [(0 : Word), 0x8000000000000000], feq 0 y = true) ∧
      ∀ y ∈ [(0 : Word), 0x8000000000000000], feq 0x8000000000000000 y = true) ∧
    ∃ c ∈ [(0x7FF8000000000000 : Word), 0x3FF0000000000000], feq c mdi = false ∧ isFinite c = false := by
  exact ⟨all_of _ (by decide +kernel), ⟨⟨mdi, by decide, by decide +kernel⟩, ⟨0x3FF0000000000000, by decide, by decide +kernel⟩,
    ⟨[0x0301000000000000, 0x3FF0000000000000, 0x4000000000000000], 3, 1⟩, by decide +kernel⟩,
    ⟨all_of _ (by decide +kernel), all_of _ (by decide +kernel), all_of _ (by decide +kernel)⟩,
    0x7FF8000000000000, by decide, by decide +kernel⟩

/-- PR9. -/
theorem witness_BaseIsTheFirstLeastPresentCell :
    (∀ c ∈ [(0xC014000000000000 : Word), 0xC000000000000000, mdi], feq c mdi = false → isFinite c = true) ∧
      rowBase [0xC014000000000000, 0xC000000000000000, mdi] mdi = some 0xC014000000000000 ∧
      ∃ record, Machine.packRow 31 [0xC014000000000000, 0xC000000000000000, mdi] mdi 0 0 = .ok record :=
  ⟨all_of _ (by decide +kernel), by decide +kernel, ⟨[0x0303000000000000, 0xC014000000000000, 0x0F80000000000000], 3, 3⟩,
    by decide +kernel⟩

/-- PR19. -/
theorem witness_QuantizationIsExact : isFinite 0 = true ∧ isFinite 0x4004000000000000 = true ∧
    real 0 ≤ real 0x4004000000000000 ∧ ([0, 0x4004000000000000] : List Word) ≠ [] := by
  refine ⟨by decide, by decide, ?_, by decide⟩
  rw [real_of 0 false 0 0 (by decide) (by decide) (by decide),
    real_of 0x4004000000000000 false 1024 0x4000000000000 (by decide) (by decide) (by decide)]
  norm_num

/-- PR19 and PR2. -/
theorem witness_QuantizationErrorBound :
    (∃ record, Machine.packRow 31 [0, 0x4004000000000000] mdi 0 0 = .ok record ∧
      rowBase [0, 0x4004000000000000] mdi = some 0 ∧ 0x4004000000000000 ∈ presentCells [0, 0x4004000000000000] mdi) ∧
    ∃ record, Machine.packRow 31 [0x4008000000000000] mdi 0 0 = .ok record ∧ record.kind = 2 ∧
      rowBase [0x4008000000000000] mdi = some 0x4008000000000000 ∧ 0x4008000000000000 ∈ presentCells [0x4008000000000000] mdi :=
  ⟨⟨⟨[0x0303000000000000, 0, 0x0C00000000000000], 3, 3⟩, by decide +kernel, by decide +kernel, by decide +kernel⟩,
    ⟨⟨[0x0200000000000000, 0x4008000000000000], 2, 0⟩, by decide +kernel, rfl, by decide +kernel, by decide +kernel⟩⟩

/-- PR10c and PR11. -/
theorem witness_CoarserAccuracyNeedsNoMoreBits :
    ((∀ c ∈ [(0 : Word), 0x41DFFFFFFFC00000], feq c mdi = false → isFinite c = true) ∧
      rowBase [0, 0x41DFFFFFFFC00000] mdi = some 0 ∧
      ∃ record, Machine.packRow 31 [0, 0x41DFFFFFFFC00000] mdi 1 0 = .ok record ∧ record.kind = 3) ∧
    ∃ c ∈ [(0x7FF0000000000000 : Word), 0x3FF0000000000000], feq c mdi = false ∧ isFinite c = false :=
  ⟨⟨all_of _ (by decide +kernel), by decide +kernel, ⟨[0x031F000000000000, 0, 0x0000000100000000], 3, 31⟩, by decide +kernel, rfl⟩,
    0x7FF0000000000000, by decide, by decide +kernel⟩

/-- PR14: a code that spans words, and a pad bit. -/
theorem witness_CodeWordsHoldTheCodes :
    (∀ k ∈ [0, 2 ^ 30, 2 ^ 31 - 1], k < 2 ^ 31) ∧
    (normalRecord 0 31 [0, 2 ^ 30, 2 ^ 31 - 1]).words[2 + (2 * 31 + 2) / 64]? = some 0xFFFFFFF800000000 ∧
    [0, 2 ^ 30, 2 ^ 31 - 1].length * 31 ≤ 93 ∧
    (normalRecord 0 31 [0, 2 ^ 30, 2 ^ 31 - 1]).words[2 + 93 / 64]? = some 0xFFFFFFF800000000 := by decide +kernel

theorem witness_AllMissingFillsTheRow : ∃ (s : State) (t : Transient), s.transient = some t :=
  ⟨decoding (atRow [0x0100000000000000] 1 0 0 1 3), _, rfl⟩

/-- The base word beyond the limit, and just below it. -/
theorem witness_ConstantFillsTheRow :
    (∃ (s : State) (t : Transient), s.transient = some t ∧ t.lim = t.cur + 1) ∧
    ∃ (s : State) (t : Transient) (base : Word), s.transient = some t ∧ t.lim = t.cur + 2 ∧ t.work[t.cur + 1]? = some base :=
  ⟨⟨decoding (atRow [0x0200000000000000] 1 0 0 1 3), _, rfl, rfl⟩,
    ⟨decoding (atRow [0x0200000000000000, 7] 2 0 0 1 3), _, 7, rfl, rfl, rfl⟩⟩

/-- One word short, and exactly enough with pad bits that are ones. -/
theorem witness_NormalDecodesTheCodes :
    (∃ (s : State) (t : Transient), s.transient = some t ∧ (Instr.normal 1).wellFormed s.cfg.bMax = true ∧
      t.lim + 1 = t.cur + 2 + (t.cols * 1 + 63) / 64) ∧
    ∃ (s : State) (t : Transient) (base : Word) (codes : List Nat) (pad : List Bool), s.transient = some t ∧
      (Instr.normal 1).wellFormed s.cfg.bMax = true ∧ t.lim = t.cur + 2 + (t.cols * 1 + 63) / 64 ∧
      t.work[t.cur + 1]? = some base ∧ codes.length = t.cols ∧ (∀ k ∈ codes, k < 2 ^ 1) ∧
      unpack64 ((t.work.drop (t.cur + 2)).take ((t.cols * 1 + 63) / 64)) = codeBits 1 codes ++ pad :=
  ⟨⟨decoding (atRow [0x0301000000000000, 7] 2 0 0 1 2), _, rfl, by decide, rfl⟩,
    ⟨decoding (atRow [0x0301000000000000, 7, 0x7FFFFFFFFFFFFFFF] 3 0 0 1 2), _, 7, [0, 1], List.replicate 62 true, rfl,
      by decide, rfl, rfl, rfl, by decide, by decide +kernel⟩⟩

theorem witness_DescriptorIsCheckedFirst :
    (∃ (s : State) (t : Transient), s.transient = some t ∧ t.row < t.rows ∧ t.lim = t.cur) ∧
    ∃ (s : State) (t : Transient) (d : Word), s.transient = some t ∧ t.row < t.rows ∧ t.lim = t.cur + 1 ∧
      t.work[t.cur]? = some d ∧ decodeDescriptor s.cfg.bMax d = none :=
  ⟨⟨decoding (atRow [] 0 0 0 1 2), _, rfl, by decide, rfl⟩,
    ⟨decoding (atRow [0] 1 0 0 1 2), _, 0, rfl, by decide, rfl, rfl, by decide⟩⟩

/-- A non-finite base; a sum of zero; a sum at the overflow bound; a sum below it. -/
theorem witness_ReconstructionRoundsTheExactSumOnce :
    isFinite 0xFFF0000000000000 = false ∧
    (isFinite 0xBFF0000000000000 = true ∧ real 0xBFF0000000000000 + (1 : Nat) * (2 : ℚ) ^ (0 : Int) = 0) ∧
    (isFinite 0 = true ∧ overflowBound ≤ real 0 + (1 : Nat) * (2 : ℚ) ^ (1024 : Int)) ∧
    real 0 + (1 : Nat) * (2 : ℚ) ^ (0 : Int) < overflowBound := by
  have h0 := real_of 0 false 0 0 (by decide) (by decide) (by decide)
  have h1 := real_of 0xBFF0000000000000 true 1023 0 (by decide) (by decide) (by decide)
  refine ⟨by decide, ⟨by decide, ?_⟩, ⟨by decide, ?_⟩, ?_⟩ <;> first | rw [h0] | rw [h1]
  · norm_num
  · norm_num [overflowBound]
  · have h : (1 : ℚ) ≤ 2 ^ 970 := one_le_pow₀ (by norm_num)
    have h2 : (2 : ℚ) ^ 1024 = 2 ^ 970 * 2 ^ 54 := by rw [← pow_add]
    rw [overflowBound, h2]
    generalize (2 : ℚ) ^ 970 = x at h
    norm_num
    linarith

/-- A NaN; the two zeros; an infinity. -/
theorem witness_FloatEqualityIsIeee : isNaN 0x7FF8000000000000 = true ∧ isFinite 0 = true ∧ isFinite 0x8000000000000000 = true ∧
    isNaN 0x7FF0000000000000 = false ∧ isFinite 0x7FF0000000000000 = false := by decide

/-- A CONSTANT record at the end of its buffer. -/
theorem witness_UnpackRowWritesTheCells : ∃ (s : State) (a n off cols m e o k : Word) (cells : List Word) (kind len : Nat),
    s.operandsAre [a, n, off, cols, m, e, o, k] ∧ n.toNat % 8 = 0 ∧ inDim cols ∧ inAcc e ∧ 8 * cols.toNat ≤ k.toNat ∧
      admitsRegion s.cfg a.toNat n.toNat = true ∧ admitsRegion s.cfg o.toNat (8 * cols.toNat) = true ∧
      RecordDecodes s.cfg.bMax (s.cellsAt a.toNat (n.toNat / 8)) (n.toNat / 8) cols.toNat m e.toInt off.toNat cells kind len :=
  ⟨sample .big [0, 24, 1, 2, mdi, 0, 0x3000, 16] (wordsAt .big 0 [0, 0x0200000000000000, 5]), 0, 24, 1, 2, mdi, 0, 0x3000, 16,
    _, _, _, sample_operands _ _ _, by decide, ⟨by decide, by decide⟩, ⟨by decide, by decide⟩, by decide, by decide, by decide,
    .constant 5 (by decide +kernel) (by decide +kernel) (by decide)⟩

/-- UE1 to UE4 and the last values that pass. -/
theorem witness_UnpackRowChecksInOrder :
    (∀ vs : List Word, (sample .big vs []).operandsAre vs) ∧ (12 : Word).toNat % 8 ≠ 0 ∧ (8 : Word).toNat % 8 = 0 ∧
      ¬ inDim 0 ∧ inDim 2 ∧ ¬ inAcc 0xFFFFFFFF7FFFFFFF ∧ inAcc 0xFFFFFFFF80000000 ∧
      (15 : Word).toNat < 8 * (2 : Word).toNat := by
  refine ⟨fun vs => sample_operands _ _ _, ?_⟩
  unfold inDim inAcc
  decide

/-- An offset at the end; an illegal descriptor; a CONSTANT and a NORMAL record one word short. -/
theorem witness_UnpackRowReportsABadRecord :
    (∀ d, ∃ s : State, s.operandsAre [0, 8, 1, 2, mdi, 0, 0x3000, 16] ∧
      admitsRegion s.cfg (0 : Word).toNat (8 : Word).toNat = true ∧ (8 : Word).toNat / 8 ≤ (1 : Word).toNat ∧
      s.cfg.bMax = 31 ∧ s.mem = wordsAt .big 0 [d]) ∧
    (∀ d ∈ [(0 : Word), 0x0200000000000000, 0x0301000000000000],
      ((sample .big [0, 8, 0, 2, mdi, 0, 0x3000, 16] (wordsAt .big 0 [d])).cellsAt 0 (8 / 8))[0]? = some d) ∧
    decodeDescriptor 31 0 = none ∧ decodeDescriptor 31 0x0200000000000000 = some .constant ∧ 8 / 8 ≤ 0 + 1 ∧
    decodeDescriptor 31 0x0301000000000000 = some (.normal 1) ∧ 8 / 8 < 0 + 2 + wordsFor (2 * 1) :=
  ⟨fun d => ⟨sample .big [0, 8, 1, 2, mdi, 0, 0x3000, 16] (wordsAt .big 0 [d]), sample_operands _ _ _, by rfl, by decide, rfl, rfl⟩,
    all_of _ (by decide +kernel), by decide, by decide, by decide, by decide, by decide⟩

/-- PR3. -/
theorem witness_PackThenUnpackRoundTrip : ∃ (s : State) (a n cols m e o k : Word) (cells : List Word) (r : Nat) (record : RowRecord),
    s.operandsAre [a, n, 0, cols, m, e, o, k] ∧ inDim cols ∧ inAcc e ∧ cells.length = cols.toNat ∧
      Machine.packRow s.cfg.bMax cells m e.toInt r = .ok record ∧ n.toNat = 8 * record.words.length ∧
      s.cellsAt a.toNat record.words.length = record.words ∧ 8 * cols.toNat ≤ k.toNat ∧
      admitsRegion s.cfg a.toNat n.toNat = true ∧ admitsRegion s.cfg o.toNat (8 * cols.toNat) = true :=
  ⟨sample .big [0, 24, 0, 2, mdi, 0, 0x3000, 16] (wordsAt .big 0 [0x0301000000000000, 0x3FF0000000000000, 0x4000000000000000]),
    0, 24, 2, mdi, 0, 0x3000, 16, [0x3FF0000000000000, mdi], 0,
    ⟨[0x0301000000000000, 0x3FF0000000000000, 0x4000000000000000], 3, 1⟩, sample_operands _ _ _, ⟨by decide, by decide⟩,
    ⟨by decide, by decide⟩, by decide, by decide +kernel, by decide, by decide +kernel, by decide, by decide, by decide⟩

/-- The row 1.0, 2.0, 4.0 of PR4 is exact at accuracy 0. -/
theorem exact_row_pr4 : exactRow [0x3FF0000000000000, 0x4000000000000000, 0x4010000000000000] mdi 0 := by
  have hb : rowBase [0x3FF0000000000000, 0x4000000000000000, 0x4010000000000000] mdi = some 0x3FF0000000000000 := by decide +kernel
  have hp : presentCells [0x3FF0000000000000, 0x4000000000000000, 0x4010000000000000] mdi =
      [0x3FF0000000000000, 0x4000000000000000, 0x4010000000000000] := by decide +kernel
  refine ⟨by decide, fun base hbase c hc => ?_⟩
  rw [hb, Option.mem_some] at hbase
  subst hbase
  rw [hp] at hc
  have h1 : cellCode 0x3FF0000000000000 0x3FF0000000000000 0 = 0 := by decide +kernel
  have h2 : cellCode 0x3FF0000000000000 0x4000000000000000 0 = 1 := by decide +kernel
  have h3 : cellCode 0x3FF0000000000000 0x4010000000000000 0 = 3 := by decide +kernel
  have r1 : recon 0x3FF0000000000000 0 0 = 0x3FF0000000000000 := by decide +kernel
  have r2 : recon 0x3FF0000000000000 1 0 = 0x4000000000000000 := by decide +kernel
  have r3 : recon 0x3FF0000000000000 3 0 = 0x4010000000000000 := by decide +kernel
  have v1 := real_of 0x3FF0000000000000 false 1023 0 (by decide) (by decide) (by decide)
  have v2 := real_of 0x4000000000000000 false 1024 0 (by decide) (by decide) (by decide)
  have v3 := real_of 0x4010000000000000 false 1025 0 (by decide) (by decide) (by decide)
  simp only [List.mem_cons, List.not_mem_nil, or_false] at hc
  rcases hc with rfl | rfl | rfl
  · rw [h1, r1]; exact ⟨by decide, by norm_num, by decide +kernel⟩
  · rw [h2, r2]; exact ⟨by decide, by rw [v1, v2]; norm_num, by decide +kernel⟩
  · rw [h3, r3]; exact ⟨by decide, by rw [v1, v3]; norm_num, by decide +kernel⟩

theorem witness_ReEncodeGivesTheSameRecord : ∃ (cells : List Word) (record : RowRecord),
    Machine.packRow 31 cells mdi 0 0 = .ok record ∧ exactRow cells mdi 0 :=
  ⟨[0x3FF0000000000000, 0x4000000000000000, 0x4010000000000000],
    ⟨[0x0303000000000000, 0x3FF0000000000000, 0x0580000000000000], 3, 3⟩, by decide +kernel, exact_row_pr4⟩

/-- A field of one row of PR2's cells at its exact capacity. -/
theorem witness_EncodeFieldWritesTheStream : ∃ (s : State) (a n rows cols m e o k : Word) (payload : List Word),
    s.operandsAre [a, n, rows, cols, m, e, o, k] ∧ inDim rows ∧ inDim cols ∧ n.toNat = rows.toNat * cols.toNat ∧ inAcc e ∧
      admitsRegion s.cfg a.toNat (8 * n.toNat) = true ∧
      packRows s.cfg.bMax cols.toNat m e.toInt rows.toNat 0 (s.cellsAt a.toNat n.toNat) = .ok payload ∧
      payload.length ≤ 2 ^ 32 - 1 ∧ 8 * (2 + payload.length) ≤ k.toNat ∧
      admitsRegion s.cfg o.toNat (8 * (2 + payload.length)) = true :=
  ⟨sample .big [0, 2, 1, 2, mdi, 0, 0x2000, 32] (wordsAt .big 0 [5, 5]), 0, 2, 1, 2, mdi, 0, 0x2000, 32,
    [0x0200000000000000, 5], sample_operands _ _ _, ⟨by decide, by decide⟩, ⟨by decide, by decide⟩, by decide,
    ⟨by decide, by decide⟩, by decide, by decide +kernel, by decide, by decide, by decide⟩

/-- EF1 to EF6. -/
theorem witness_EncodeFieldChecksInOrder :
    (∀ o, ∀ vs : List Word, ∀ m, (sample o vs m).operandsAre vs) ∧ ¬ inDim 0 ∧ ¬ inDim 0x80000000 ∧ inDim 2 ∧
    (3 : Word).toNat ≠ (2 : Word).toNat * (2 : Word).toNat ∧ (4 : Word).toNat = (2 : Word).toNat * (2 : Word).toNat ∧
    ¬ inAcc 0x80000000 ∧ inAcc 0 ∧ admitsRegion (sample .big [] []).cfg 0x1000 32 = true ∧
    packRows 31 2 mdi 0 2 0 [0x3FF0000000000000, 0x4000000000000000, 0, 0x41DFFFFFFFC00000] = .error (.accuracyOverflow 1) ∧
    (∃ payload, packRows 31 2 mdi 1 2 0 [0x3FF0000000000000, 0x4000000000000000, 0, 0x41DFFFFFFFC00000] = .ok payload ∧
      payload.length ≤ 2 ^ 32 - 1 ∧ 63 < 8 * (2 + payload.length)) := by
  refine ⟨fun o vs m => sample_operands _ _ _, ?_, ?_, ?_, by decide, by decide, ?_, ?_, by decide, by decide +kernel,
    [0x0302000000000000, 0x3FF0000000000000, 0x1000000000000000, 0x031F000000000000, 0, 0x0000000100000000], by decide +kernel, ?_, ?_⟩ <;>
    first | (unfold inDim; decide) | (unfold inAcc; decide) | decide +kernel

theorem witness_PayloadIsTheRecordsInRowOrder :
    (∃ payload, packRows 31 1 mdi 0 2 0 [5, mdi] = .ok payload) ∧
    ∃ err, packRows 31 1 mdi 0 2 0 [5, 0x7FF0000000000000] = .error err :=
  ⟨⟨[0x0200000000000000, 5, 0x0100000000000000], by decide +kernel⟩, ⟨.accuracyOverflow 1, by decide +kernel⟩⟩

/-- A stream of one all-missing row of one column. -/
def tinyStream : Memory := wordsAt .big 0x2000 [0x0000000000000001, 0x0000000100000001, 0x0100000000000000]

theorem tiny_setting (er ec o : Word) (h : (er = 0 ∧ ec = 0) ∨ (er = 1 ∧ ec = 1)) :
    DecodeFieldSetting (sample .big [0x2000, 24, mdi, er, ec, o, 8] tinyStream) 0x2000 24 mdi er ec o 8
      [0x0000000000000001, 0x0000000100000001, 0x0100000000000000] 0 1 1 1 where
  operands := sample_operands _ _ _
  whole := by decide
  admitted := by rfl
  stream := by
    have : ∀ s : State, s.mem = tinyStream → s.streamAt 0x2000 3 =
        [0x0000000000000001, 0x0000000100000001, 0x0100000000000000] := by
      intro s hs; unfold State.streamAt; rw [hs]; decide +kernel
    exact this _ rfl
  header := ⟨_, _, _, rfl, by decide, by decide, by decide, by decide⟩
  cols_pos := by decide
  rows_pos := by decide
  fits := by decide
  shape := by rcases h with h | ⟨rfl, rfl⟩; exact .inl h; exact .inr (by decide)
  capacity := by decide

/-- With no expected shape and with the header's. -/
theorem witness_DecodeFieldWritesTheField : ∀ er ∈ [(0 : Word), 1],
    DecodeFieldSetting (sample .big [0x2000, 24, mdi, er, er, 0x3000, 8] tinyStream) 0x2000 24 mdi er er 0x3000 8
      [0x0000000000000001, 0x0000000100000001, 0x0100000000000000] 0 1 1 1 ∧
    (∃ cells, RowsDecode 31 [0x0000000000000001, 0x0000000100000001, 0x0100000000000000] (2 + 1) 1 mdi 0 1 2 cells (2 + 1)) ∧
    admitsRegion (sample .big [0x2000, 24, mdi, er, er, 0x3000, 8] tinyStream).cfg (0x3000 : Word).toNat (8 * 1 * 1) = true := by
  intro er her
  refine ⟨tiny_setting er er 0x3000 ?_, ⟨_, .cons (.allMissing (by decide) (by decide)) (.nil 3)⟩, by rfl⟩
  rcases List.mem_pair.mp her with rfl | rfl
  · exact .inl ⟨rfl, rfl⟩
  · exact .inr ⟨rfl, rfl⟩

/-- A stream of one row of one column with the descriptor `d`, `p` declared payload words, and one word after it. -/
def shortField (p : Nat) (d : Word) : State :=
  sample .big [0x2000, 32, mdi, 0, 0, 0x3000, 8] (wordsAt .big 0x2000 [1, 0x0000000100000000 + BitVec.ofNat 64 p, d, 0])

theorem short_setting (p : Nat) (d : Word) (hp : p ≤ 2)
    (hs : (shortField p d).streamAt 0x2000 4 = [1, 0x0000000100000000 + BitVec.ofNat 64 p, d, 0])  :
    DecodeFieldSetting (shortField p d) 0x2000 32 mdi 0 0 0x3000 8
      [1, 0x0000000100000000 + BitVec.ofNat 64 p, d, 0] 0 1 1 p where
  operands := sample_operands _ _ _
  whole := by decide
  admitted := by rfl
  stream := hs
  header := by
    refine ⟨_, _, _, rfl, by decide, by decide, ?_⟩
    have : p = 0 ∨ p = 1 ∨ p = 2 := by omega
    rcases this with rfl | rfl | rfl <;> decide
  cols_pos := by decide
  rows_pos := by decide
  fits := by show 2 + p ≤ 32 / 8; omega
  shape := .inl (by decide)
  capacity := by decide

/-- Rows that end before the payload does; no words for the first row; an illegal descriptor; a CONSTANT and a NORMAL record one word
short. -/
theorem witness_DecodeFieldReportsTheFirstBadRow :
    (DecodeFieldSetting (shortField 2 0x0100000000000000) 0x2000 32 mdi 0 0 0x3000 8
        [1, 0x0000000100000002, 0x0100000000000000, 0] 0 1 1 2 ∧
      ∃ cells stop, RowsDecode 31 [1, 0x0000000100000002, 0x0100000000000000, 0] (2 + 2) 1 mdi 0 1 2 cells stop ∧ stop ≠ 2 + 2) ∧
    (DecodeFieldSetting (shortField 0 0) 0x2000 32 mdi 0 0 0x3000 8 [1, 0x0000000100000000, 0, 0] 0 1 1 0 ∧
      RowsDecode 31 [1, 0x0000000100000000, 0, 0] (2 + 0) 1 mdi 0 0 2 [] 2 ∧ 2 + 0 ≤ 2) ∧
    (DecodeFieldSetting (shortField 1 0) 0x2000 32 mdi 0 0 0x3000 8 [1, 0x0000000100000001, 0, 0] 0 1 1 1 ∧
      RowsDecode 31 [1, 0x0000000100000001, 0, 0] (2 + 1) 1 mdi 0 0 2 [] 2 ∧ 2 < 2 + 1 ∧ decodeDescriptor 31 0 = none) ∧
    (DecodeFieldSetting (shortField 1 0x0200000000000000) 0x2000 32 mdi 0 0 0x3000 8
        [1, 0x0000000100000001, 0x0200000000000000, 0] 0 1 1 1 ∧
      RowsDecode 31 [1, 0x0000000100000001, 0x0200000000000000, 0] (2 + 1) 1 mdi 0 0 2 [] 2 ∧
      decodeDescriptor 31 0x0200000000000000 = some .constant ∧ 2 + 1 ≤ 2 + 1) ∧
    DecodeFieldSetting (shortField 2 0x0301000000000000) 0x2000 32 mdi 0 0 0x3000 8
        [1, 0x0000000100000002, 0x0301000000000000, 0] 0 1 1 2 ∧
      RowsDecode 31 [1, 0x0000000100000002, 0x0301000000000000, 0] (2 + 2) 1 mdi 0 0 2 [] 2 ∧
      decodeDescriptor 31 0x0301000000000000 = some (.normal 1) ∧ 2 + 2 < 2 + 2 + wordsFor (1 * (1 : BitVec 8).toNat) := by
  refine ⟨⟨short_setting 2 _ (by decide) (by decide +kernel), _, _, .cons (.allMissing (by decide) (by decide)) (.nil 3), by decide⟩,
    ⟨short_setting 0 _ (by decide) (by decide +kernel), .nil 2, by decide⟩,
    ⟨short_setting 1 _ (by decide) (by decide +kernel), .nil 2, by decide, by decide⟩,
    ⟨short_setting 1 _ (by decide) (by decide +kernel), .nil 2, by decide, by decide⟩,
    short_setting 2 _ (by decide) (by decide +kernel), .nil 2, by decide, by decide⟩

/-- DF6, DF7, DF8, DF9, DF10, DF3, DF5. -/
theorem witness_DecodeFieldChecksInOrder :
    (∀ o, ∀ vs : List Word, ∀ m, (sample o vs m).operandsAre vs) ∧ (20 : Word).toNat % 8 ≠ 0 ∧
    (8 : Word).toNat % 8 = 0 ∧ (8 : Word).toNat < 16 ∧ admitsRegion (sample .big [] []).cfg 0x2000 16 = true ∧
    (sample .big [] (wordsAt .big 0x2000 [0, 1])).streamAt 0x2000 2 = 0 :: 1 :: [] ∧
    (sample .big [] (wordsAt .big 0x2000 [1, 0])).streamAt 0x2000 2 = 1 :: 0 :: [] ∧
    (sample .big [] (wordsAt .big 0x2000 [1, 0x0000000100000001])).streamAt 0x2000 2 = 1 :: 0x0000000100000001 :: [] ∧
    (sample .big [] (wordsAt .big 0x2000 [1, 0x0000000100000000])).streamAt 0x2000 2 = 1 :: 0x0000000100000000 :: [] ∧
    ((0 : Word).extractLsb' 0 32).toInt ≤ 0 ∧ 0 < ((1 : Word).extractLsb' 0 32).toInt ∧
    ((0 : Word).extractLsb' 32 32).toInt ≤ 0 ∧ 0 < ((0x0000000100000000 : Word).extractLsb' 32 32).toInt ∧
    16 / 8 < 2 + ((0x0000000100000001 : Word).extractLsb' 0 32).toNat ∧
    2 + ((0x0000000100000000 : Word).extractLsb' 0 32).toNat ≤ 16 / 8 ∧
    ¬ ((0 : Word) = 0 ∧ (1 : Word) = 0) ∧ ¬ ((0 : Word).toInt = 1 ∧ (1 : Word).toInt = 1) ∧
    ((7 : Word).toNat : Int) < 8 * 1 * 1 := by
  refine ⟨fun o vs m => sample_operands _ _ _, ?_⟩
  decide +kernel

/-- A field of one row, PR4's cells, encoded. -/
def fieldState : State :=
  sample .big [0, 3, 1, 3, mdi, 0, 0x2000, 64] (wordsAt .big 0 [0x3FF0000000000000, 0x4000000000000000, 0x4010000000000000])

/-- Its stream, about to be decoded. -/
def fieldState' (er ec : Word) : State :=
  sample .big [0x2000, 40, mdi, er, ec, 0x3000, 24] (after (exec .encodeField fieldState)).mem

/-- With no expected shape and with the field's. -/
theorem witness_FieldRoundTrip : ∃ t : State, fieldState.operandsAre [0, 3, 1, 3, mdi, 0, 0x2000, 64] ∧
    exec .encodeField fieldState = .next t ∧ t.status = 0x00 ∧ t.res.res0 = some 40 ∧
    ∀ q ∈ [((0, 0) : Word × Word), (1, 3)], (fieldState' q.1 q.2).cfg = fieldState.cfg ∧ (fieldState' q.1 q.2).mem = t.mem ∧
      (fieldState' q.1 q.2).operandsAre [0x2000, 40, mdi, q.1, q.2, 0x3000, 24] ∧
      ((q.1 = 0 ∧ q.2 = 0) ∨ (q.1 = 1 ∧ q.2 = 3)) ∧ 8 * (3 : Word).toNat ≤ (24 : Word).toNat ∧
      admitsRegion fieldState.cfg (0x3000 : Word).toNat (8 * (3 : Word).toNat) = true := by
  refine ⟨_, sample_operands _ _ _, next_after _ (by decide +kernel), by decide +kernel, by decide +kernel, fun q hq =>
    ⟨sample_cfg _ _ _ _ _, sample_mem _ _ _, sample_operands _ _ _, ?_, by decide, by rfl⟩⟩
  rcases List.mem_pair.mp hq with rfl | rfl
  · exact .inl ⟨rfl, rfl⟩
  · exact .inr ⟨rfl, rfl⟩

theorem witness_FieldReEncode : ∃ (t u s'' : State), fieldState.operandsAre [0, 3, 1, 3, mdi, 0, 0x2000, 64] ∧
    exec .encodeField fieldState = .next t ∧ t.status = 0x00 ∧ t.res.res0 = some 40 ∧
    (∀ r < (1 : Word).toNat, exactRow (rowCells (3 : Word).toNat r (fieldState.cellsAt (0 : Word).toNat (3 : Word).toNat)) mdi
      (0 : Word).toInt) ∧
    (fieldState' 0 0).cfg = fieldState.cfg ∧ (fieldState' 0 0).mem = t.mem ∧ (fieldState' 0 0).operandsAre [0x2000, 40, mdi, 0, 0, 0x3000, 24] ∧
    exec .decodeField (fieldState' 0 0) = .next u ∧ u.status = 0x00 ∧ s''.cfg = fieldState.cfg ∧ s''.mem = u.mem ∧
    s''.operandsAre [0x3000, 3, 1, 3, mdi, 0, 0x4000, 40] ∧ (40 : Word).toNat ≤ (40 : Word).toNat ∧
    admitsRegion fieldState.cfg (0x4000 : Word).toNat (40 : Word).toNat = true := by
  refine ⟨_, _, sample .big [0x3000, 3, 1, 3, mdi, 0, 0x4000, 40] (after (exec .decodeField (fieldState' 0 0))).mem,
    sample_operands _ _ _, next_after _ (by decide +kernel), by decide +kernel, by decide +kernel, ?_, sample_cfg _ _ _ _ _,
    sample_mem _ _ _, sample_operands _ _ _, next_after _ (by decide +kernel), by decide +kernel, sample_cfg _ _ _ _ _,
    sample_mem _ _ _, sample_operands _ _ _, by decide,
    by rfl⟩
  intro r hr
  have h0 : r = 0 := by have : (1 : Word).toNat = 1 := rfl; omega
  have hc : rowCells (3 : Word).toNat 0 (fieldState.cellsAt (0 : Word).toNat (3 : Word).toNat) =
      [0x3FF0000000000000, 0x4000000000000000, 0x4010000000000000] := by decide +kernel
  rw [h0, hc]
  exact exact_row_pr4

/-- A region of the sample host whose first byte that is not admitted is the one at 0x10000. -/
theorem sample_missing (o : ByteOrder) (vs : List Word) (m : Memory) (a n : Nat) (h1 : a ≤ 0x10000) (h2 : 0x10000 < a + n) :
    regionMissing (sample o vs m).cfg a n := .inr ⟨0x10000, h1, h2, rfl⟩

/-- Clause by clause: lengths at the edge of the first check, regions whose last byte alone is not admitted, and one that ends just past
2^64. -/
theorem witness_ChecksAndStuckAccessesInRuleOrder :
    (∀ n ∈ [(12 : Word), 16], (sample .big [0xFFF8, n] []).operandsAre [0xFFF8, n] ∧
      regionMissing (sample .big [0xFFF8, n] []).cfg (0xFFF8 : Word).toNat n.toNat) ∧
    (∀ a ∈ [(0xFFF1 : Word), 0xFFFFFFFFFFFFFFF1], ∀ n ∈ [(15 : Word), 16], (sample .big [a, n] []).operandsAre [a, n] ∧
      regionMissing (sample .big [a, n] []).cfg a.toNat 16) ∧
    ((sample .big [0, 1, 1, 0, 0xFFF1, 16] []).operandsAre [0, 1, 1, 0, 0xFFF1, 16] ∧ inDim 1 ∧ inAcc 0 ∧
      (0 : Word).toNat ≤ 2 ^ 32 - 1 ∧ 16 ≤ (16 : Word).toNat ∧
      regionMissing (sample .big [0, 1, 1, 0, 0xFFF1, 16] []).cfg (0xFFF1 : Word).toNat 16) ∧
    ((sample .big [0xFFF9, 1, mdi, 0, 0x1000, 8] []).operandsAre [0xFFF9, 1, mdi, 0, 0x1000, 8] ∧
      regionMissing (sample .big [0xFFF9, 1, mdi, 0, 0x1000, 8] []).cfg (0xFFF9 : Word).toNat (8 * (1 : Word).toNat)) ∧
    (∃ s record, s = sample .big [0, 1, mdi, 0, 0xFFF1, 16] (wordsAt .big 0 [5]) ∧ s.operandsAre [0, 1, mdi, 0, 0xFFF1, 16] ∧
      admitsRegion s.cfg (0 : Word).toNat (8 * (1 : Word).toNat) = true ∧
      Machine.packRow s.cfg.bMax (s.cellsAt (0 : Word).toNat (1 : Word).toNat) mdi (0 : Word).toInt 0 = .ok record ∧
      8 * record.words.length ≤ (16 : Word).toNat ∧ regionMissing s.cfg (0xFFF1 : Word).toNat (8 * record.words.length)) ∧
    ((sample .big [0xFFF9, 8, 0, 1, mdi, 0, 0x3000, 8] []).operandsAre [0xFFF9, 8, 0, 1, mdi, 0, 0x3000, 8] ∧ (8 : Word).toNat % 8 = 0 ∧
      8 * (1 : Word).toNat ≤ (8 : Word).toNat ∧
      regionMissing (sample .big [0xFFF9, 8, 0, 1, mdi, 0, 0x3000, 8] []).cfg (0xFFF9 : Word).toNat (8 : Word).toNat) ∧
    (∃ s cells kind len, s = sample .big [0, 8, 0, 1, mdi, 0, 0xFFF9, 8] (wordsAt .big 0 [0x0100000000000000]) ∧
      s.operandsAre [0, 8, 0, 1, mdi, 0, 0xFFF9, 8] ∧ admitsRegion s.cfg (0 : Word).toNat (8 : Word).toNat = true ∧
      RecordDecodes s.cfg.bMax (s.cellsAt (0 : Word).toNat ((8 : Word).toNat / 8)) ((8 : Word).toNat / 8) (1 : Word).toNat mdi
        (0 : Word).toInt (0 : Word).toNat cells kind len ∧
      regionMissing s.cfg (0xFFF9 : Word).toNat (8 * (1 : Word).toNat)) ∧
    ((sample .big [0xFFF9, 1, 1, 1, mdi, 0, 0x2000, 32] []).operandsAre [0xFFF9, 1, 1, 1, mdi, 0, 0x2000, 32] ∧
      (1 : Word).toNat = (1 : Word).toNat * (1 : Word).toNat ∧
      regionMissing (sample .big [0xFFF9, 1, 1, 1, mdi, 0, 0x2000, 32] []).cfg (0xFFF9 : Word).toNat (8 * (1 : Word).toNat)) ∧
    (∃ s payload, s = sample .big [0, 1, 1, 1, mdi, 0, 0xFFE1, 32] (wordsAt .big 0 [5]) ∧
      s.operandsAre [0, 1, 1, 1, mdi, 0, 0xFFE1, 32] ∧ admitsRegion s.cfg (0 : Word).toNat (8 * (1 : Word).toNat) = true ∧
      packRows s.cfg.bMax (1 : Word).toNat mdi (0 : Word).toInt (1 : Word).toNat 0 (s.cellsAt (0 : Word).toNat (1 : Word).toNat) = .ok payload ∧
      payload.length ≤ 2 ^ 32 - 1 ∧ 8 * (2 + payload.length) ≤ (32 : Word).toNat ∧
      regionMissing s.cfg (0xFFE1 : Word).toNat (8 * (2 + payload.length))) ∧
    (∀ n ∈ [(12 : Word), 16], (sample .big [0xFFF8, n, mdi, 0, 0, 0, 8] []).operandsAre [0xFFF8, n, mdi, 0, 0, 0, 8] ∧
      regionMissing (sample .big [0xFFF8, n, mdi, 0, 0, 0, 8] []).cfg (0xFFF8 : Word).toNat n.toNat) ∧
    ∃ s work cells, s = sample .big [0x2000, 24, mdi, 0, 0, 0xFFF9, 8] tinyStream ∧
      DecodeFieldSetting s 0x2000 24 mdi 0 0 0xFFF9 8 work 0 1 1 1 ∧ RowsDecode s.cfg.bMax work (2 + 1) 1 mdi 0 1 2 cells (2 + 1) ∧
      regionMissing s.cfg (0xFFF9 : Word).toNat (8 * 1 * 1) := by
  refine ⟨fun n hn => ⟨sample_operands _ _ _, sample_missing _ _ _ _ _ (by decide) ?_⟩, fun a ha n _ => ⟨sample_operands _ _ _, ?_⟩,
    ⟨sample_operands _ _ _, ⟨by decide, by decide⟩, ⟨by decide, by decide⟩, by decide, by decide,
      sample_missing _ _ _ _ _ (by decide) (by decide)⟩,
    ⟨sample_operands _ _ _, sample_missing _ _ _ _ _ (by decide) (by decide)⟩,
    ⟨_, ⟨[0x0200000000000000, 5], 2, 0⟩, rfl, sample_operands _ _ _, by decide, by decide +kernel, by decide,
      sample_missing _ _ _ _ _ (by decide) (by decide)⟩,
    ⟨sample_operands _ _ _, by decide, by decide, sample_missing _ _ _ _ _ (by decide) (by decide)⟩,
    ⟨_, _, _, _, rfl, sample_operands _ _ _, by decide, .allMissing (by decide +kernel) (by decide),
      sample_missing _ _ _ _ _ (by decide) (by decide)⟩,
    ⟨sample_operands _ _ _, by decide, sample_missing _ _ _ _ _ (by decide) (by decide)⟩,
    ⟨_, [0x0200000000000000, 5], rfl, sample_operands _ _ _, by decide, by decide +kernel, by decide, by decide,
      sample_missing _ _ _ _ _ (by decide) (by decide)⟩,
    fun n hn => ⟨sample_operands _ _ _, sample_missing _ _ _ _ _ (by decide) ?_⟩,
    ⟨_, _, _, rfl, tiny_setting 0 0 0xFFF9 (.inl ⟨rfl, rfl⟩), .cons (.allMissing (by decide) (by decide)) (.nil 3),
      sample_missing _ _ _ _ _ (by decide) (by decide)⟩⟩
  · rcases List.mem_pair.mp hn with rfl | rfl <;> decide
  · rcases List.mem_pair.mp ha with rfl | rfl
    · exact sample_missing _ _ _ _ _ (by decide) (by decide)
    · exact .inl (by decide)
  · rcases List.mem_pair.mp hn with rfl | rfl <;> decide

/-- A BIG and a LITTLE host with the same cells, and with the same stream bytes. -/
theorem witness_FieldCommandsDoNotDependOnHostOrder :
    (∃ t, (sample .big [0, 1, 1, 1, mdi, 0, 0x2000, 64] (wordsAt .big 0 [5])).operandsAre [0, 1, 1, 1, mdi, 0, 0x2000, 64] ∧
      (sample .little [0, 1, 1, 1, mdi, 0, 0x2000, 64] (wordsAt .little 0 [5])).cellsAt 0 1 =
        (sample .big [0, 1, 1, 1, mdi, 0, 0x2000, 64] (wordsAt .big 0 [5])).cellsAt 0 1 ∧
      exec .encodeField (sample .big [0, 1, 1, 1, mdi, 0, 0x2000, 64] (wordsAt .big 0 [5])) = .next t ∧ t.status = 0x00) ∧
    ∃ t, (sample .big [0x2000, 24, mdi, 0, 0, 0x3000, 8] tinyStream).operandsAre [0x2000, 24, mdi, 0, 0, 0x3000, 8] ∧
      (sample .little [0x2000, 24, mdi, 0, 0, 0x3000, 8] tinyStream).args =
        (sample .big [0x2000, 24, mdi, 0, 0, 0x3000, 8] tinyStream).args ∧
      exec .decodeField (sample .big [0x2000, 24, mdi, 0, 0, 0x3000, 8] tinyStream) = .next t ∧ t.status = 0x00 :=
  ⟨⟨_, sample_operands _ _ _, by decide +kernel, next_after _ (by decide +kernel), by decide +kernel⟩,
    ⟨_, sample_operands _ _ _, rfl, next_after _ (by decide +kernel), by decide +kernel⟩⟩

theorem witness_CommandSyntaxRunsTheCommand : ∃ (c : AsmCommand) (s : State) (rest : List HostEvent), s.transient = none ∧
    s.host = c.hostWrites ++ rest :=
  ⟨.unpackRow 0 8 0 1 mdi 0 0x3000 8, queued (AsmCommand.unpackRow 0 8 0 1 mdi 0 0x3000 8).hostWrites, [], rfl,
    (List.append_nil _).symm⟩

end Sys2Proof.Tests
end

section
/-! Proofs for 30_encoding, sections 2 and 4: the illegal command words (R63), the legal descriptors (R77), and the place of
the codes in the words of a NORMAL record (R74). -/

namespace Sys2Proof.Machine

/-! ### The fields of a word as numbers -/

theorem topByte_toNat (w : Word) : (w.extractLsb' 56 8).toNat = w.toNat / 2 ^ 56 := by
  have hw := w.isLt
  rw [field_toNat]
  omega

theorem lowField_eq_zero_iff (w : Word) (n : Nat) : w.extractLsb' 0 n = 0#n ↔ w.toNat % 2 ^ n = 0 := by
  rw [← BitVec.toNat_inj, field_toNat]
  simp

/-! ### Illegal command words -/

/-- The illegal command words of R63: an opcode outside 1 to 7, or a reserved bit that is set. -/
theorem decodeCommand_eq_none_iff (v : Word) :
    decodeCommand v = none ↔ v.toNat / 2 ^ 56 < 1 ∨ 7 < v.toNat / 2 ^ 56 ∨ v.toNat % 2 ^ 56 ≠ 0 := by
  simp only [decodeCommand, lowField_eq_zero_iff, topByte_toNat]
  generalize v.toNat / 2 ^ 56 = opcode
  generalize v.toNat % 2 ^ 56 = reserved
  by_cases hreserved : reserved = 0
  · rw [if_pos hreserved]
    split
    case h_8 => simp only [true_iff, imp_false] at *; omega
    all_goals simp [hreserved]
  · simp [hreserved]

/-- Between commands, a host write of a word that selects no command is one error entry, with the access off the queue. -/
theorem step_writeCmd_illegal (s : State) (v : Word) (rest : List HostEvent) (ht : s.transient = none)
    (hh : s.host = .writeCmd v :: rest) (hv : decodeCommand v = none) :
    step s = .next (State.raise { s with host := rest, cmd := v } .illegalCommand) := by
  simp only [step, State.fetch, ht, hh, State.access, State.issue, hv]

/-- Settles O12: such a word decodes to no command, and error entry writes `STATUS` and the RES registers alone. -/
theorem illegalCommandWordsEndAtOnce : Obligations.IllegalCommandWordsEndAtOnce := by
  intro s v rest ht hh hv
  rw [step_writeCmd_illegal s v rest ht hh ((decodeCommand_eq_none_iff v).mpr hv)]
  simp only [State.raise, ht]
  rfl

/-! ### Legal descriptors -/

/-- The legal descriptors of R77 by their tag, with the reserved bits zero. -/
theorem legalDescriptor_iff (bMax : Nat) (d : Word) :
    legalDescriptor bMax d ↔ d.toNat % 2 ^ 48 = 0 ∧
      ((d.toNat / 2 ^ 56 = 1 ∧ d.toNat / 2 ^ 48 % 2 ^ 8 = 0) ∨ (d.toNat / 2 ^ 56 = 2 ∧ d.toNat / 2 ^ 48 % 2 ^ 8 = 0) ∨
        (d.toNat / 2 ^ 56 = 3 ∧ 1 ≤ d.toNat / 2 ^ 48 % 2 ^ 8 ∧ d.toNat / 2 ^ 48 % 2 ^ 8 ≤ bMax)) := by
  have hallMissing : d = 0x0100000000000000 ↔ d.toNat = 2 ^ 56 := by rw [← BitVec.toNat_inj]; rfl
  have hconstant : d = 0x0200000000000000 ↔ d.toNat = 2 * 2 ^ 56 := by rw [← BitVec.toNat_inj]; rfl
  rw [legalDescriptor, hallMissing, hconstant]
  omega

theorem decodeDescriptor_isSome_iff (bMax : Nat) (d : Word) :
    (decodeDescriptor bMax d).isSome = true ↔ legalDescriptor bMax d := by
  have hzero : d.extractLsb' 48 8 = 0#8 ↔ (d.extractLsb' 48 8).toNat = 0 := by rw [← BitVec.toNat_inj]; rfl
  have hwidth := field_toNat d 48 8
  simp only [legalDescriptor_iff, decodeDescriptor, lowField_eq_zero_iff, topByte_toNat, hzero, ← hwidth]
  generalize d.toNat / 2 ^ 56 = tag
  generalize d.toNat % 2 ^ 48 = reserved
  by_cases hreserved : reserved = 0
  · rw [if_pos hreserved]
    split
    case h_4 => simp only [Option.isSome_none, Bool.false_eq_true, false_iff, imp_false] at *; omega
    all_goals simp [hreserved]
  · simp [hreserved]

theorem decodeDescriptor_eq_none_iff (bMax : Nat) (d : Word) :
    decodeDescriptor bMax d = none ↔ ¬ legalDescriptor bMax d := by
  rw [← decodeDescriptor_isSome_iff, Option.not_isSome_iff_eq_none]

/-- R152: below the limit, a word that is no legal descriptor raises CorruptRowHeader. -/
theorem Transient.descriptor_corrupt (bMax : Nat) (t : Transient) (hl : t.cur < t.lim)
    (hd : ¬ legalDescriptor bMax (t.word t.cur)) : t.descriptor bMax = .error (.corruptRowHeader t.row) := by
  rw [Transient.descriptor, if_neg (by omega), (decodeDescriptor_eq_none_iff _ _).mpr hd]

/-! ### The start of UNPACK_ROW -/

/-- A positive signed number is its pattern read unsigned. -/
theorem toNat_toInt_of_inDim {d : Word} (h : inDim d) : d.toInt.toNat = d.toNat := by
  have hpos := h.1
  rw [BitVec.toInt_eq_toNat_cond] at hpos ⊢
  have hlt := d.isLt
  omega

theorem dimOk_of_inDim {d : Word} (h : inDim d) : dimOk d.toInt = true := by
  simp only [dimOk, Bool.and_eq_true, decide_eq_true_eq]
  exact h

theorem accOk_of_inAcc {e : Word} (h : inAcc e) : accOk e.toInt = true := by
  simp only [accOk, Bool.and_eq_true, decide_eq_true_eq]
  exact h

/-- The transient state UNPACK_ROW begins with (R160), from its operands. -/
def State.unpackRowStart (s : State) (a n off cols mdi e o : Word) : Transient where
  job := .unpackRow
  work := s.cellsAt a.toNat (n.toNat / 8)
  lim := n.toNat / 8
  cur := off.toNat
  row := 0
  rows := 1
  cols := cols.toNat
  mdi := mdi
  acc := e.toInt
  stage := []
  kind := 0
  consumed := 0
  out := o.toNat

/-- UNPACK_ROW with the checks before its record passed. -/
theorem unpackRowSetup_ok {s : State} {a n off cols mdi e o k : Word}
    (hops : s.operandsAre [a, n, off, cols, mdi, e, o, k]) (hn : n.toNat % 8 = 0) (hcols : inDim cols) (he : inAcc e)
    (hk : 8 * cols.toNat ≤ k.toNat) (ha : admitsRegion s.cfg a.toNat n.toNat = true) :
    unpackRowSetup s = .ok (s.unpackRowStart a n off cols mdi e o) := by
  have hwhole : 8 * (n.toNat / 8) = n.toNat := by omega
  simp [unpackRowSetup, s.argU_of_get 0 a (hops 0 a rfl), s.argU_of_get 1 n (hops 1 n rfl),
    s.argU_of_get 2 off (hops 2 off rfl), s.argS_of_get 3 cols (hops 3 cols rfl), s.argF_of_get 4 mdi (hops 4 mdi rfl),
    s.argS_of_get 5 e (hops 5 e rfl), s.argU_of_get 6 o (hops 6 o rfl), s.argU_of_get 7 k (hops 7 k rfl), hn,
    dimOk_of_inDim hcols, accOk_of_inAcc he, toNat_toInt_of_inDim hcols, hk, s.memRead_of_admits _ _ ha,
    State.unpackRowStart, State.cellsAt, hwhole, pure, Except.pure]

theorem State.cellsAt_length (s : State) (a n : Nat) : (s.cellsAt a n).length = n := by
  rw [State.cellsAt, natWords_length _ _ (by simp)]
  simp

/-- UNPACK_ROW of a record whose descriptor is not legal: error entry, with row 0. -/
theorem execUnpackRow_corrupt {s : State} {t : Transient} (hsetup : unpackRowSetup s = .ok t) (hrows : t.rows = 1)
    (hl : t.cur < t.lim) (hd : ¬ legalDescriptor s.cfg.bMax (t.word t.cur)) :
    execUnpackRow s = .next (s.raise (.corruptRowHeader t.row)) := by
  rw [execUnpackRow, hsetup, State.startRows_ok, hrows]
  simp only [nextRecords, nextRecord, t.descriptor_corrupt _ hl hd]

/-- Settles O13: the decoder's cases are those of R77, and reading a word outside them ends UNPACK_ROW. -/
theorem legalDescriptorsAreExactlyThese : Obligations.LegalDescriptorsAreExactlyThese := by
  refine ⟨decodeDescriptor_isSome_iff, fun s a n off cols mdi e o k d hops hn hcols he hk ha hword hd => ?_⟩
  obtain ⟨hoff, -⟩ := List.getElem?_eq_some_iff.mp hword
  rw [State.cellsAt_length] at hoff
  refine execUnpackRow_corrupt (unpackRowSetup_ok hops hn hcols he hk ha) rfl hoff ?_
  simpa [Transient.word, State.unpackRowStart, hword] using hd

/-! ### Bit strings by position -/

theorem getElem?_bitsMSB (v b j : Nat) (hj : j < b) : (bitsMSB v b)[j]? = some (v.testBit (b - 1 - j)) := by
  induction b generalizing j with
  | zero => omega
  | succ b ih =>
    cases j with
    | zero => simp [bitsMSB]
    | succ j =>
      rw [bitsMSB, List.getElem?_cons_succ, ih j (by omega)]
      congr 2
      omega

/-- Bit `63 - r` of a packed word is bit `r` of its slice, and 0 after the slice's end. -/
theorem wordOfBits_getLsbD (s : List Bool) (r : Nat) (hs : s.length ≤ 64) (hr : r < 64) :
    (wordOfBits s).getLsbD (63 - r) = s[r]?.getD false := by
  have hbit := congrArg (·[r]?) (bitsMSB_wordOfBits s hs)
  simp only [getElem?_bitsMSB _ 64 r hr] at hbit
  rcases Nat.lt_or_ge r s.length with hin | hout
  · rw [List.getElem?_append_left hin] at hbit
    rw [← hbit]
    rfl
  · rw [List.getElem?_append_right hout, List.getElem?_replicate_of_lt (by omega)] at hbit
    rw [List.getElem?_eq_none hout]
    exact Option.some.inj hbit

theorem packWords_getElem? (n q : Nat) (s : List Bool) (hq : q < n) :
    (packWords n s)[q]? = some (wordOfBits ((s.drop (64 * q)).take 64)) := by
  induction n generalizing q s with
  | zero => omega
  | succ n ih =>
    cases q with
    | zero => simp [packWords]
    | succ q =>
      rw [packWords, List.getElem?_cons_succ, ih q _ (by omega), List.drop_drop]
      congr 4
      omega

/-- R74: position `p` of a bit string is bit `63 - p mod 64` of packed word `p / 64`; the bits after its end are 0. -/
theorem pack64_getLsbD {s : List Bool} {p : Nat} {w : Word} (hw : (pack64 s)[p / 64]? = some w) :
    w.getLsbD (63 - p % 64) = s[p]?.getD false := by
  obtain ⟨hq, -⟩ := List.getElem?_eq_some_iff.mp hw
  rw [pack64_length] at hq
  rw [pack64, packWords_getElem? _ _ _ hq] at hw
  obtain rfl := Option.some.inj hw
  have hp : p % 64 < 64 := Nat.mod_lt _ (by decide)
  rw [wordOfBits_getLsbD _ _ (by simp) hp, List.getElem?_take_of_lt hp, List.getElem?_drop, Nat.div_add_mod]

/-! ### The code bit string of a NORMAL record -/

@[simp] theorem codeBits_length (b : Nat) (codes : List Nat) : (codeBits b codes).length = codes.length * b := by
  induction codes with
  | nil => simp [codeBits]
  | cons k ks ih => simp [codeBits, ih]; ring

/-- Code `i` occupies the positions from `i * b` on, its most significant bit first. -/
theorem codeBits_getElem? (b : Nat) (codes : List Nat) (i j : Nat) (hi : i < codes.length) (hj : j < b) :
    (codeBits b codes)[i * b + j]? = some (codes[i].testBit (b - 1 - j)) := by
  induction codes generalizing i with
  | nil => simp at hi
  | cons k ks ih =>
    cases i with
    | zero =>
      rw [codeBits, Nat.zero_mul, Nat.zero_add, List.getElem?_append_left (by simpa using hj), getElem?_bitsMSB _ _ _ hj]
      rfl
    | succ i =>
      have hpos : (i + 1) * b + j - b = i * b + j := by rw [Nat.succ_mul]; omega
      rw [codeBits, List.getElem?_append_right (by rw [bitsMSB_length, Nat.succ_mul]; omega), bitsMSB_length, hpos]
      exact ih i (by simpa using hi)

theorem encode_normal (b : Nat) (hb : b < 2 ^ 8) :
    encode (.normal (BitVec.ofNat 8 b)) = BitVec.ofNat 64 (0x03 * 2 ^ 56 + b * 2 ^ 48) := by
  apply BitVec.eq_of_toNat_eq
  rw [encode, descriptorWord_toNat]
  simp only [BitVec.toNat_ofNat]
  omega

theorem normalRecord_words (base : Word) (b : Nat) (codes : List Nat) :
    (normalRecord base b codes).words = encode (.normal (BitVec.ofNat 8 b)) :: base :: pack64 (codeBits b codes) := rfl

/-- The words of a NORMAL record from the third on are the code words. -/
theorem normalRecord_codeWord (base : Word) (b : Nat) (codes : List Nat) (q : Nat) :
    (normalRecord base b codes).words[2 + q]? = (pack64 (codeBits b codes))[q]? := by
  rw [normalRecord_words, Nat.add_comm, List.getElem?_cons_succ, List.getElem?_cons_succ]

/-- Settles O39: the code words are the packed code bit string, read at the position of a code's bit and past its end. -/
theorem codeWordsHoldTheCodes : Obligations.CodeWordsHoldTheCodes := by
  intro base b codes _
  simp only [normalRecord_codeWord]
  refine ⟨?_, fun hb => ?_, rfl, fun i hi j hj w hw => ?_, fun p w hp hw => ?_⟩
  · simp [normalRecord_words, wordsFor]; omega
  · simp [normalRecord_words, encode_normal b (by omega)]
  · rw [pack64_getLsbD hw, codeBits_getElem? b codes i j hi hj, Option.getD_some]
  · rw [pack64_getLsbD hw, List.getElem?_eq_none (by simpa using hp), Option.getD_none]

end Sys2Proof.Machine
end

section
/-! Proofs for 40_endian_normalizer: `Normalize` as a function on byte lists (R100, R101), what NORMALIZE leaves in memory (R102),
and that it is its own inverse (R103, R104). -/

namespace Sys2Proof.Machine

/-! ### `Normalize` on byte lists -/

/-- Within each whole word, byte `j` of the result is byte `7 - j` of the word. -/
theorem swapWords_getElem? (l : List Byte) (hl : l.length % 8 = 0) {k j : Nat} (hk : k < l.length / 8) (hj : j < 8) :
    (swapWords l)[8 * k + j]? = l[8 * k + (7 - j)]? := by
  refine byteWords_induction (P := fun l => ∀ k < l.length / 8, (swapWords l)[8 * k + j]? = l[8 * k + (7 - j)]?)
    (by simp) ?_ l hl k hk
  intro b0 b1 b2 b3 b4 b5 b6 b7 rest _ ih k hk
  cases k with
  | zero => interval_cases j <;> rfl
  | succ k =>
    have hlater : k < rest.length / 8 := by
      simp only [List.length_cons] at hk
      omega
    have hshift (i : Nat) : 8 * (k + 1) + i = 8 * k + i + 8 := by omega
    simpa only [swapWords, hshift, List.getElem?_cons_succ] using ih k hlater

theorem normalizeBytes_little (l : List Byte) : normalizeBytes .little l = swapWords l := rfl

/-- Reversing the bytes of every word is an involution; a tail short of a word is left alone both times. -/
theorem swapWords_swapWords (l : List Byte) : swapWords (swapWords l) = l := by
  fun_induction swapWords l with
  | case1 b0 b1 b2 b3 b4 b5 b6 b7 rest ih => rw [swapWords, ih]
  | case2 l hshort =>
    rw [swapWords]
    exact hshort

/-- R103, R104: `Normalize` is its own inverse on either host order. -/
theorem normalizeBytes_normalizeBytes (o : ByteOrder) (l : List Byte) : normalizeBytes o (normalizeBytes o l) = l := by
  cases o with
  | big => rfl
  | little => exact swapWords_swapWords l

/-- R101, first law: the native words of a normalized stream are the stream's big-endian words. -/
theorem natWords_normalizeBytes (o : ByteOrder) (l : List Byte) (hl : l.length % 8 = 0) :
    natWords o (normalizeBytes o l) = natWords .big l := by
  cases o with
  | big => rfl
  | little =>
    refine byteWords_induction (P := fun l => natWords .little (swapWords l) = natWords .big l) rfl ?_ l hl
    intro b0 b1 b2 b3 b4 b5 b6 b7 rest _ ih
    exact congrArg (beWord b0 b1 b2 b3 b4 b5 b6 b7 :: ·) ih

/-- R101, second law: normalizing the native bytes of words gives their big-endian bytes. -/
theorem normalizeBytes_natBytesOf (o : ByteOrder) (ws : List Word) : normalizeBytes o (natBytesOf o ws) = natBytesOf .big ws := by
  cases o with
  | big => rfl
  | little =>
    induction ws with
    | nil => rfl
    | cons w ws ih => exact (swapWords_natBytes_append w _).trans (congrArg (beBytes w ++ ·) ih)

/-- Settles O26: the two laws of R101. -/
theorem normalizeMapsStreamAndNativeOrder : Obligations.NormalizeMapsStreamAndNativeOrder :=
  ⟨natWords_normalizeBytes, normalizeBytes_natBytesOf⟩

/-! ### Host memory after NORMALIZE -/

theorem Memory.readBytes_getElem? (m : Memory) (a : Nat) {n k : Nat} (hk : k < n) :
    (m.readBytes a n)[k]? = some (m.read (a + k)) := by
  rw [List.getElem?_eq_getElem (by simpa using hk), Memory.readBytes_getElem]

/-- The memory after NORMALIZE of the `n` bytes at `a` (R102). -/
def Memory.normalized (o : ByteOrder) (m : Memory) (a n : Nat) : Memory := normalizedMem o m a (m.readBytes a n)

theorem Memory.normalized_big (m : Memory) (a n : Nat) : m.normalized .big a n = m := rfl

theorem Memory.read_normalized_outside (o : ByteOrder) (m : Memory) (a n x : Nat) (hx : ¬ (a ≤ x ∧ x < a + n)) :
    (m.normalized o a n).read x = m.read x := by
  cases o with
  | big => rfl
  | little => exact Memory.read_writeBytes_outside _ _ _ _ (by rw [normalizeBytes_length, Memory.readBytes_length]; omega)

/-- The region holds the normalization of what it held. -/
theorem Memory.readBytes_normalized (o : ByteOrder) (m : Memory) (a n : Nat) :
    (m.normalized o a n).readBytes a n = normalizeBytes o (m.readBytes a n) := by
  cases o with
  | big => rfl
  | little =>
    simpa [Memory.normalized, normalizedMem] using Memory.readBytes_writeBytes m a (normalizeBytes .little (m.readBytes a n))

/-- On a `LITTLE` host byte `j` of word `k` becomes byte `7 - j` of it. -/
theorem Memory.read_normalized_little (m : Memory) (a n : Nat) {k j : Nat} (hn : n % 8 = 0) (hk : k < n / 8) (hj : j < 8) :
    (m.normalized .little a n).read (a + 8 * k + j) = m.read (a + 8 * k + (7 - j)) := by
  have hswap := swapWords_getElem? (m.readBytes a n) (by simpa using hn) (by simpa using hk) hj
  rw [← normalizeBytes_little, ← Memory.readBytes_normalized, Memory.readBytes_getElem? _ _ (by omega),
    Memory.readBytes_getElem? _ _ (by omega)] at hswap
  simpa [Nat.add_assoc] using hswap

theorem Memory.wf_normalized (o : ByteOrder) (m : Memory) (a n : Nat) (hm : m.wf = true) (ha : a + n ≤ 2 ^ 64) :
    (m.normalized o a n).wf = true := by
  cases o with
  | big => exact hm
  | little => exact Memory.wf_writeBytes _ _ _ hm (by simpa using ha)

/-- Canonical memory is determined by its bytes, so normalizing twice gives back the memory itself. -/
theorem Memory.normalized_normalized (o : ByteOrder) (m : Memory) (a n : Nat) (hm : m.wf = true) (ha : a + n ≤ 2 ^ 64) :
    (m.normalized o a n).normalized o a n = m := by
  have hregion : ((m.normalized o a n).normalized o a n).readBytes a n = m.readBytes a n := by
    rw [Memory.readBytes_normalized, Memory.readBytes_normalized, normalizeBytes_normalizeBytes]
  refine Memory.ext_of_wf _ _ (Memory.wf_normalized o _ a n (Memory.wf_normalized o m a n hm ha) ha) hm fun x => ?_
  by_cases hx : a ≤ x ∧ x < a + n
  · obtain ⟨k, rfl⟩ := Nat.exists_eq_add_of_le hx.1
    have hk : k < n := by omega
    simpa [Memory.readBytes_getElem? _ a hk] using congrArg (·[k]?) hregion
  · rw [Memory.read_normalized_outside o _ a n x hx, Memory.read_normalized_outside o m a n x hx]

/-! ### The command -/

/-- The state a NORMALIZE of whole words at `a` ends in. -/
def State.normalized (s : State) (a n : Word) : State :=
  s.complete ⟨s.mem.normalized s.cfg.hostOrder a.toNat n.toNat, ⟨some (unsigned64 (n.toNat / 8)), none, none, none⟩⟩

/-- The length is checked before any access, so the address does not matter. -/
theorem exec_normalize_invalidLength {s : State} {a n : Word} (hops : s.operandsAre [a, n]) (hn : n.toNat % 8 ≠ 0) :
    exec .normalize s = .next (s.raise (.invalidLength n.toNat)) := by
  have hwork : normalizeWork s = .error (.raise (.invalidLength n.toNat)) := by
    simp [normalizeWork, s.argU_of_get 0 a (hops 0 a rfl), s.argU_of_get 1 n (hops 1 n rfl), hn]
  exact congrArg s.conclude hwork

theorem exec_normalize_ok {s : State} {a n : Word} (hops : s.operandsAre [a, n]) (hn : n.toNat % 8 = 0)
    (ha : admitsRegion s.cfg a.toNat n.toNat = true) : exec .normalize s = .next (s.normalized a n) := by
  have hwork : normalizeWork s = .ok ⟨s.mem.normalized s.cfg.hostOrder a.toNat n.toNat,
      ⟨some (unsigned64 (n.toNat / 8)), none, none, none⟩⟩ := by
    simp [normalizeWork, s.argU_of_get 0 a (hops 0 a rfl), s.argU_of_get 1 n (hops 1 n rfl), hn,
      s.memRead_of_admits _ _ ha, Memory.normalized, pure, Except.pure]
  exact congrArg s.conclude hwork

/-- The frame of a NORMALIZE that succeeds. -/
theorem State.normalized_endsWell (s : State) (a n : Word) :
    EndsWell s (s.normalized a n) ⟨some (BitVec.ofNat 64 (n.toNat / 8)), none, none, none⟩ a.toNat n.toNat :=
  ⟨rfl, rfl, rfl, rfl, rfl, rfl, rfl, rfl, rfl, Memory.read_normalized_outside _ _ _ _⟩

/-- Settles O25: the length check, and the end of the command on each host order. -/
theorem normalizeSwapsTheWordsInPlace : Obligations.NormalizeSwapsTheWordsInPlace := by
  refine ⟨rfl, fun s a n hops => ⟨exec_normalize_invalidLength hops, fun hn ha => ?_⟩⟩
  have hmem : (s.normalized a n).mem = s.mem.normalized s.cfg.hostOrder a.toNat n.toNat := rfl
  refine ⟨s.normalized a n, exec_normalize_ok hops hn ha, s.normalized_endsWell a n, fun hbig => ?_, fun hlittle => ?_⟩
  · rw [hmem, hbig, Memory.normalized_big]
  · rw [hmem, hlittle]
    exact fun k hk j hj => Memory.read_normalized_little _ _ _ hn hk hj

/-- Settles O27: the first command keeps the operands and the configuration, so the second one normalizes the same region. -/
theorem normalizeTwiceRestoresTheBuffer : Obligations.NormalizeTwiceRestoresTheBuffer := by
  intro s a n hops hn ha hm
  obtain ⟨hend, -⟩ := (admitsRegion_iff _ _ _).mp ha
  exact ⟨s.normalized a n, (s.normalized a n).normalized a n, exec_normalize_ok hops hn ha,
    exec_normalize_ok (s := s.normalized a n) hops hn ha, Memory.normalized_normalized _ _ _ _ hm hend⟩

end Sys2Proof.Machine
end

section
/-! Proofs for 41_header_codec: the header words and their fields (R110 to R112), DECODE_HEADER (R113), ENCODE_HEADER (R115) and
the round trip (R116). -/

namespace Sys2Proof.Machine

/-! ### The two header words -/

/-- The header of given operand words. -/
def headerOfOperands (e cols rows p : Word) : Header := ⟨e.toInt, cols.toInt, rows.toInt, p.toNat⟩

/-- The ranges on which header words are defined (R112). -/
structure Header.InRange (h : Header) : Prop where
  acc : accMin ≤ h.acc ∧ h.acc ≤ accMax
  cols : 1 ≤ h.cols ∧ h.cols ≤ dimMax
  rows : 1 ≤ h.rows ∧ h.rows ≤ dimMax
  plen : h.plen ≤ payloadMax

theorem enc32_toInt (w : Word) : enc32 w.toInt = BitVec.setWidth 32 w := w.signExtend_eq_setWidth_of_le (by decide)

/-- The fields that R65 writes are the low halves of the operands. -/
theorem headerWords_headerOfOperands (e cols rows p : Word) :
    headerWords (headerOfOperands e cols rows p) =
      [BitVec.setWidth 32 e ++ BitVec.setWidth 32 cols, BitVec.setWidth 32 rows ++ BitVec.setWidth 32 p] := by
  simp only [headerWords, headerOfOperands, enc32_toInt, BitVec.ofNat_toNat]

/-- Each field of R66 is the half word that R65 puts there. -/
theorem headerOfWords_append (e cols rows p : BitVec 32) :
    headerOfWords (e ++ cols) (rows ++ p) = ⟨e.toInt, cols.toInt, rows.toInt, p.toNat⟩ := by
  have hhigh (x y : BitVec 32) : (x ++ y : Word).extractLsb' 32 32 = x := BitVec.extractLsb'_append_eq_left
  have hlow (x y : BitVec 32) : (x ++ y : Word).extractLsb' 0 32 = y := BitVec.extractLsb'_append_eq_right
  simp only [headerOfWords, hhigh, hlow]

/-- `sext_32(enc_32(v)) = v` on the 32-bit range. -/
theorem toInt_enc32 {v : Int} (hlo : -2 ^ 31 ≤ v) (hhi : v ≤ 2 ^ 31 - 1) : (enc32 v).toInt = v :=
  BitVec.toInt_ofInt_eq_self (by decide) hlo (by omega)

/-- The fields of the header words are the integers they were built from. -/
theorem headerWords_fields {h : Header} (hr : h.InRange) : ∃ w0 w1, headerWords h = [w0, w1] ∧ headerOfWords w0 w1 = h := by
  obtain ⟨⟨hacc, hacc'⟩, ⟨hcols, hcols'⟩, ⟨hrows, hrows'⟩, hplen⟩ := hr
  simp only [accMin, accMax, dimMax, payloadMax] at *
  refine ⟨_, _, rfl, ?_⟩
  rw [headerOfWords_append, toInt_enc32 hacc hacc', toInt_enc32 (by omega) hcols', toInt_enc32 (by omega) hrows',
    BitVec.toNat_ofNat, Nat.mod_eq_of_lt (by omega)]

/-! ### The checks of a decoded header -/

theorem checkHeader_cols {h : Header} (hcols : h.cols ≤ 0) : checkHeader h = .error (.malformedHeader 2) := if_pos hcols

theorem checkHeader_rows {h : Header} (hcols : 0 < h.cols) (hrows : h.rows ≤ 0) :
    checkHeader h = .error (.malformedHeader 3) := by
  rw [checkHeader, if_neg (by omega), if_pos hrows]

theorem checkHeader_ok {h : Header} (hcols : 0 < h.cols) (hrows : 0 < h.rows) : checkHeader h = .ok h := by
  rw [checkHeader, if_neg (by omega), if_neg (by omega)]

theorem Header.InRange.checkHeader_ok {h : Header} (hr : h.InRange) : checkHeader h = .ok h :=
  Machine.checkHeader_ok hr.cols.1 hr.rows.1

/-- `DecodeHeader` of a buffer that holds two header words. -/
theorem decodeHeader_of_words {o : ByteOrder} {b : List Byte} {len : Nat} {w0 w1 : Word} (hlen : 16 ≤ len)
    (hwords : natWords o b = [w0, w1]) : decodeHeader o b len = checkHeader (headerOfWords w0 w1) := by
  rw [decodeHeader, if_neg (by omega), hwords]

/-- R116 as functions. -/
theorem decodeHeader_headerWords (o : ByteOrder) {h : Header} (hr : h.InRange) :
    decodeHeader o (natBytesOf o (headerWords h)) 16 = .ok h := by
  obtain ⟨w0, w1, hwords, hfields⟩ := headerWords_fields hr
  rw [decodeHeader_of_words le_rfl ((natWords_natBytesOf o _).trans hwords), hfields, hr.checkHeader_ok]

/-! ### DECODE_HEADER -/

/-- The completion of DECODE_HEADER of a good header (R113). -/
def State.headerDecoding (s : State) (h : Header) : Completion :=
  ⟨s.mem, ⟨some (enc64 h.acc), some (enc64 h.cols), some (enc64 h.rows), some (unsigned64 h.plen)⟩⟩

/-- The length is checked before any access, so the address does not matter. -/
theorem exec_decodeHeader_short {s : State} {a n : Word} (hops : s.operandsAre [a, n]) (hn : n.toNat < 16) :
    exec .decodeHeader s = .next (s.raise (.malformedHeader 1)) := by
  have hwork : decodeHeaderWork s = .error (.raise (.malformedHeader 1)) := by
    simp [decodeHeaderWork, s.argU_of_get 0 a (hops 0 a rfl), s.argU_of_get 1 n (hops 1 n rfl), Nat.not_le.mpr hn]
  exact congrArg s.conclude hwork

section
variable {s : State} {a n w0 w1 : Word} (hops : s.operandsAre [a, n]) (hn : 16 ≤ n.toNat)
  (ha : admitsRegion s.cfg a.toNat 16 = true) (hwords : s.cellsAt a.toNat 2 = [w0, w1])
include hops hn ha hwords

/-- With the two words read, the work is the checks of their fields and then the results. -/
theorem decodeHeaderWork_of_words :
    decodeHeaderWork s = (liftError (checkHeader (headerOfWords w0 w1))).map s.headerDecoding := by
  simp only [decodeHeaderWork, s.argU_of_get 0 a (hops 0 a rfl), s.argU_of_get 1 n (hops 1 n rfl), hn, decide_true,
    check_true, s.memRead_of_admits _ _ ha, Abort.bind_ok, decodeHeader_of_words hn hwords]
  rfl

theorem exec_decodeHeader_raise {e : CodecError} (hcheck : checkHeader (headerOfWords w0 w1) = .error e) :
    exec .decodeHeader s = .next (s.raise e) := by
  have hwork := decodeHeaderWork_of_words hops hn ha hwords
  rw [hcheck] at hwork
  exact congrArg s.conclude hwork

theorem exec_decodeHeader_ok {h : Header} (hcheck : checkHeader (headerOfWords w0 w1) = .ok h) :
    exec .decodeHeader s = .next (s.complete (s.headerDecoding h)) := by
  have hwork := decodeHeaderWork_of_words hops hn ha hwords
  rw [hcheck] at hwork
  exact congrArg s.conclude hwork

end

/-- The frame of a command that succeeds. -/
theorem State.complete_endsWell (s : State) (c : Completion) (a n : Nat)
    (hmem : ∀ x, ¬ (a ≤ x ∧ x < a + n) → c.mem.read x = s.mem.read x) : EndsWell s (s.complete c) c.res a n :=
  ⟨rfl, rfl, rfl, rfl, rfl, rfl, rfl, rfl, rfl, hmem⟩

/-- Of a positive 32-bit field, sign extension is zero extension. -/
theorem enc64_toInt_of_pos {x : BitVec 32} (hx : 0 < x.toInt) : enc64 x.toInt = x.setWidth 64 :=
  BitVec.signExtend_eq_setWidth_of_msb_false (by rw [BitVec.msb_eq_toInt, decide_eq_false (by omega)])

/-- The results of DECODE_HEADER as halves of the header words. -/
theorem State.headerDecoding_res (s : State) {w0 w1 : Word} (hcols : 0 < (w0.extractLsb' 0 32).toInt)
    (hrows : 0 < (w1.extractLsb' 32 32).toInt) :
    (s.headerDecoding (headerOfWords w0 w1)).res =
      ⟨some ((w0.extractLsb' 32 32).signExtend 64), some ((w0.extractLsb' 0 32).setWidth 64),
        some ((w1.extractLsb' 32 32).setWidth 64), some ((w1.extractLsb' 0 32).setWidth 64)⟩ := by
  simp only [State.headerDecoding, headerOfWords, enc64_toInt_of_pos hcols, enc64_toInt_of_pos hrows, unsigned64,
    BitVec.ofNat_toNat]
  rfl

/-- Settles O28: the length check, then the checks of the decoded fields in their order. -/
theorem decodeHeaderReadsTheHeader : Obligations.DecodeHeaderReadsTheHeader := by
  refine ⟨rfl, fun s a n hops => ⟨exec_decodeHeader_short hops, fun w0 w1 hn ha hwords => ⟨fun hcols => ?_,
    fun hcols hrows => ?_, fun hcols hrows => ?_⟩⟩⟩
  · exact exec_decodeHeader_raise hops hn ha hwords (checkHeader_cols hcols)
  · exact exec_decodeHeader_raise hops hn ha hwords (checkHeader_rows hcols hrows)
  · rw [← s.headerDecoding_res hcols hrows]
    exact ⟨_, exec_decodeHeader_ok hops hn ha hwords (checkHeader_ok hcols hrows), rfl,
      s.complete_endsWell _ 0 0 fun _ _ => rfl⟩

/-! ### ENCODE_HEADER -/

theorem dimOk_iff_inDim (d : Word) : dimOk d.toInt = true ↔ inDim d := by
  simp only [dimOk, Bool.and_eq_true, decide_eq_true_eq]
  rfl

theorem accOk_iff_inAcc (e : Word) : accOk e.toInt = true ↔ inAcc e := by
  simp only [accOk, Bool.and_eq_true, decide_eq_true_eq]
  rfl

theorem dimOk_of_not_inDim {d : Word} (h : ¬ inDim d) : dimOk d.toInt = false := by
  rwa [← dimOk_iff_inDim, Bool.not_eq_true] at h

theorem accOk_of_not_inAcc {e : Word} (h : ¬ inAcc e) : accOk e.toInt = false := by
  rwa [← accOk_iff_inAcc, Bool.not_eq_true] at h

/-- The checks of ENCODE_HEADER (R115), which come before its one access. -/
def encodeHeaderChecks (e cols rows p k : Word) : Except Abort Unit := do
  check (dimOk rows.toInt) (.shapeMismatch 1)
  check (dimOk cols.toInt) (.shapeMismatch 2)
  check (accOk e.toInt) (.shapeMismatch 4)
  check (decide (p.toNat ≤ payloadMax)) (.allocationFailure 2)
  check (decide (16 ≤ k.toNat)) (.allocationFailure 1)

theorem encodeHeaderChecks_eq_ok_iff (e cols rows p k : Word) :
    encodeHeaderChecks e cols rows p k = .ok () ↔
      inDim rows ∧ inDim cols ∧ inAcc e ∧ p.toNat ≤ payloadMax ∧ 16 ≤ k.toNat := by
  simp only [encodeHeaderChecks, Abort.bind_eq_ok, check_eq_ok, dimOk_iff_inDim, accOk_iff_inAcc, decide_eq_true_eq,
    exists_const]

/-- The completion of ENCODE_HEADER at `a` (R115). -/
def State.headerEncoding (s : State) (a : Word) (h : Header) : Completion :=
  ⟨s.mem.writeBytes a.toNat (natBytesOf s.cfg.hostOrder (headerWords h)), ⟨some 16, none, none, none⟩⟩

theorem natBytesOf_headerWords_length (o : ByteOrder) (h : Header) : (natBytesOf o (headerWords h)).length = 16 :=
  natBytesOf_length o (headerWords h)

theorem State.read_headerEncoding_outside (s : State) (a : Word) (h : Header) (x : Nat)
    (hx : ¬ (a.toNat ≤ x ∧ x < a.toNat + 16)) : (s.headerEncoding a h).mem.read x = s.mem.read x :=
  Memory.read_writeBytes_outside _ _ _ _ (by rw [natBytesOf_headerWords_length]; omega)

/-- The output region holds the two header words. -/
theorem State.cellsAt_headerEncoding (s : State) (a : Word) (h : Header) :
    (s.complete (s.headerEncoding a h)).cellsAt a.toNat 2 = headerWords h := by
  have hread := s.mem.readBytes_writeBytes a.toNat (natBytesOf s.cfg.hostOrder (headerWords h))
  rw [natBytesOf_headerWords_length] at hread
  exact (congrArg _ hread).trans (natWords_natBytesOf _ _)

section
variable {s : State} {e cols rows p o k : Word} (hops : s.operandsAre [e, cols, rows, p, o, k])
include hops

/-- The work of ENCODE_HEADER: its checks, then the write of the header words. -/
theorem encodeHeaderWork_of_operands :
    encodeHeaderWork s = (do
      encodeHeaderChecks e cols rows p k
      let m ← s.memWrite o.toNat (natBytesOf s.cfg.hostOrder (headerWords (headerOfOperands e cols rows p)))
      pure ⟨m, ⟨some 16, none, none, none⟩⟩) := by
  simp only [encodeHeaderWork, s.argS_of_get 0 e (hops 0 e rfl), s.argS_of_get 1 cols (hops 1 cols rfl),
    s.argS_of_get 2 rows (hops 2 rows rfl), s.argU_of_get 3 p (hops 3 p rfl), s.argU_of_get 4 o (hops 4 o rfl),
    s.argU_of_get 5 k (hops 5 k rfl), Abort.bind_ok, encodeHeaderChecks, bind_assoc]
  rfl

/-- ENCODE_HEADER succeeds exactly where its checks pass and its output region is admitted. -/
theorem encodeHeaderWork_eq_ok_iff (c : Completion) :
    encodeHeaderWork s = .ok c ↔ encodeHeaderChecks e cols rows p k = .ok () ∧ admitsRegion s.cfg o.toNat 16 = true ∧
      c = s.headerEncoding o (headerOfOperands e cols rows p) := by
  simp only [encodeHeaderWork_of_operands hops, Abort.bind_eq_ok, State.memWrite_eq_ok, natBytesOf_headerWords_length,
    pure, Except.pure, Except.ok.injEq, and_assoc, exists_and_left, exists_eq_left, State.headerEncoding, eq_comm (a := c)]
  exact Unique.exists_iff

theorem exec_encodeHeader_raise {x : CodecError} (hchecks : encodeHeaderChecks e cols rows p k = .error (.raise x)) :
    exec .encodeHeader s = .next (s.raise x) := by
  have hwork := encodeHeaderWork_of_operands hops
  rw [hchecks] at hwork
  exact congrArg s.conclude hwork

theorem exec_encodeHeader_ok (hchecks : encodeHeaderChecks e cols rows p k = .ok ())
    (ha : admitsRegion s.cfg o.toNat 16 = true) :
    exec .encodeHeader s = .next (s.complete (s.headerEncoding o (headerOfOperands e cols rows p))) :=
  congrArg s.conclude ((encodeHeaderWork_eq_ok_iff hops _).mpr ⟨hchecks, ha, rfl⟩)

end

/-- Settles O29: the first check that fails gives the error; with all passed, the write gives the header words. -/
theorem encodeHeaderWritesTheHeader : Obligations.EncodeHeaderWritesTheHeader := by
  refine ⟨rfl, fun s e cols rows p o k hops => ⟨fun hrows => ?rows, fun hrows hcols => ?cols, fun hrows hcols he => ?acc,
    fun hrows hcols he hp => ?payload, fun hrows hcols he hp hk => ?capacity, fun hrows hcols he hp hk ha => ?ok⟩⟩
  case rows => exact exec_encodeHeader_raise hops (by simp [encodeHeaderChecks, dimOk_of_not_inDim hrows])
  case cols =>
    exact exec_encodeHeader_raise hops (by simp [encodeHeaderChecks, dimOk_of_inDim hrows, dimOk_of_not_inDim hcols])
  case acc =>
    exact exec_encodeHeader_raise hops (by
      simp [encodeHeaderChecks, dimOk_of_inDim hrows, dimOk_of_inDim hcols, accOk_of_not_inAcc he])
  case payload =>
    exact exec_encodeHeader_raise hops (by
      simp [encodeHeaderChecks, dimOk_of_inDim hrows, dimOk_of_inDim hcols, accOk_of_inAcc he,
        show ¬ p.toNat ≤ payloadMax from Nat.not_le.mpr hp])
  case capacity =>
    exact exec_encodeHeader_raise hops (by
      simp [encodeHeaderChecks, dimOk_of_inDim hrows, dimOk_of_inDim hcols, accOk_of_inAcc he,
        show p.toNat ≤ payloadMax from hp, Nat.not_le.mpr hk])
  case ok =>
    have hchecks := (encodeHeaderChecks_eq_ok_iff e cols rows p k).mpr ⟨hrows, hcols, he, hp, hk⟩
    rw [← headerWords_headerOfOperands]
    exact ⟨_, exec_encodeHeader_ok hops hchecks ha, s.complete_endsWell _ _ _ (s.read_headerEncoding_outside o _),
      s.cellsAt_headerEncoding o _⟩

/-! ### The round trip -/

theorem CodecError.code_ne_ok (e : CodecError) : e.code ≠ 0x00 := by cases e <;> simp [CodecError.code]

/-- Operands that pass the checks of ENCODE_HEADER are a header of R112. -/
theorem headerOfOperands_inRange {e cols rows p k : Word} (hchecks : encodeHeaderChecks e cols rows p k = .ok ()) :
    (headerOfOperands e cols rows p).InRange := by
  obtain ⟨hrows, hcols, he, hp, -⟩ := (encodeHeaderChecks_eq_ok_iff e cols rows p k).mp hchecks
  exact ⟨he, hcols, hrows, hp⟩

/-- The results of DECODE_HEADER on a header of operand words are these words. -/
theorem State.headerDecoding_headerOfOperands (s : State) (e cols rows p : Word) :
    s.headerDecoding (headerOfOperands e cols rows p) = ⟨s.mem, ⟨some e, some cols, some rows, some p⟩⟩ := by
  simp only [State.headerDecoding, headerOfOperands, enc64, unsigned64, BitVec.ofInt_toInt, BitVec.ofNat_toNat,
    BitVec.setWidth_eq]

/-- DECODE_HEADER where the header words of `h` stand. -/
theorem exec_decodeHeader_headerWords {s : State} {a : Word} {h : Header} (hr : h.InRange) (hops : s.operandsAre [a, 16])
    (ha : admitsRegion s.cfg a.toNat 16 = true) (hwords : s.cellsAt a.toNat 2 = headerWords h) :
    exec .decodeHeader s = .next (s.complete (s.headerDecoding h)) := by
  obtain ⟨w0, w1, heq, hfields⟩ := headerWords_fields hr
  exact exec_decodeHeader_ok hops (by decide) ha (hwords.trans heq) (hfields ▸ hr.checkHeader_ok)

/-- An ENCODE_HEADER that ended with OK passed its checks, reached its output region and wrote the header words. -/
theorem encodeHeader_ok_inv {s t : State} {e cols rows p o k : Word} (hops : s.operandsAre [e, cols, rows, p, o, k])
    (hexec : exec .encodeHeader s = .next t) (hok : t.status = 0x00) :
    encodeHeaderChecks e cols rows p k = .ok () ∧ admitsRegion s.cfg o.toNat 16 = true ∧
      t = s.complete (s.headerEncoding o (headerOfOperands e cols rows p)) := by
  rcases s.conclude_next t _ hexec with ⟨c, hwork, rfl⟩ | ⟨x, -, rfl⟩
  · obtain ⟨hchecks, ha, rfl⟩ := (encodeHeaderWork_eq_ok_iff hops c).mp hwork
    exact ⟨hchecks, ha, rfl⟩
  · exact absurd hok x.code_ne_ok

/-- Settles O30: the header words in memory decode to the header of the operands, whose fields are the operands. -/
theorem headerRoundTrip : Obligations.HeaderRoundTrip := by
  refine ⟨fun o h hacc hacc' hcols hcols' hrows hrows' hplen =>
    decodeHeader_headerWords o ⟨⟨hacc, hacc'⟩, ⟨hcols, hcols'⟩, ⟨hrows, hrows'⟩, hplen⟩, ?_⟩
  intro s s' t e cols rows p o k hops hexec hok hcfg hmem hops'
  obtain ⟨hchecks, ha, rfl⟩ := encodeHeader_ok_inv hops hexec hok
  have hwords : s'.cellsAt o.toNat 2 = headerWords (headerOfOperands e cols rows p) := by
    rw [← s.cellsAt_headerEncoding o, State.cellsAt, hcfg, hmem]
    rfl
  have hdecode := exec_decodeHeader_headerWords (headerOfOperands_inRange hchecks) hops' (hcfg ▸ ha) hwords
  exact ⟨_, hdecode, rfl, by rw [State.complete_res, State.headerDecoding_headerOfOperands]⟩

end Sys2Proof.Machine
end

section
/-! Proofs for 42_row_packer: exact values and quantization (R135), the base (R134), the record a row gets (R132, R133, R136 to
R139), the quantization error (R141) and monotonicity in the accuracy (R142). -/

namespace Sys2Proof.Machine

/-! ### Exact values as scaled integers -/

theorem real_eq_scaled (x : Word) : real x = scaled x * (2 : ℚ) ^ (-1074 : ℤ) := by
  have hmag : (if expField x = 0 then (fracField x : ℚ) / 2 ^ 52 * (2 : ℚ) ^ (-1022 : ℤ)
      else (1 + (fracField x : ℚ) / 2 ^ 52) * (2 : ℚ) ^ ((expField x : ℤ) - 1023)) =
      (scaledMag x : ℚ) * (2 : ℚ) ^ (-1074 : ℤ) := by
    unfold scaledMag
    split
    · rw [show (-1022 : ℤ) = (52 : ℕ) + -1074 by rfl, zpow_add₀ two_ne_zero, zpow_natCast]
      generalize (2 : ℚ) ^ (-1074 : ℤ) = unit
      ring
    · have hshift : (expField x : ℤ) - 1023 = ((expField x - 1 : ℕ) : ℤ) + (52 : ℕ) + -1074 := by omega
      rw [hshift, zpow_add₀ two_ne_zero, zpow_add₀ two_ne_zero, zpow_natCast, zpow_natCast, Nat.shiftLeft_eq]
      generalize (2 : ℚ) ^ (-1074 : ℤ) = unit
      push_cast
      ring
  rw [real, hmag, scaled]
  cases signBit x <;> simp

theorem real_le_real_iff (x y : Word) : real x ≤ real y ↔ scaled x ≤ scaled y := by
  rw [real_eq_scaled, real_eq_scaled, mul_le_mul_iff_of_pos_right (zpow_pos two_pos _), Int.cast_le]

theorem real_lt_real_iff (x y : Word) : real x < real y ↔ scaled x < scaled y := by
  rw [← not_le, real_le_real_iff, not_le]

/-- `Real(c) - Real(base)` is the quantizer's operand in units of `2^-1074`. -/
theorem real_sub_real {base c : Word} (h : real base ≤ real c) :
    real c - real base = ((scaled c - scaled base).toNat : ℚ) * (2 : ℚ) ^ (-1074 : ℤ) := by
  have hle := (real_le_real_iff base c).mp h
  have hcast : ((scaled c - scaled base).toNat : ℚ) = scaled c - scaled base := by
    exact_mod_cast Int.toNat_of_nonneg (sub_nonneg.mpr hle)
  rw [hcast, real_eq_scaled, real_eq_scaled, sub_mul]

/-- The greatest exponent field puts the magnitude below `2^2099` units. -/
theorem scaledMag_lt (x : Word) {n : ℕ} (hn : 2099 ≤ n) : scaledMag x < 2 ^ n := by
  have hexp : expField x < 2 ^ 11 := BitVec.isLt _
  have hfrac : fracField x < 2 ^ 52 := BitVec.isLt _
  unfold scaledMag
  split
  · exact hfrac.trans (Nat.pow_lt_pow_right (by decide) (by omega))
  · rw [Nat.shiftLeft_eq]
    calc (2 ^ 52 + fracField x) * 2 ^ (expField x - 1)
        < 2 ^ 53 * 2 ^ (expField x - 1) := Nat.mul_lt_mul_of_pos_right (by omega) (Nat.two_pow_pos _)
      _ = 2 ^ (53 + (expField x - 1)) := (Nat.pow_add ..).symm
      _ ≤ 2 ^ n := Nat.pow_le_pow_right two_pos (by omega)

theorem scaled_natAbs (x : Word) : (scaled x).natAbs = scaledMag x := by
  unfold scaled
  split <;> simp

/-! ### Quantization -/

/-- Halving the quotient by `2^k`, one added, rounds the quotient by `2^(k+1)` half up. -/
theorem shiftRight_succ_half_eq_round (d k : ℕ) : (((d >>> k + 1) / 2 : ℕ) : ℤ) = round ((d : ℚ) / 2 ^ (k + 1)) := by
  have hhalf : (d : ℚ) / 2 ^ (k + 1) + 1 / 2 = ((d : ℚ) / (2 ^ k : ℕ) + 1) / (2 : ℕ) := by
    push_cast
    rw [pow_succ]
    field_simp
  rw [round_eq, hhalf, Int.floor_div_natCast, Int.floor_add_one, Rat.floor_natCast_div_natCast, Nat.shiftRight_eq_div_pow]
  push_cast
  rfl

theorem quantize_eq_round (d : ℕ) (e : ℤ) : (quantize d e : ℤ) = round ((d : ℚ) * (2 : ℚ) ^ (-1074 : ℤ) / (2 : ℚ) ^ e) := by
  rw [mul_div_assoc, ← zpow_sub₀ two_ne_zero]
  unfold quantize
  split_ifs with hzero hfine
  · simp [hzero]
  · obtain ⟨n, hn⟩ := Int.eq_ofNat_of_zero_le (show 0 ≤ -1074 - e by omega)
    rw [hn, Int.toNat_natCast, zpow_natCast, Nat.shiftLeft_eq]
    exact_mod_cast (round_natCast (α := ℚ) (d * 2 ^ n)).symm
  · obtain ⟨k, hk⟩ := Int.eq_ofNat_of_zero_le (show 0 ≤ e + 1073 by omega)
    have hexp : -1074 - e = -((k + 1 : ℕ) : ℤ) := by omega
    rw [hk, Int.toNat_natCast, shiftRight_succ_half_eq_round, hexp, zpow_neg, zpow_natCast, div_eq_mul_inv]

theorem quantize_antitone (d : ℕ) {e e' : ℤ} (h : e ≤ e') : quantize d e' ≤ quantize d e := by
  zify
  rw [quantize_eq_round, quantize_eq_round, round_eq, round_eq]
  gcongr
  exact one_le_two

theorem quantize_eq_zero {d : ℕ} {e : ℤ} (he : -1074 < e) (hd : d < 2 ^ (e + 1073).toNat) : quantize d e = 0 := by
  unfold quantize
  split_ifs with hzero hfine
  · rfl
  · omega
  · rw [Nat.shiftRight_eq_div_pow, Nat.div_eq_of_lt hd]

theorem cellCode_antitone (base c : Word) {e e' : ℤ} (h : e ≤ e') : cellCode base c e' ≤ cellCode base c e :=
  quantize_antitone _ h

/-- Two cells differ by less than `2^1026`, which is half a quantum at `e = 1027`. -/
theorem cellCode_eq_zero (base c : Word) {e : ℤ} (he : 1027 ≤ e) : cellCode base c e = 0 := by
  obtain ⟨n, hn⟩ : ∃ n, (e + 1073).toNat = n + 1 := ⟨(e + 1073).toNat - 1, by omega⟩
  have hc := scaledMag_lt c (n := n) (by omega)
  have hbase := scaledMag_lt base (n := n) (by omega)
  rw [← scaled_natAbs] at hc hbase
  exact quantize_eq_zero (by omega) (by rw [hn, Nat.pow_succ]; omega)

theorem cellCode_eq_round {base c : Word} (e : ℤ) (h : real base ≤ real c) :
    (cellCode base c e : ℤ) = round ((real c - real base) / (2 : ℚ) ^ e) := by
  rw [cellCode, quantize_eq_round, real_sub_real h]

/-! ### The greatest code and the code width -/

theorem maxCode_le_iff (base : Word) (e : ℤ) (present : List Word) (n : ℕ) :
    maxCode base e present ≤ n ↔ ∀ c ∈ present, cellCode base c e ≤ n := by
  have hfold : ∀ acc, present.foldl (fun acc c => max acc (cellCode base c e)) acc ≤ n ↔
      acc ≤ n ∧ ∀ c ∈ present, cellCode base c e ≤ n := by
    induction present with
    | nil => simp
    | cons c cs ih => intro acc; simp [ih, and_assoc]
  simp [maxCode, hfold]

theorem cellCode_le_maxCode {base : Word} {e : ℤ} {present : List Word} : ∀ c ∈ present, cellCode base c e ≤ maxCode base e present :=
  (maxCode_le_iff ..).mp le_rfl

theorem exists_cellCode_eq_maxCode (base : Word) (e : ℤ) {present : List Word} (hne : present ≠ []) :
    ∃ c ∈ present, cellCode base c e = maxCode base e present := by
  by_contra! hnone
  have hlt : ∀ c ∈ present, cellCode base c e < maxCode base e present := fun c hc =>
    lt_of_le_of_ne (cellCode_le_maxCode c hc) (hnone c hc)
  obtain ⟨c, hc⟩ := List.exists_mem_of_ne_nil present hne
  have hpred : maxCode base e present ≤ maxCode base e present - 1 :=
    (maxCode_le_iff ..).mpr fun x hx => Nat.le_sub_one_of_lt (hlt x hx)
  have hpos := hlt c hc
  omega

theorem bitLength_le_iff {n : ℕ} (hn : n ≠ 0) (b : ℕ) : bitLength n ≤ b ↔ n < 2 ^ b := Nat.log2_lt hn

/-- The code width of a NORMAL row (R137). -/
def rowWidth (cells : List Word) (mdi base : Word) (e : ℤ) : ℕ := bitLength (maxCode base e (presentCells cells mdi) + 1)

theorem one_le_rowWidth (cells : List Word) (mdi base : Word) (e : ℤ) : 1 ≤ rowWidth cells mdi base e := Nat.le_add_left ..

theorem rowWidth_le_iff (cells : List Word) (mdi base : Word) (e : ℤ) (b : ℕ) :
    rowWidth cells mdi base e ≤ b ↔ maxCode base e (presentCells cells mdi) + 1 < 2 ^ b :=
  bitLength_le_iff (Nat.succ_ne_zero _) b

@[simp] theorem mem_presentCells {cells : List Word} {mdi c : Word} : c ∈ presentCells cells mdi ↔ c ∈ cells ∧ feq c mdi = false := by
  simp [presentCells]

theorem rowWidth_antitone (cells : List Word) (mdi base : Word) {e e' : ℤ} (h : e ≤ e') :
    rowWidth cells mdi base e' ≤ rowWidth cells mdi base e := by
  have hmax : maxCode base e' (presentCells cells mdi) ≤ maxCode base e (presentCells cells mdi) :=
    (maxCode_le_iff ..).mpr fun c hc => (cellCode_antitone base c h).trans (cellCode_le_maxCode c hc)
  have hfit := (rowWidth_le_iff cells mdi base e _).mp le_rfl
  exact (rowWidth_le_iff ..).mpr (by omega)

theorem rowWidth_eq_one {cells : List Word} {mdi base : Word} {e : ℤ} (h : ∀ c ∈ presentCells cells mdi, cellCode base c e = 0) :
    rowWidth cells mdi base e = 1 := by
  have hmax : maxCode base e (presentCells cells mdi) = 0 :=
    Nat.le_zero.mp ((maxCode_le_iff ..).mpr fun c hc => (h c hc).le)
  rw [rowWidth, hmax]
  rfl

/-- Every code of the row is an ordinary one in the row's width. -/
theorem cellCode_le_of_rowWidth {cells : List Word} {mdi base c : Word} {e : ℤ} (hc : c ∈ cells) (hpresent : feq c mdi = false) :
    cellCode base c e ≤ 2 ^ rowWidth cells mdi base e - 2 := by
  have hfit := (rowWidth_le_iff cells mdi base e _).mp le_rfl
  have hcode := cellCode_le_maxCode (base := base) (e := e) c (mem_presentCells.mpr ⟨hc, hpresent⟩)
  omega

/-- In a smaller width some code of the row reaches the missing code. -/
theorem exists_cellCode_of_lt_rowWidth {cells : List Word} {mdi base : Word} {e : ℤ} {b : ℕ} (hne : presentCells cells mdi ≠ [])
    (hb : b < rowWidth cells mdi base e) : ∃ c ∈ cells, feq c mdi = false ∧ 2 ^ b - 1 ≤ cellCode base c e := by
  obtain ⟨c, hc, hmax⟩ := exists_cellCode_eq_maxCode base e hne
  obtain ⟨hmem, hpresent⟩ := mem_presentCells.mp hc
  have hover : ¬ maxCode base e (presentCells cells mdi) + 1 < 2 ^ b := fun h => hb.not_ge ((rowWidth_le_iff ..).mpr h)
  exact ⟨c, hmem, hpresent, by omega⟩

/-- Settles O36: a code is the exact quotient rounded half up, and the fold over the present cells is their greatest code. -/
theorem quantizationIsExact : Obligations.QuantizationIsExact := by
  refine ⟨fun base c e _ _ hle => ?_, fun base e present hne => ⟨cellCode_le_maxCode, exists_cellCode_eq_maxCode base e hne⟩⟩
  rw [cellCode_eq_round e hle, round_eq]

/-! ### The base -/

theorem leastCell_eq_argmin (cells : List Word) : leastCell cells = cells.argmin scaled := by
  cases cells with
  | nil => rfl
  | cons c cs =>
    have hfold : ∀ best, some (cs.foldl (fun best x => if scaled x < scaled best then x else best) best) =
        cs.foldl (List.argAux fun b c => scaled b < scaled c) (some best) := by
      induction cs with
      | nil => exact fun _ => rfl
      | cons x xs ih =>
        intro best
        rw [List.foldl_cons, ih, List.foldl_cons]
        congr 1
        exact apply_ite some ..
    exact hfold c

theorem rowBase_eq_none_iff {cells : List Word} {mdi : Word} : rowBase cells mdi = none ↔ presentCells cells mdi = [] := by
  rw [rowBase, leastCell_eq_argmin, List.argmin_eq_none]

theorem real_rowBase_le {cells : List Word} {mdi base : Word} (h : rowBase cells mdi = some base) :
    ∀ c ∈ cells, feq c mdi = false → real base ≤ real c := by
  rw [rowBase, leastCell_eq_argmin] at h
  exact fun c hc hpresent => (real_le_real_iff ..).mpr (List.le_of_mem_argmin (mem_presentCells.mpr ⟨hc, hpresent⟩) h)

/-- A row splits at its base, which is present; the present cells before it are greater. -/
theorem rowBase_splits {cells : List Word} {mdi base : Word} (h : rowBase cells mdi = some base) :
    ∃ before after, cells = before ++ base :: after ∧ feq base mdi = false ∧
      ∀ c ∈ before, feq c mdi = false → scaled base < scaled c := by
  rw [rowBase, leastCell_eq_argmin] at h
  induction cells with
  | nil => cases h
  | cons x xs ih =>
    cases hx : feq x mdi with
    | true =>
      rw [presentCells, List.filter_cons_of_neg (by simp [hx])] at h
      obtain ⟨before, after, rfl, hbase, hbefore⟩ := ih h
      exact ⟨x :: before, after, rfl, hbase, by simpa [hx] using hbefore⟩
    | false =>
      rw [presentCells, List.filter_cons_of_pos (by simp [hx]), List.argmin_cons, ← presentCells] at h
      cases hrest : (presentCells xs mdi).argmin scaled with
      | none =>
        rw [hrest] at h
        obtain rfl := Option.some.inj h
        exact ⟨[], xs, rfl, hx, by simp⟩
      | some least =>
        simp only [hrest] at h
        split at h
        next hlt =>
          obtain rfl := Option.some.inj h
          obtain ⟨before, after, rfl, hbase, hbefore⟩ := ih hrest
          exact ⟨x :: before, after, rfl, hbase, by simpa [hx, hlt] using hbefore⟩
        next =>
          obtain rfl := Option.some.inj h
          exact ⟨[], xs, rfl, hx, by simp⟩

/-! ### The record of a row -/

/-- Every present cell of the row is finite: the rows that R133 lets through. -/
def presentFinite (cells : List Word) (mdi : Word) : Prop := ∀ c ∈ cells, feq c mdi = false → isFinite c = true

/-- The row has a missing cell or a code that is not 0: the rows that are not CONSTANT (R136, R137). -/
def needsCodes (cells : List Word) (mdi base : Word) (e : ℤ) : Prop := ∃ c ∈ cells, feq c mdi = true ∨ 1 ≤ cellCode base c e

theorem not_needsCodes_iff {cells : List Word} {mdi base : Word} {e : ℤ} :
    ¬ needsCodes cells mdi base e ↔ ∀ c ∈ cells, feq c mdi = false ∧ cellCode base c e = 0 := by
  simp [needsCodes]

theorem needsCodes_antitone {cells : List Word} {mdi base : Word} {e e' : ℤ} (h : e ≤ e') (hneeds : needsCodes cells mdi base e') :
    needsCodes cells mdi base e := by
  obtain ⟨c, hc, hcode⟩ := hneeds
  exact ⟨c, hc, hcode.imp_right (·.trans (cellCode_antitone base c h))⟩

/-- The NORMAL record of a row (R139). -/
def normalRowRecord (cells : List Word) (mdi base : Word) (e : ℤ) : RowRecord :=
  normalRecord base (rowWidth cells mdi base e) (cells.map (rowCode base mdi e (rowWidth cells mdi base e)))

theorem normalRowRecord_words (cells : List Word) (mdi base : Word) (e : ℤ) (hb : rowWidth cells mdi base e ≤ 63) :
    (normalRowRecord cells mdi base e).words = BitVec.ofNat 64 (0x03 * 2 ^ 56 + rowWidth cells mdi base e * 2 ^ 48) :: base ::
      pack64 (codeBits (rowWidth cells mdi base e) (cells.map (rowCode base mdi e (rowWidth cells mdi base e)))) := by
  rw [normalRowRecord, normalRecord_words, encode_normal _ (by omega)]

section
variable {bMax : ℕ} {cells : List Word} {mdi base : Word} {e : ℤ} {r : ℕ}

/-- `packRow`'s own test for a CONSTANT row. -/
theorem constantTest_iff :
    ((presentCells cells mdi).length = cells.length ∧ maxCode base e (presentCells cells mdi) = 0) ↔ ¬ needsCodes cells mdi base e := by
  rw [not_needsCodes_iff, ← Nat.le_zero, maxCode_le_iff, presentCells, List.length_filter_eq_length_iff]
  constructor
  · rintro ⟨hpresent, hzero⟩ c hc
    exact ⟨by simpa using hpresent c hc, Nat.le_zero.mp (hzero c (List.mem_filter.mpr ⟨hc, hpresent c hc⟩))⟩
  · intro h
    exact ⟨fun c hc => by simp [h c hc], fun c hc => (h c (List.mem_of_mem_filter hc)).2.le⟩

theorem packRow_allMissing (h : rowBase cells mdi = none) :
    packRow bMax cells mdi e r = .ok ⟨[0x0100000000000000], 1, 0⟩ := by
  rw [rowBase] at h
  simp only [packRow, h]
  rfl

/-- R133 to R139 where the row has a present cell. -/
theorem packRow_of_rowBase (h : rowBase cells mdi = some base) :
    packRow bMax cells mdi e r =
      if (presentCells cells mdi).any (fun c => !isFinite c) then .error (.accuracyOverflow r)
      else if (presentCells cells mdi).length = cells.length ∧ maxCode base e (presentCells cells mdi) = 0 then
        .ok ⟨[0x0200000000000000, base], 2, 0⟩
      else if bMax < rowWidth cells mdi base e then .error (.accuracyOverflow r)
      else .ok (normalRowRecord cells mdi base e) := by
  rw [rowBase] at h
  simp only [packRow, h]
  rfl

theorem not_anyNonFinite_iff : (presentCells cells mdi).any (fun c => !isFinite c) = false ↔ presentFinite cells mdi := by
  simp [presentFinite]

theorem packRow_nonFinite (h : ¬ presentFinite cells mdi) :
    packRow bMax cells mdi e r = .error (.accuracyOverflow r) := by
  rw [← not_anyNonFinite_iff, Bool.not_eq_false] at h
  cases hbase : rowBase cells mdi with
  | none => simp [rowBase_eq_none_iff.mp hbase] at h
  | some base => rw [packRow_of_rowBase hbase, if_pos h]

theorem packRow_constant (hfin : presentFinite cells mdi) (hbase : rowBase cells mdi = some base)
    (h : ¬ needsCodes cells mdi base e) : packRow bMax cells mdi e r = .ok ⟨[0x0200000000000000, base], 2, 0⟩ := by
  rw [packRow_of_rowBase hbase, not_anyNonFinite_iff.mpr hfin, if_neg Bool.false_ne_true, if_pos (constantTest_iff.mpr h)]

/-- R137 to R139: the row is NORMAL of its width, or overflows. -/
theorem packRow_normal (hfin : presentFinite cells mdi) (hbase : rowBase cells mdi = some base) (h : needsCodes cells mdi base e) :
    packRow bMax cells mdi e r =
      if bMax < rowWidth cells mdi base e then .error (.accuracyOverflow r)
      else .ok (normalRowRecord cells mdi base e) := by
  rw [packRow_of_rowBase hbase, not_anyNonFinite_iff.mpr hfin, if_neg Bool.false_ne_true,
    if_neg fun hconst => constantTest_iff.mp hconst h]

theorem presentFinite_of_packRow_ok {record : RowRecord} (h : packRow bMax cells mdi e r = .ok record) :
    presentFinite cells mdi := by
  by_contra hnot
  rw [packRow_nonFinite hnot] at h
  cases h

/-- The record of a row with a present cell is the CONSTANT one or the NORMAL one of the row's width. -/
theorem packRow_ok_cases {record : RowRecord} (h : packRow bMax cells mdi e r = .ok record)
    (hbase : rowBase cells mdi = some base) :
    (¬ needsCodes cells mdi base e ∧ record = ⟨[0x0200000000000000, base], 2, 0⟩) ∨
    (needsCodes cells mdi base e ∧ rowWidth cells mdi base e ≤ bMax ∧
      record = normalRowRecord cells mdi base e) := by
  have hfin := presentFinite_of_packRow_ok h
  by_cases hneeds : needsCodes cells mdi base e
  · rw [packRow_normal hfin hbase hneeds] at h
    split at h
    next => cases h
    next hfits => exact .inr ⟨hneeds, not_lt.mp hfits, (Except.ok.inj h).symm⟩
  · rw [packRow_constant hfin hbase hneeds] at h
    exact .inl ⟨hneeds, (Except.ok.inj h).symm⟩

/-- The record of a row that is neither ALL_MISSING nor CONSTANT has the row's width; the other two have width 0. -/
theorem packRow_ok_width {record : RowRecord} (h : packRow bMax cells mdi e r = .ok record) :
    record.width ≤ bMax ∧ ∀ base ∈ rowBase cells mdi, needsCodes cells mdi base e → record.width = rowWidth cells mdi base e := by
  cases hbase : rowBase cells mdi with
  | none =>
    rw [packRow_allMissing hbase] at h
    obtain rfl := Except.ok.inj h
    exact ⟨Nat.zero_le _, by simp⟩
  | some base =>
    rcases packRow_ok_cases h hbase with ⟨hconst, rfl⟩ | ⟨-, hfits, rfl⟩
    · exact ⟨Nat.zero_le _, by rintro _ ⟨⟩ hneeds; exact absurd hneeds hconst⟩
    · exact ⟨hfits, by rintro _ ⟨⟩ -; rfl⟩

/-- A row of finite present cells packs in width `w` where the cap allows `w` and its codes, if it has any, fit in `w`. -/
theorem exists_packRow_width_le {w : ℕ} (hfin : presentFinite cells mdi) (hw : w ≤ bMax)
    (hfits : ∀ base ∈ rowBase cells mdi, needsCodes cells mdi base e → rowWidth cells mdi base e ≤ w) :
    ∃ record, packRow bMax cells mdi e r = .ok record ∧ record.width ≤ w := by
  cases hbase : rowBase cells mdi with
  | none => exact ⟨_, packRow_allMissing hbase, Nat.zero_le _⟩
  | some base =>
    by_cases hneeds : needsCodes cells mdi base e
    · have hle := hfits base hbase hneeds
      exact ⟨_, (packRow_normal hfin hbase hneeds).trans (if_neg (hle.trans hw).not_gt), hle⟩
    · exact ⟨_, packRow_constant hfin hbase hneeds, Nat.zero_le _⟩

theorem not_presentFinite_of_exists (h : ∃ c ∈ cells, feq c mdi = false ∧ isFinite c = false) : ¬ presentFinite cells mdi := by
  obtain ⟨c, hc, hpresent, hinf⟩ := h
  intro hfin
  simp [hfin c hc hpresent] at hinf

theorem rowBase_eq_none_of_allMissing (h : ∀ c ∈ cells, feq c mdi = true) : rowBase cells mdi = none :=
  rowBase_eq_none_iff.mpr (List.filter_eq_nil_iff.mpr (by simpa using h))

end

/-- Settles O33: the three kinds by the tests of R132, R133 and R136, and the width of R137 as the least that fits. -/
theorem rowKindAndWidth : Obligations.RowKindAndWidth := by
  intro bMax cells mdi e r
  refine ⟨fun h => packRow_allMissing (rowBase_eq_none_of_allMissing h),
    fun h => packRow_nonFinite (not_presentFinite_of_exists h), fun base hbase hfin =>
    ⟨fun h => packRow_constant hfin hbase (not_needsCodes_iff.mpr h), fun hneeds => ?_⟩⟩
  have hne : presentCells cells mdi ≠ [] := fun hnil => by simp [rowBase_eq_none_iff.mpr hnil] at hbase
  have hpack := packRow_normal (bMax := bMax) (r := r) hfin hbase hneeds
  refine ⟨rowWidth cells mdi base e, one_le_rowWidth .., fun c hc => cellCode_le_of_rowWidth hc, fun b hb => ?_,
    fun hover => hpack.trans (if_pos hover), fun hfits =>
    ⟨_, hpack.trans (if_neg hfits.not_gt), rfl, rfl, fun hcap => normalRowRecord_words cells mdi base e (hfits.trans hcap)⟩⟩
  obtain ⟨c, hc, hpresent, hcode⟩ := exists_cellCode_of_lt_rowWidth hne hb
  refine ⟨c, hc, hpresent, ?_⟩
  zify [Nat.one_le_two_pow] at hcode
  omega

/-- Settles O35: the row splits at its base, and both records with a base hold it as their second word. -/
theorem baseIsTheFirstLeastPresentCell : Obligations.BaseIsTheFirstLeastPresentCell := by
  intro cells mdi base _ hbase
  have hleast := real_rowBase_le hbase
  have hstored : ∀ bMax e r record, packRow bMax cells mdi e r = .ok record → record.words[1]? = some base := by
    intro bMax e r record h
    rcases packRow_ok_cases h hbase with ⟨-, rfl⟩ | ⟨-, -, rfl⟩ <;> rfl
  obtain ⟨before, after, rfl, hpresent, hbefore⟩ := rowBase_splits hbase
  refine ⟨before.length, by simp, by simp, hpresent, hleast, fun i hi hcell => ?_, hstored⟩
  rw [List.getElem_append_left hi] at hcell ⊢
  exact (real_lt_real_iff ..).mpr (hbefore _ (List.getElem_mem hi) hcell)

/-! ### Error and monotonicity -/

/-- R141 for the exact quotient `x / 2^e` and its rounding. -/
theorem abs_sub_round_mul_le (x : ℚ) (e : ℤ) :
    |x - round (x / 2 ^ e) * (2 : ℚ) ^ e| ≤ 2 ^ (e - 1) ∧
      (|x - round (x / 2 ^ e) * (2 : ℚ) ^ e| = 2 ^ (e - 1) → ∃ k : ℤ, x / 2 ^ e = (2 * k + 1) / 2) := by
  have hpos : (0 : ℚ) < 2 ^ e := zpow_pos two_pos e
  have hscale : |x - round (x / 2 ^ e) * (2 : ℚ) ^ e| = |x / 2 ^ e - round (x / 2 ^ e)| * 2 ^ e := by
    rw [← abs_of_pos hpos, ← abs_mul, abs_of_pos hpos, sub_mul, div_mul_cancel₀ _ hpos.ne']
  rw [hscale, zpow_sub_one₀ two_ne_zero, mul_comm (2 ^ e : ℚ), mul_le_mul_iff_of_pos_right hpos, mul_left_inj' hpos.ne']
  refine ⟨by simpa using abs_sub_round (x / 2 ^ e), fun htie => ?_⟩
  rcases abs_eq (by norm_num : (0 : ℚ) ≤ 2⁻¹) |>.mp htie with hup | hdown
  · exact ⟨round (x / 2 ^ e), by linarith⟩
  · exact ⟨round (x / 2 ^ e) - 1, by push_cast; linarith⟩

/-- Settles O37: a code is a rounded quotient, so it is off by at most half a quantum; a CONSTANT row has only codes 0. -/
theorem quantizationErrorBound : Obligations.QuantizationErrorBound := by
  intro bMax cells mdi e r record base h hbase c hc
  obtain ⟨hmem, hpresent⟩ := mem_presentCells.mp hc
  have hle := real_rowBase_le hbase c hmem hpresent
  have hcode := cellCode_eq_round e hle
  have hcast : (cellCode base c e : ℚ) = round ((real c - real base) / (2 : ℚ) ^ e) := by exact_mod_cast hcode
  obtain ⟨hbound, htie⟩ := abs_sub_round_mul_le (real c - real base) e
  rw [← sub_sub, hcast]
  refine ⟨hbound, htie, fun hkind => ?_⟩
  have hzero : cellCode base c e = 0 := by
    rcases packRow_ok_cases h hbase with ⟨hconst, -⟩ | ⟨-, -, rfl⟩
    · exact (not_needsCodes_iff.mp hconst c hmem).2
    · cases hkind
  rw [hzero, Nat.cast_zero, eq_comm, round_eq_zero_iff] at hcode
  refine ⟨hzero, hle, ?_⟩
  have hhalf := (div_lt_iff₀ (zpow_pos two_pos e)).mp hcode.2
  rw [zpow_sub_one₀ two_ne_zero]
  linarith

/-- Settles O38: codes and width fall as `e` grows, and from `e = 1027` on every code is 0. -/
theorem coarserAccuracyNeedsNoMoreBits : Obligations.CoarserAccuracyNeedsNoMoreBits := by
  intro bMax cells mdi r hcap
  refine ⟨fun hfin => ⟨fun base _ c _ e e' hee => cellCode_antitone base c hee, fun e e' rec0 hee h => ?_,
    1027, by decide, by decide, fun e he => ⟨fun base _ c _ => cellCode_eq_zero base c he, ?_⟩⟩,
    fun h e => packRow_nonFinite (not_presentFinite_of_exists h)⟩
  · obtain ⟨hwidth, hexact⟩ := packRow_ok_width h
    refine exists_packRow_width_le hfin hwidth fun base hbase hneeds => ?_
    rw [hexact base hbase (needsCodes_antitone hee hneeds)]
    exact rowWidth_antitone cells mdi base hee
  · exact exists_packRow_width_le hfin hcap fun base _ _ => (rowWidth_eq_one fun c _ => cellCode_eq_zero base c he).le

end Sys2Proof.Machine
end

section
/-! Proofs for 43_row_unpacker, sections 1 to 5: the descriptor check (R151, R152), the meanings of the three row descriptors (R153
to R155, R157), and the codes read back from the code words (30_encoding R74). -/

namespace Sys2Proof.Machine

/-! ### Reading the descriptor -/

theorem Transient.word_eq {t : Transient} {k : Nat} {w : Word} (h : t.work[k]? = some w) : t.word k = w := by
  simp [Transient.word, h]

/-- R151: at or past the limit no descriptor is read. -/
theorem Transient.descriptor_truncated (bMax : Nat) {t : Transient} (hl : t.lim ≤ t.cur) :
    t.descriptor bMax = .error (.truncatedRow t.row) := if_pos hl

theorem Transient.descriptor_ok {bMax : Nat} {t : Transient} {w : Word} {d : RowDescriptor} (hl : t.cur < t.lim)
    (hw : t.work[t.cur]? = some w) (hd : decodeDescriptor bMax w = some d) : t.descriptor bMax = .ok d := by
  rw [Transient.descriptor, if_neg hl.not_ge, Transient.word_eq hw, hd]

/-- In the middle of a row decode, a descriptor that fails its check is one step, an error entry. -/
theorem step_descriptor_error {s : State} {t : Transient} {e : CodecError} (ht : s.transient = some t) (hrow : t.row < t.rows)
    (hd : t.descriptor s.cfg.bMax = .error e) : step s = .next (s.raise e) := by
  simp only [step, State.fetch, ht, State.fetchRow, hrow, if_true, hd]

/-- Settles O43: the limit is checked before the word, and the word before the record's length. -/
theorem descriptorIsCheckedFirst : Obligations.DescriptorIsCheckedFirst := by
  refine fun s t ht hrow => ⟨fun hl => step_descriptor_error ht hrow (t.descriptor_truncated _ hl), fun d hl hword hd => ?_⟩
  refine step_descriptor_error ht hrow (t.descriptor_corrupt _ hl ?_)
  rwa [Transient.word_eq hword, ← decodeDescriptor_eq_none_iff]

/-! ### Running a descriptor -/

section
variable {s : State} {t : Transient} {f : Transient → Except CodecError Transient} (ht : s.transient = some t)
include ht

theorem State.runRecord_ok {u : Transient} (hf : f t = .ok u) : s.runRecord f = .next { s with transient := some u } := by
  rw [s.runRecord_some t f ht, hf]

theorem State.runRecord_error {e : CodecError} (hf : f t = .error e) : s.runRecord f = .next (s.raise e) := by
  rw [s.runRecord_some t f ht, hf]

end

/-- Settles O40: the rule of R153 has no check. -/
theorem allMissingFillsTheRow : Obligations.AllMissingFillsTheRow :=
  fun _ _ ht => State.runRecord_ok ht (f := allMissingRecord) rfl

theorem constantRecord_truncated {t : Transient} (hl : t.lim ≤ t.cur + 1) :
    constantRecord t = .error (.truncatedRow t.row) := if_pos hl

theorem constantRecord_ok {t : Transient} {base : Word} (hl : t.cur + 1 < t.lim) (hb : t.work[t.cur + 1]? = some base) :
    constantRecord t = .ok (t.emit (List.replicate t.cols base) 2 2) := by
  rw [constantRecord, if_neg hl.not_ge, Transient.word_eq hb]

/-- Settles O41: the one check of R154, then the base word in every column. -/
theorem constantFillsTheRow : Obligations.ConstantFillsTheRow :=
  fun _ _ ht => ⟨fun hl => State.runRecord_error ht (constantRecord_truncated hl),
    fun _ hl hb => State.runRecord_ok ht (constantRecord_ok hl hb)⟩

/-! ### The codes of a NORMAL record -/

/-- R74 read back: the `b` bits at position `i * b` of a code bit string are code `i`, whatever follows the string. -/
theorem subBits_codeBits (b : Nat) (codes : List Nat) (pad : List Bool) (hk : ∀ k ∈ codes, k < 2 ^ b) (i : Nat)
    (hi : i < codes.length) : subBits (codeBits b codes ++ pad) (i * b) b = codes[i] := by
  induction codes generalizing i with
  | nil => simp at hi
  | cons k ks ih =>
    obtain ⟨hkhead, hktail⟩ := List.forall_mem_cons.mp hk
    cases i with
    | zero =>
      rw [codeBits, List.append_assoc, subBits, Nat.zero_mul, List.drop_zero, List.take_left' (bitsMSB_length k b),
        bitsValue_bitsMSB, Nat.mod_eq_of_lt hkhead]
      rfl
    | succ i =>
      have hdrop : (bitsMSB k b ++ (codeBits b ks ++ pad)).drop ((i + 1) * b) = (codeBits b ks ++ pad).drop (i * b) := by
        rw [Nat.succ_mul, Nat.add_comm, ← List.drop_drop, List.drop_left' (bitsMSB_length k b)]
      rw [codeBits, List.append_assoc, subBits, hdrop]
      exact ih hktail i (by simpa using hi)

theorem codesOf_codeBits (b : Nat) (codes : List Nat) (pad : List Bool) (hk : ∀ k ∈ codes, k < 2 ^ b) :
    codesOf (codeBits b codes ++ pad) b codes.length = codes :=
  List.ext_getElem (by simp [codesOf]) fun i _ hi => by simpa [codesOf] using subBits_codeBits b codes pad hk i hi

theorem normalRecordOn_truncated {b : Nat} {t : Transient} (hl : t.lim < t.cur + 2 + wordsFor (t.cols * b)) :
    normalRecordOn b t = .error (.truncatedRow t.row) := if_pos hl

/-- R155, R157: a NORMAL record within the limit, from the codes that its words hold. -/
theorem normalRecordOn_ok {b : Nat} {t : Transient} {base : Word} {codes : List Nat} {pad : List Bool}
    (hl : t.cur + 2 + wordsFor (t.cols * b) ≤ t.lim) (hb : t.work[t.cur + 1]? = some base) (hn : codes.length = t.cols)
    (hk : ∀ k ∈ codes, k < 2 ^ b)
    (hs : unpack64 ((t.work.drop (t.cur + 2)).take (wordsFor (t.cols * b))) = codeBits b codes ++ pad) :
    normalRecordOn b t = .ok (t.emit (codes.map (normalCell base t.mdi t.acc b)) 3 (2 + wordsFor (t.cols * b))) := by
  have hcodes : codesOf (codeBits b codes ++ pad) b t.cols = codes := hn ▸ codesOf_codeBits b codes pad hk
  simp only [normalRecordOn, if_neg hl.not_gt, hs, Transient.word_eq hb, hcodes]

/-- Settles O42: the one check of R155, then the codes that the words hold, each as its cell. -/
theorem normalDecodesTheCodes : Obligations.NormalDecodesTheCodes :=
  fun _ _ _ ht _ => ⟨fun hl => State.runRecord_error ht (normalRecordOn_truncated hl),
    fun _ _ _ hl hb hn hk hs => State.runRecord_ok ht (normalRecordOn_ok hl hb hn hk hs)⟩

end Sys2Proof.Machine
end

section
/-! Proofs for 43_row_unpacker, R156, and 00_scope R12: reconstruction rounds an exact sum once to the nearest binary64, ties to
even. A sum `x * 2^t` is rounded on the grid of the multiples of `2^t`, the spacing of the binary64 values about it. -/

namespace Sys2Proof.Machine

/-! ### Patterns by sign and magnitude -/

theorem expField_eq (w : Word) : expField w = w.toNat / 2 ^ 52 % 2 ^ 11 := field_toNat w 52 11

theorem fracField_eq (w : Word) : fracField w = w.toNat % 2 ^ 52 := by
  rw [fracField, field_toNat, pow_zero, Nat.div_one]

/-- The pattern with this sign bit and these bits 62:0. -/
def signedPattern (neg : Bool) (p : ℕ) : Word := BitVec.ofNat 64 (neg.toNat * 2 ^ 63 + p)

section
variable {p : ℕ} (neg : Bool) (hp : p < 2 ^ 63)
include hp

theorem signedPattern_toNat : (signedPattern neg p).toNat = neg.toNat * 2 ^ 63 + p := by
  have hneg := neg.toNat_le
  rw [signedPattern, BitVec.toNat_ofNat]
  omega

theorem expField_signedPattern : expField (signedPattern neg p) = p / 2 ^ 52 := by
  rw [expField_eq, signedPattern_toNat neg hp]
  omega

theorem fracField_signedPattern : fracField (signedPattern neg p) = p % 2 ^ 52 := by
  rw [fracField_eq, signedPattern_toNat neg hp]
  omega

theorem signBit_signedPattern : signBit (signedPattern neg p) = neg := by
  rw [signBit, BitVec.getLsbD, signedPattern_toNat neg hp, Nat.testBit_eq_decide_div_mod_eq]
  cases neg <;> simp <;> omega

end

theorem isFinite_signedPattern (neg : Bool) {p : ℕ} (hp : p < posInf) : isFinite (signedPattern neg p) = true := by
  have hlt : p < 2047 * 2 ^ 52 := hp
  rw [isFinite, expField_signedPattern neg (by omega), decide_eq_true_eq]
  omega

/-- The sign of a value. -/
def signFactor (neg : Bool) : ℚ := if neg then -1 else 1

theorem signFactor_mul_self (neg : Bool) : signFactor neg * signFactor neg = 1 := by cases neg <;> norm_num [signFactor]

theorem abs_signFactor (neg : Bool) : |signFactor neg| = 1 := by cases neg <;> norm_num [signFactor]

theorem real_eq_sign_mul (w : Word) : real w = signFactor (signBit w) * (scaledMag w * (2 : ℚ) ^ (-1074 : ℤ)) := by
  rw [real_eq_scaled, scaled]
  cases signBit w <;> simp [signFactor]

/-- The exponent and fraction fields as one number are `T * 2^52 + s` where the magnitude is `s` units of `2^(T-1074)`: a carry out of
the fraction runs into the exponent. -/
theorem scaledMag_of_fields {w : Word} {T s : ℕ} (hfields : expField w * 2 ^ 52 + fracField w = T * 2 ^ 52 + s)
    (hle : s ≤ 2 ^ 53) (hge : T = 0 ∨ 2 ^ 52 ≤ s) : scaledMag w = s * 2 ^ T := by
  have hfrac : fracField w < 2 ^ 52 := BitVec.isLt _
  unfold scaledMag
  rcases Nat.lt_or_ge s (2 ^ 52) with hsub | hnormal
  · rw [if_pos (by omega), show T = 0 by omega]
    omega
  · rw [if_neg (by omega), Nat.shiftLeft_eq]
    rcases Nat.lt_or_eq_of_le hle with hlt | rfl
    · rw [show expField w - 1 = T by omega, show 2 ^ 52 + fracField w = s by omega]
    · rw [show expField w - 1 = T + 1 by omega, show fracField w = 0 by omega, Nat.pow_succ 2 T]
      omega

/-- Every magnitude is a multiple of `2^T` units or lies below the numbers whose spacing is `2^T` units. -/
theorem scaledMag_grid (w : Word) (T : ℕ) : 2 ^ T ∣ scaledMag w ∨ (0 < T ∧ scaledMag w < 2 ^ 52 * 2 ^ T) := by
  have hfrac : fracField w < 2 ^ 52 := BitVec.isLt _
  rcases Nat.eq_zero_or_pos T with rfl | hT
  · exact .inl (one_dvd _)
  · unfold scaledMag
    split
    · exact .inr ⟨hT, hfrac.trans_le (Nat.le_mul_of_pos_right _ (Nat.two_pow_pos T))⟩
    · rw [Nat.shiftLeft_eq]
      rcases Nat.lt_or_ge (expField w - 1) T with hbelow | habove
      · refine .inr ⟨hT, ?_⟩
        calc (2 ^ 52 + fracField w) * 2 ^ (expField w - 1)
            < 2 ^ 53 * 2 ^ (expField w - 1) := Nat.mul_lt_mul_of_pos_right (by omega) (Nat.two_pow_pos _)
          _ = 2 ^ 52 * 2 ^ (expField w - 1 + 1) := by ring
          _ ≤ 2 ^ 52 * 2 ^ T := Nat.mul_le_mul_left _ (Nat.pow_le_pow_right two_pos hbelow)
      · exact .inl (Dvd.dvd.mul_left (Nat.pow_dvd_pow 2 habove) _)

/-- Every binary64 value is a multiple of `2^t`, or lies below the values whose spacing is `2^t`. -/
theorem real_grid (w : Word) {t : ℤ} (ht : -1074 ≤ t) :
    (∃ j : ℤ, real w = j * (2 : ℚ) ^ t) ∨ (-1074 < t ∧ |real w| < 2 ^ 52 * (2 : ℚ) ^ t) := by
  obtain ⟨T, hT⟩ := Int.eq_ofNat_of_zero_le (show 0 ≤ t + 1074 by omega)
  have hunit : (2 : ℚ) ^ t = 2 ^ T * 2 ^ (-1074 : ℤ) := by
    rw [show t = T + -1074 by omega, zpow_add₀ two_ne_zero, zpow_natCast]
  rcases scaledMag_grid w T with hdvd | ⟨hpos, hlt⟩
  · left
    rw [← scaled_natAbs, ← Int.natCast_dvd] at hdvd
    obtain ⟨j, hj⟩ := hdvd
    refine ⟨j, ?_⟩
    rw [real_eq_scaled, hj, hunit]
    generalize (2 : ℚ) ^ (-1074 : ℤ) = unit
    push_cast
    ring
  · right
    refine ⟨by omega, ?_⟩
    rw [real_eq_sign_mul, abs_mul, abs_signFactor, one_mul, abs_of_nonneg (by positivity), hunit, ← mul_assoc]
    exact mul_lt_mul_of_pos_right (by exact_mod_cast hlt) (zpow_pos two_pos _)

/-- A binary64 value, of either sign, as a point in units of `2^t`. -/
theorem grid_point {w : Word} {t : ℤ} {neg : Bool} {z : ℚ} (ht : -1074 ≤ t) (hz : real w = signFactor neg * (z * (2 : ℚ) ^ t)) :
    (∃ j : ℤ, z = j) ∨ (-1074 < t ∧ z < 2 ^ 52) := by
  have hpos : (0 : ℚ) < 2 ^ t := zpow_pos two_pos t
  rcases real_grid w ht with ⟨j, hj⟩ | ⟨hlow, hlt⟩
  · left
    have hsigned : signFactor neg * z = j := by
      rw [hz, ← mul_assoc] at hj
      exact mul_right_cancel₀ hpos.ne' hj
    cases neg
    · exact ⟨j, by simpa [signFactor] using hsigned⟩
    · exact ⟨-j, by rw [Int.cast_neg, ← hsigned]; simp [signFactor]⟩
  · right
    rw [hz, abs_mul, abs_signFactor, one_mul, abs_mul, abs_of_pos hpos, mul_lt_mul_iff_of_pos_right hpos] at hlt
    exact ⟨hlow, (le_abs_self z).trans_lt hlt⟩

/-! ### Rounding to an integer -/

/-- `s` is the integer nearest to `x`, the even one at a tie. -/
structure RoundsTo (x : ℚ) (s : ℕ) : Prop where
  near : |(s : ℚ) - x| ≤ 1 / 2
  even_of_tie : |(s : ℚ) - x| = 1 / 2 → s % 2 = 0

theorem roundsTo_self (s : ℕ) : RoundsTo s s := ⟨by norm_num, by norm_num⟩

/-- The quotient `q + rem / (2 * h)` rounds up where the remainder is more than half of the divisor, or half of it and `q` is odd. -/
theorem roundsTo_quotient {q rem h : ℕ} (hlt : rem < 2 * h) :
    RoundsTo (q + rem / (2 * h : ℕ)) (if h < rem ∨ (rem = h ∧ q % 2 = 1) then q + 1 else q) := by
  have hpos : (0 : ℚ) < (2 * h : ℕ) := by exact_mod_cast (Nat.zero_le rem).trans_lt hlt
  have hnonneg : (0 : ℚ) ≤ rem / (2 * h : ℕ) := by positivity
  have hle_one : (rem : ℚ) / (2 * h : ℕ) ≤ 1 := (div_le_one hpos).mpr (by exact_mod_cast hlt.le)
  have hle : (rem : ℚ) / (2 * h : ℕ) ≤ 1 / 2 ↔ rem ≤ h := by
    rw [div_le_div_iff₀ hpos two_pos]; norm_cast; omega
  have hge : (1 : ℚ) / 2 ≤ rem / (2 * h : ℕ) ↔ h ≤ rem := by
    rw [div_le_div_iff₀ two_pos hpos]; norm_cast; omega
  generalize (rem : ℚ) / (2 * h : ℕ) = y at *
  split_ifs with hup
  · have herr : |((q + 1 : ℕ) : ℚ) - (q + y)| = 1 - y := by
      rw [Nat.cast_succ, add_sub_add_left_eq_sub, abs_of_nonneg (sub_nonneg.mpr hle_one)]
    constructor <;> rw [herr]
    · linarith [hge.mpr (by omega)]
    · intro htie
      have hrem := hle.mp (by linarith)
      omega
  · have herr : |(q : ℚ) - (q + y)| = y := by rw [sub_add_cancel_left, abs_neg, abs_of_nonneg hnonneg]
    constructor <;> rw [herr]
    · exact hle.mpr (by omega)
    · intro htie
      have := hge.mp htie.ge
      omega

theorem roundsTo_roundEven (m k : ℕ) : RoundsTo ((m : ℚ) / 2 ^ k) (roundEven m k) := by
  cases k with
  | zero => simpa [roundEven] using roundsTo_self m
  | succ j =>
    have hdiv : m = m >>> (j + 1) * (2 * 2 ^ j) + m % (2 * 2 ^ j) := by
      rw [Nat.shiftRight_eq_div_pow, Nat.pow_succ', Nat.div_add_mod']
    have hlt : m % (2 * 2 ^ j) < 2 * 2 ^ j := Nat.mod_lt _ (by positivity)
    have hrem : m - (m >>> (j + 1)) <<< (j + 1) = m % (2 * 2 ^ j) := by
      rw [Nat.shiftLeft_eq, Nat.pow_succ']
      omega
    have hexact : (m : ℚ) / 2 ^ (j + 1) = m >>> (j + 1) + (m % (2 * 2 ^ j) : ℕ) / (2 * 2 ^ j : ℕ) := by
      rw [eq_comm, add_div_eq_mul_add_div _ _ (by positivity)]
      conv_rhs => rw [hdiv]
      push_cast
      rw [pow_succ']
    simp only [roundEven, Nat.succ_ne_zero, if_false, hrem, Nat.add_sub_cancel, Nat.one_shiftLeft]
    rw [hexact]
    exact roundsTo_quotient hlt

/-- No integer is nearer, and where another is equally near, `s` is even. -/
theorem RoundsTo.le_int {x : ℚ} {s : ℕ} (h : RoundsTo x s) (j : ℤ) :
    |(s : ℚ) - x| ≤ |(j : ℚ) - x| ∧ (|(s : ℚ) - x| = |(j : ℚ) - x| → (j : ℚ) ≠ s → s % 2 = 0) := by
  obtain ⟨hnear, htie⟩ := h
  rcases eq_or_ne (j : ℚ) s with heq | hne
  · exact ⟨by rw [heq], fun _ hne => absurd heq hne⟩
  · have hapart : (1 : ℚ) ≤ |(j : ℚ) - s| := by
      have hint : j - s ≠ 0 := sub_ne_zero.mpr (by exact_mod_cast hne)
      exact_mod_cast Int.one_le_abs hint
    have htriangle : |(j : ℚ) - s| ≤ |(j : ℚ) - x| + |(s : ℚ) - x| := by
      rw [abs_sub_comm (s : ℚ)]
      exact abs_sub_le ..
    exact ⟨by linarith, fun heq _ => htie (by linarith)⟩

/-! ### Rounding to a binary64 value -/

/-- The least magnitude that rounds to infinity, in units of the greatest spacing. -/
theorem overflowBound_eq : overflowBound = (2 ^ 53 - 1 / 2) * (2 : ℚ) ^ (971 : ℤ) := by
  have htop : (2 : ℚ) ^ 1024 = 2 ^ 54 * 2 ^ 970 := by rw [← pow_add]
  have hunit : (2 : ℚ) ^ (971 : ℤ) = 2 * 2 ^ 970 := by rw [← pow_succ']; rfl
  rw [overflowBound, htop, hunit]
  generalize (2 : ℚ) ^ 970 = u
  ring

/-- `x * 2^t` lies where the binary64 values are spaced by `2^t`, and `s` is `x` rounded to an integer. -/
structure RoundsOnGrid (x : ℚ) (t : ℤ) (s : ℕ) : Prop extends RoundsTo x s where
  unit_ge : -1074 ≤ t
  lt : x < 2 ^ 53
  ge : -1074 < t → 2 ^ 52 ≤ x

/-- The exponent and fraction fields, as one number, of `s` units of `2^t`. -/
def gridFields (t : ℤ) (s : ℕ) : ℕ := (t + 1074).toNat * 2 ^ 52 + s

section
variable {x : ℚ} {t : ℤ} {s : ℕ} (h : RoundsOnGrid x t s)
include h

theorem RoundsOnGrid.sig_le : s ≤ 2 ^ 53 := by
  have hnear := (abs_le.mp h.near).2
  have hlt : (s : ℚ) < (2 ^ 53 + 1 : ℕ) := by push_cast; linarith [h.lt]
  exact Nat.lt_succ_iff.mp (by exact_mod_cast hlt)

theorem RoundsOnGrid.sig_ge (ht : -1074 < t) : 2 ^ 52 ≤ s := by
  have hnear := (abs_le.mp h.near).1
  have hlt : (2 ^ 52 : ℚ) < (s + 1 : ℕ) := by push_cast; linarith [h.ge ht]
  exact Nat.lt_succ_iff.mp (by exact_mod_cast hlt)

/-- `x * 2^t` rounds to the greatest significand plus one exactly from half a unit below it on. -/
theorem RoundsOnGrid.sig_eq_top_iff : s = 2 ^ 53 ↔ 2 ^ 53 - 1 / 2 ≤ x := by
  have hnear := abs_le.mp h.near
  constructor
  · rintro rfl
    push_cast at hnear
    linarith [hnear.2]
  · intro hx
    have hle := h.sig_le
    have hge : (2 ^ 53 - 1 : ℚ) ≤ s := by linarith [hnear.1]
    have hge' : 2 ^ 53 ≤ s + 1 := by
      have : (2 ^ 53 : ℚ) ≤ (s + 1 : ℕ) := by push_cast; linarith
      exact_mod_cast this
    by_contra hne
    have hs : s = 2 ^ 53 - 1 := by omega
    have htie : |(s : ℚ) - x| = 1 / 2 := by
      refine le_antisymm h.near ?_
      rw [abs_sub_comm]
      refine le_trans ?_ (le_abs_self _)
      rw [hs]
      push_cast
      linarith
    have heven := h.even_of_tie htie
    omega

/-- The fields reach the pattern of infinity exactly where the value reaches the overflow bound. -/
theorem RoundsOnGrid.overflow_iff : posInf ≤ gridFields t s ↔ overflowBound ≤ x * 2 ^ t := by
  have hpos : (0 : ℚ) < 2 ^ t := zpow_pos two_pos t
  have hsig := h.sig_le
  rw [overflowBound_eq, show posInf = 2047 * 2 ^ 52 from rfl, gridFields]
  rcases lt_trichotomy t 971 with hlow | rfl | hhigh
  · have hunit : 2 * (2 : ℚ) ^ t ≤ 2 ^ (971 : ℤ) := by
      rw [← zpow_one_add₀ two_ne_zero]
      exact zpow_le_zpow_right₀ one_le_two (by omega)
    have hvalue : x * 2 ^ t < 2 ^ 53 * 2 ^ t := mul_lt_mul_of_pos_right h.lt hpos
    generalize (2 : ℚ) ^ (971 : ℤ) = unit at hunit ⊢
    exact iff_of_false (by omega) (by linarith)
  · rw [mul_le_mul_iff_of_pos_right hpos, ← h.sig_eq_top_iff]
    omega
  · have hunit : 2 * (2 : ℚ) ^ (971 : ℤ) ≤ 2 ^ t := by
      rw [← zpow_one_add₀ two_ne_zero]
      exact zpow_le_zpow_right₀ one_le_two (by omega)
    have hvalue : 2 ^ 52 * 2 ^ t ≤ x * 2 ^ t := mul_le_mul_of_nonneg_right (h.ge (by omega)) hpos.le
    have hge := h.sig_ge (by omega)
    have hpos' : (0 : ℚ) < 2 ^ (971 : ℤ) := zpow_pos two_pos _
    generalize (2 : ℚ) ^ (971 : ℤ) = unit at hunit hpos' ⊢
    exact iff_of_true (by omega) (by linarith)

/-- No point that the binary64 values can have in units of `2^t` is nearer to `x` than `s`. -/
theorem RoundsOnGrid.le_point {z : ℚ} (hz : (∃ j : ℤ, z = j) ∨ (-1074 < t ∧ z < 2 ^ 52)) :
    |(s : ℚ) - x| ≤ |z - x| ∧ (|(s : ℚ) - x| = |z - x| → z ≠ s → s % 2 = 0) := by
  rcases hz with ⟨j, rfl⟩ | ⟨ht, hz⟩
  · exact h.le_int j
  · have hge := h.ge ht
    have hleast := (h.le_int (2 ^ 52)).1
    rw [abs_sub_comm ((2 ^ 52 : ℤ) : ℚ), Int.cast_pow, Int.cast_ofNat, abs_of_nonneg (sub_nonneg.mpr hge)] at hleast
    have hlt : |(s : ℚ) - x| < |z - x| := by
      rw [abs_sub_comm z, abs_of_pos (by linarith : 0 < x - z)]
      linarith
    exact ⟨hlt.le, fun heq => absurd heq hlt.ne⟩

section
variable (neg : Bool) (hfin : gridFields t s < posInf)
include hfin

/-- The pattern with these fields has the value `s * 2^t`, with its sign. -/
theorem RoundsOnGrid.real_pattern : real (signedPattern neg (gridFields t s)) = signFactor neg * (s * (2 : ℚ) ^ t) := by
  have hlt : gridFields t s < 2 ^ 63 := hfin.trans (by decide)
  have hfields : expField (signedPattern neg (gridFields t s)) * 2 ^ 52 + fracField (signedPattern neg (gridFields t s)) =
      (t + 1074).toNat * 2 ^ 52 + s := by
    rw [expField_signedPattern neg hlt, fracField_signedPattern neg hlt, Nat.div_add_mod']
    rfl
  have hnormal : (t + 1074).toNat = 0 ∨ 2 ^ 52 ≤ s := by
    rcases h.unit_ge.eq_or_lt with rfl | ht
    · exact .inl rfl
    · exact .inr (h.sig_ge ht)
  have hunit : (2 : ℚ) ^ t = 2 ^ (t + 1074).toNat * 2 ^ (-1074 : ℤ) := by
    have hge := h.unit_ge
    rw [← zpow_natCast, ← zpow_add₀ two_ne_zero]
    congr 1
    omega
  rw [real_eq_sign_mul, signBit_signedPattern neg hlt, scaledMag_of_fields hfields h.sig_le hnormal, hunit, ← mul_assoc (s : ℚ),
    Nat.cast_mul, Nat.cast_pow, Nat.cast_ofNat]

/-- The pattern with these fields is the rounding of the value, with its sign. -/
theorem RoundsOnGrid.nearestEven_pattern :
    nearestEven (signFactor neg * (x * 2 ^ t)) (signedPattern neg (gridFields t s)) := by
  have hpos : (0 : ℚ) < 2 ^ t := zpow_pos two_pos t
  have hdist : ∀ y : ℚ, |signFactor neg * (y * 2 ^ t) - signFactor neg * (x * 2 ^ t)| = |y - x| * 2 ^ t := fun y => by
    rw [← mul_sub, ← sub_mul, abs_mul, abs_mul, abs_signFactor, one_mul, abs_of_pos hpos]
  have hfrac : fracField (signedPattern neg (gridFields t s)) % 2 = s % 2 := by
    rw [fracField_signedPattern neg (hfin.trans (by decide)), gridFields]
    omega
  refine ⟨isFinite_signedPattern neg hfin, fun y _ => ?_⟩
  obtain ⟨z, hz⟩ : ∃ z, real y = signFactor neg * (z * 2 ^ t) :=
    ⟨signFactor neg * real y / 2 ^ t, by rw [div_mul_cancel₀ _ hpos.ne', ← mul_assoc, signFactor_mul_self, one_mul]⟩
  obtain ⟨hle, htie⟩ := h.le_point (grid_point h.unit_ge hz)
  rw [h.real_pattern neg hfin, hz, hdist, hdist, hfrac]
  refine ⟨mul_le_mul_of_nonneg_right hle hpos.le, fun heq hne => htie (mul_right_cancel₀ hpos.ne' heq) ?_⟩
  rintro rfl
  exact hne rfl

end

end

/-! ### The model's rounding -/

/-- `roundMag`'s exponent of the unit: 53 bits below the leading bit, or that of the least subnormal. -/
def roundUnit (m : ℕ) (u : ℤ) : ℤ := max (u + (bitLength m : ℤ) - 53) (-1074)

/-- `roundMag`'s significand, in units of `2^t`. -/
def roundSig (m : ℕ) (u t : ℤ) : ℕ := if t ≤ u then m <<< (u - t).toNat else roundEven m (t - u).toNat

theorem roundMag_eq (m : ℕ) (u : ℤ) :
    roundMag m u = min (gridFields (roundUnit m u) (roundSig m u (roundUnit m u))) posInf := rfl

theorem roundsTo_roundSig (m : ℕ) (u t : ℤ) : RoundsTo (m * (2 : ℚ) ^ (u - t)) (roundSig m u t) := by
  unfold roundSig
  split
  next hfine =>
    obtain ⟨n, hn⟩ := Int.eq_ofNat_of_zero_le (sub_nonneg.mpr hfine)
    rw [hn, Int.toNat_natCast, zpow_natCast, Nat.shiftLeft_eq]
    exact_mod_cast roundsTo_self (m * 2 ^ n)
  next hcoarse =>
    obtain ⟨n, hn⟩ := Int.eq_ofNat_of_zero_le (show 0 ≤ t - u by omega)
    rw [← neg_sub t u, hn, Int.toNat_natCast, zpow_neg, zpow_natCast, ← div_eq_mul_inv]
    exact roundsTo_roundEven m n

/-- The unit that `roundMag` chooses is the spacing of the binary64 values about `m * 2^u`. -/
theorem roundsOnGrid_roundSig {m : ℕ} (hm : m ≠ 0) (u : ℤ) :
    RoundsOnGrid (m * (2 : ℚ) ^ (u - roundUnit m u)) (roundUnit m u) (roundSig m u (roundUnit m u)) where
  toRoundsTo := roundsTo_roundSig m u _
  unit_ge := le_max_right ..
  lt := by
    have hlt : (m : ℚ) < 2 ^ (bitLength m : ℤ) := by
      rw [zpow_natCast]
      exact_mod_cast (bitLength_le_iff hm _).mp le_rfl
    have hunit : u + bitLength m - 53 ≤ roundUnit m u := le_max_left ..
    calc (m : ℚ) * 2 ^ (u - roundUnit m u)
        < 2 ^ (bitLength m : ℤ) * 2 ^ (u - roundUnit m u) := mul_lt_mul_of_pos_right hlt (zpow_pos two_pos _)
      _ = 2 ^ (bitLength m + (u - roundUnit m u)) := (zpow_add₀ two_ne_zero ..).symm
      _ ≤ 2 ^ (53 : ℤ) := zpow_le_zpow_right₀ one_le_two (by omega)
  ge ht := by
    have hge : (2 : ℚ) ^ ((bitLength m : ℤ) - 1) ≤ m := by
      rw [bitLength, Nat.cast_succ, add_sub_cancel_right, zpow_natCast]
      exact_mod_cast Nat.log2_self_le hm
    have hunit : roundUnit m u = u + bitLength m - 53 := max_eq_left (by unfold roundUnit at ht; omega)
    calc (2 : ℚ) ^ 52 = 2 ^ ((bitLength m : ℤ) - 1 + (u - roundUnit m u)) := by
          rw [show (bitLength m : ℤ) - 1 + (u - roundUnit m u) = (52 : ℕ) by omega, zpow_natCast]
      _ = 2 ^ ((bitLength m : ℤ) - 1) * 2 ^ (u - roundUnit m u) := zpow_add₀ two_ne_zero ..
      _ ≤ m * 2 ^ (u - roundUnit m u) := mul_le_mul_of_nonneg_right hge (zpow_pos two_pos _).le

theorem posInf_le_fields_iff {m : ℕ} (hm : m ≠ 0) (u : ℤ) :
    posInf ≤ gridFields (roundUnit m u) (roundSig m u (roundUnit m u)) ↔ overflowBound ≤ m * (2 : ℚ) ^ u := by
  rw [(roundsOnGrid_roundSig hm u).overflow_iff, mul_assoc, ← zpow_add₀ two_ne_zero, sub_add_cancel]

theorem rne64_of_ne_zero {n : ℤ} (hn : n ≠ 0) (u : ℤ) : rne64 n u = signedPattern (decide (n < 0)) (roundMag n.natAbs u) := by
  rw [rne64, if_neg hn]
  by_cases hneg : n < 0 <;> simp [hneg, signedPattern]

theorem int_eq_sign_mul (n : ℤ) : (n : ℚ) = signFactor (decide (n < 0)) * n.natAbs := by
  by_cases hneg : n < 0
  · simp [signFactor, hneg, abs_of_neg]
  · simp [signFactor, hneg, abs_of_nonneg (not_lt.mp hneg)]

theorem real_zero : real 0 = 0 := by rw [real_eq_scaled, show scaled 0 = 0 by decide, Int.cast_zero, zero_mul]

theorem nearestEven_zero : nearestEven 0 0 := by
  have hexact : |real 0 - 0| = 0 := by rw [real_zero, sub_zero, abs_zero]
  exact ⟨by decide, fun y _ => ⟨hexact.trans_le (abs_nonneg _), fun _ _ => by decide⟩⟩

/-- R12: a value below the overflow bound in magnitude is rounded to the nearest, ties to even. -/
theorem nearestEven_rne64 {n u : ℤ} (hlt : |(n : ℚ) * 2 ^ u| < overflowBound) : nearestEven (n * 2 ^ u) (rne64 n u) := by
  rcases eq_or_ne n 0 with rfl | hn
  · simpa [rne64] using nearestEven_zero
  · have hm : n.natAbs ≠ 0 := Int.natAbs_ne_zero.mpr hn
    have hfin : gridFields (roundUnit n.natAbs u) (roundSig n.natAbs u (roundUnit n.natAbs u)) < posInf := by
      rw [← not_le, posInf_le_fields_iff hm, not_le]
      rwa [int_eq_sign_mul, mul_assoc, abs_mul, abs_signFactor, one_mul, abs_of_nonneg (by positivity)] at hlt
    have hround := (roundsOnGrid_roundSig hm u).nearestEven_pattern (decide (n < 0)) hfin
    rwa [mul_assoc (n.natAbs : ℚ), ← zpow_add₀ two_ne_zero, sub_add_cancel, ← mul_assoc, ← int_eq_sign_mul, ← min_eq_left hfin.le,
      ← roundMag_eq, ← rne64_of_ne_zero hn] at hround

theorem overflowBound_pos : 0 < overflowBound := by
  rw [overflowBound_eq]
  exact mul_pos (by norm_num) (zpow_pos two_pos _)

/-- R12: from the overflow bound on, the result is `+infinity`. -/
theorem rne64_overflow {n u : ℤ} (h : overflowBound ≤ (n : ℚ) * 2 ^ u) : rne64 n u = 0x7FF0000000000000 := by
  have hpos : 0 < n := by
    have hvalue := overflowBound_pos.trans_le h
    rw [mul_pos_iff_of_pos_right (zpow_pos two_pos u)] at hvalue
    exact_mod_cast hvalue
  have hmag : roundMag n.natAbs u = posInf := by
    rw [roundMag_eq, min_eq_right ((posInf_le_fields_iff (Int.natAbs_ne_zero.mpr hpos.ne') u).mpr ?_)]
    rwa [int_eq_sign_mul, decide_eq_false hpos.not_gt, signFactor, if_neg Bool.false_ne_true, one_mul] at h
  rw [rne64_of_ne_zero hpos.ne', hmag, decide_eq_false hpos.not_gt]
  rfl

/-! ### Reconstruction -/

/-- The sum of R156 over the finer of its two units. -/
theorem addScaled_eq_rne64 (base : Word) (k : ℕ) (e : ℤ) :
    ∃ n u : ℤ, addScaled base k e = rne64 n u ∧ (n : ℚ) * 2 ^ u = real base + k * (2 : ℚ) ^ e := by
  refine ⟨_, _, rfl, ?_⟩
  have hshift : ∀ a : ℤ, min e (-1074) ≤ a → (2 : ℚ) ^ (a - min e (-1074)).toNat * 2 ^ min e (-1074) = 2 ^ a := fun a ha => by
    rw [← zpow_natCast, Int.toNat_of_nonneg (sub_nonneg.mpr ha), ← zpow_add₀ two_ne_zero, sub_add_cancel]
  push_cast
  rw [add_mul, mul_assoc, mul_assoc, hshift _ (min_le_right ..), hshift _ (min_le_left ..), real_eq_scaled]

/-- The greatest finite magnitude is that of 53 one bits at the greatest spacing. -/
theorem exists_scaledMag_le {w : Word} (hfin : isFinite w = true) : ∃ n ≤ 2045, scaledMag w ≤ (2 ^ 53 - 1) * 2 ^ n := by
  have hexp : expField w < 2 ^ 11 := BitVec.isLt _
  have hfrac : fracField w < 2 ^ 52 := BitVec.isLt _
  have hne : expField w ≠ 2047 := of_decide_eq_true hfin
  unfold scaledMag
  split
  · exact ⟨0, by omega, by omega⟩
  · rw [Nat.shiftLeft_eq]
    exact ⟨expField w - 1, by omega, Nat.mul_le_mul_right _ (by omega)⟩

theorem abs_real_lt_overflowBound {w : Word} (hfin : isFinite w = true) : |real w| < overflowBound := by
  obtain ⟨n, hn, hmag⟩ := exists_scaledMag_le hfin
  have hmag' : (scaledMag w : ℚ) ≤ (2 ^ 53 - 1) * 2 ^ (n : ℤ) := by
    refine (Nat.cast_le.mpr hmag).trans_eq ?_
    norm_num
  rw [real_eq_sign_mul, abs_mul, abs_signFactor, one_mul, abs_of_nonneg (by positivity), overflowBound_eq]
  calc (scaledMag w : ℚ) * 2 ^ (-1074 : ℤ)
      ≤ (2 ^ 53 - 1) * 2 ^ (n : ℤ) * 2 ^ (-1074 : ℤ) := mul_le_mul_of_nonneg_right hmag' (zpow_pos two_pos _).le
    _ = (2 ^ 53 - 1) * 2 ^ ((n : ℤ) + -1074) := by rw [mul_assoc, ← zpow_add₀ two_ne_zero]
    _ ≤ (2 ^ 53 - 1) * 2 ^ (971 : ℤ) :=
        mul_le_mul_of_nonneg_left (zpow_le_zpow_right₀ one_le_two (by omega)) (by norm_num)
    _ < (2 ^ 53 - 1 / 2) * 2 ^ (971 : ℤ) := mul_lt_mul_of_pos_right (by norm_num) (zpow_pos two_pos _)

@[simp] theorem recon_zero (base : Word) (e : ℤ) : recon base 0 e = base := rfl

theorem recon_nonFinite {base : Word} (hbase : isFinite base = false) (k : ℕ) (e : ℤ) : recon base k e = base := by
  simp [recon, hbase]

theorem recon_eq_addScaled {base : Word} {k : ℕ} (hk : k ≠ 0) (hbase : isFinite base = true) (e : ℤ) :
    recon base k e = addScaled base k e := by
  rw [recon, if_neg hk, if_pos hbase]

/-- Settles O44: the sum is `n * 2^u`, which `rne64` rounds; a sum below the bound is above the bound's negative, since no finite base is
as small as that. -/
theorem reconstructionRoundsTheExactSumOnce : Obligations.ReconstructionRoundsTheExactSumOnce := by
  refine fun base k e => ⟨fun hk => hk ▸ recon_zero base e, fun hbase => recon_nonFinite hbase k e, fun hk hbase => ?_⟩
  obtain ⟨n, u, hrne, hsum⟩ := addScaled_eq_rne64 base k e
  rw [recon_eq_addScaled (by omega) hbase, hrne]
  refine ⟨fun hzero => ?_, fun hover => rne64_overflow (hsum ▸ hover), fun hlt => ?_⟩
  · rw [← hsum, mul_eq_zero_iff_right (zpow_pos two_pos u).ne', Int.cast_eq_zero] at hzero
    exact if_pos hzero
  · have hlow : -overflowBound < real base := (abs_lt.mp (abs_real_lt_overflowBound hbase)).1
    have hstep : 0 ≤ k * (2 : ℚ) ^ e := by positivity
    rw [← hsum]
    exact nearestEven_rne64 (hsum ▸ abs_lt.mpr ⟨by linarith, hlt⟩)

end Sys2Proof.Machine
end

section
/-! Proofs for 43_row_unpacker, R158 to R161: a record that decodes is run by the row sequencer and by UNPACK_ROW, the record of a row
that packs decodes to the row's cells, and each of them is within half a quantum and one rounding of its value. -/

namespace Sys2Proof.Machine

/-! ### A record that decodes -/

theorem bMax_le (c : Config) : c.bMax ≤ 63 := c.capPred.isLt

theorem decodeDescriptor_allMissing (bMax : ℕ) : decodeDescriptor bMax 0x0100000000000000 = some .allMissing := rfl

theorem decodeDescriptor_constant (bMax : ℕ) : decodeDescriptor bMax 0x0200000000000000 = some .constant := rfl

theorem decodeDescriptor_normal {bMax b : ℕ} (hb1 : 1 ≤ b) (hb2 : b ≤ bMax) (hcap : bMax ≤ 63) :
    decodeDescriptor bMax (descriptorWord 0x03 (BitVec.ofNat 8 b)) = some (.normal (BitVec.ofNat 8 b)) := by
  obtain ⟨hreserved, hwidth, htag⟩ := descriptorWord_fields 0x03 (BitVec.ofNat 8 b)
  have hb : (BitVec.ofNat 8 b).toNat = b := Nat.mod_eq_of_lt (by omega)
  simp only [decodeDescriptor, hreserved, hwidth, htag, hb]
  exact if_pos (And.intro hb1 hb2)

/-- R158: the row sequencer decodes a record to its cells and goes on behind it. -/
theorem nextRecord_of_recordDecodes {bMax : ℕ} {t : Transient} {cells : List Word} {kind len : ℕ} (hcap : bMax ≤ 63)
    (h : RecordDecodes bMax t.work t.lim t.cols t.mdi t.acc t.cur cells kind len) :
    nextRecord bMax t = .ok (t.emit cells kind len) := by
  rw [nextRecord_eq_ok]
  cases h with
  | allMissing hd hl => exact ⟨.allMissing, Transient.descriptor_ok hl hd (decodeDescriptor_allMissing bMax), rfl⟩
  | constant base hd hb hl =>
    exact ⟨.constant, Transient.descriptor_ok (by omega) hd (decodeDescriptor_constant bMax), constantRecord_ok hl hb⟩
  | normal b base codes pad hb1 hb2 hd hb hl hn hk hs =>
    refine ⟨.normal (BitVec.ofNat 8 b), Transient.descriptor_ok (by omega) hd (decodeDescriptor_normal hb1 hb2 hcap), ?_⟩
    rw [recordRule, show (BitVec.ofNat 8 b).toNat = b from Nat.mod_eq_of_lt (by omega)]
    exact normalRecordOn_ok hl hb hn hk hs

theorem RecordDecodes.length_eq {bMax lim cols cur : ℕ} {work cells : List Word} {mdi : Word} {e : ℤ} {kind len : ℕ}
    (h : RecordDecodes bMax work lim cols mdi e cur cells kind len) : cells.length = cols := by
  cases h with
  | allMissing | constant => exact List.length_replicate
  | normal b base codes pad hb1 hb2 hd hb hl hn => rw [List.length_map, hn]

/-! ### UNPACK_ROW of a record that decodes -/

/-- The completion of UNPACK_ROW (R160). -/
def State.rowUnpacking (s : State) (o : Word) (cells : List Word) (kind len : ℕ) : Completion :=
  ⟨s.mem.writeBytes o.toNat (natBytesOf s.cfg.hostOrder cells),
    ⟨some (unsigned64 (8 * cells.length)), some (unsigned64 kind), some (unsigned64 len), none⟩⟩

theorem exec_unpackRow_ok {s : State} {a n off cols mdi e o k : Word} {cells : List Word} {kind len : ℕ}
    (hops : s.operandsAre [a, n, off, cols, mdi, e, o, k]) (hn : n.toNat % 8 = 0) (hcols : inDim cols) (he : inAcc e)
    (hk : 8 * cols.toNat ≤ k.toNat) (ha : admitsRegion s.cfg a.toNat n.toNat = true)
    (ho : admitsRegion s.cfg o.toNat (8 * cols.toNat) = true)
    (h : RecordDecodes s.cfg.bMax (s.cellsAt a.toNat (n.toNat / 8)) (n.toNat / 8) cols.toNat mdi e.toInt off.toNat cells kind len) :
    exec .unpackRow s = .next (s.complete (s.rowUnpacking o cells kind len)) := by
  have hnext : nextRecord s.cfg.bMax (s.unpackRowStart a n off cols mdi e o) =
      .ok ((s.unpackRowStart a n off cols mdi e o).emit cells kind len) := nextRecord_of_recordDecodes (bMax_le s.cfg) h
  have hwrite := s.memWrite_of_admits o.toNat (natBytesOf s.cfg.hostOrder cells)
    (by rwa [natBytesOf_length, h.length_eq])
  have hfinish : finishWork s ((s.unpackRowStart a n off cols mdi e o).emit cells kind len) =
      .ok (s.rowUnpacking o cells kind len) := by
    simp [finishWork, Transient.filled, Transient.results, State.unpackRowStart, hwrite, State.rowUnpacking, h.length_eq, pure,
      Except.pure]
  show s.startRows (unpackRowSetup s) = _
  rw [unpackRowSetup_ok hops hn hcols he hk ha, State.startRows_ok]
  simp only [show (s.unpackRowStart a n off cols mdi e o).rows = 1 from rfl, nextRecords, hnext, hfinish, State.conclude_ok]

/-- The output region holds the cells. -/
theorem State.cellsAt_rowUnpacking (s : State) (o : Word) (cells : List Word) (kind len : ℕ) :
    (s.complete (s.rowUnpacking o cells kind len)).cellsAt o.toNat cells.length = cells := by
  have hread := s.mem.readBytes_writeBytes o.toNat (natBytesOf s.cfg.hostOrder cells)
  rw [natBytesOf_length] at hread
  exact (congrArg _ hread).trans (natWords_natBytesOf _ _)

/-! ### The record of a packed row decodes -/

section
variable {bMax r : ℕ} {cells : List Word} {mdi base : Word} {e : ℤ}

theorem decodedRow_of_rowBase (h : rowBase cells mdi = some base) :
    decodedRow cells mdi e = cells.map (decodedCell base mdi e) := by rw [decodedRow, h]

theorem decodedCell_present {c : Word} (h : feq c mdi = false) : decodedCell base mdi e c = recon base (cellCode base c e) e := by
  simp [decodedCell, h]

theorem rowCode_lt {c : Word} (hc : c ∈ cells) : rowCode base mdi e (rowWidth cells mdi base e) c < 2 ^ rowWidth cells mdi base e := by
  have hpos := Nat.two_pow_pos (rowWidth cells mdi base e)
  unfold rowCode
  split
  · omega
  · next hpresent =>
    have hle := cellCode_le_of_rowWidth (base := base) (e := e) hc (Bool.not_eq_true _ ▸ hpresent)
    omega

/-- R161 for one cell: the all-ones code stands in missing cells alone. -/
theorem normalCell_rowCode {c : Word} (hc : c ∈ cells) :
    normalCell base mdi e (rowWidth cells mdi base e) (rowCode base mdi e (rowWidth cells mdi base e) c) = decodedCell base mdi e c := by
  cases hmissing : feq c mdi with
  | true => simp [normalCell, rowCode, decodedCell, hmissing]
  | false =>
    have hle := cellCode_le_of_rowWidth (base := base) (e := e) hc hmissing
    have hone : 2 ≤ 2 ^ rowWidth cells mdi base e := Nat.le_self_pow (Nat.ne_of_gt (one_le_rowWidth ..)) 2
    have hordinary : cellCode base c e ≠ 2 ^ rowWidth cells mdi base e - 1 := by omega
    simp [normalCell, rowCode, decodedCell, hmissing, hordinary]

/-- A NORMAL record holds its codes, and its pad bits are zeros (30_encoding R74). -/
theorem normalRecord_decodes {b : ℕ} {codes : List ℕ} (hb1 : 1 ≤ b) (hb2 : b ≤ bMax) (hk : ∀ k ∈ codes, k < 2 ^ b) :
    RecordDecodes bMax (normalRecord base b codes).words (normalRecord base b codes).words.length codes.length mdi e 0
      (codes.map (normalCell base mdi e b)) 3 (normalRecord base b codes).words.length := by
  have hcount : (pack64 (codeBits b codes)).length = wordsFor (codes.length * b) := by simp
  have hlen : (normalRecord base b codes).words.length = 2 + wordsFor (codes.length * b) := by
    rw [normalRecord_words, List.length_cons, List.length_cons, hcount]
    omega
  have hbits := unpack64_pack64 (codeBits b codes)
  rw [← List.take_length (l := pack64 (codeBits b codes)), hcount] at hbits
  rw [hlen]
  exact .normal b base codes _ hb1 hb2 rfl rfl (by omega) rfl hk hbits

theorem normalRowRecord_decodes (hbase : rowBase cells mdi = some base) (hfits : rowWidth cells mdi base e ≤ bMax) :
    RecordDecodes bMax (normalRowRecord cells mdi base e).words (normalRowRecord cells mdi base e).words.length cells.length mdi e 0
      (decodedRow cells mdi e) 3 (normalRowRecord cells mdi base e).words.length := by
  have hdecodes := normalRecord_decodes (mdi := mdi) (base := base) (e := e) (one_le_rowWidth cells mdi base e) hfits
    (List.forall_mem_map.mpr fun c hc => rowCode_lt (base := base) (mdi := mdi) (e := e) hc)
  rw [List.length_map, List.map_map] at hdecodes
  rw [decodedRow_of_rowBase hbase, ← List.map_congr_left fun c hc => normalCell_rowCode hc]
  exact hdecodes

theorem packRow_recordDecodes {record : RowRecord} (h : packRow bMax cells mdi e r = .ok record) :
    RecordDecodes bMax record.words record.words.length cells.length mdi e 0 (decodedRow cells mdi e) record.kind
      record.words.length := by
  cases hbase : rowBase cells mdi with
  | none =>
    rw [packRow_allMissing hbase] at h
    obtain rfl := Except.ok.inj h
    rw [show decodedRow cells mdi e = List.replicate cells.length mdi by rw [decodedRow, hbase]; exact List.map_const' ..]
    exact .allMissing rfl Nat.one_pos
  | some base =>
    rcases packRow_ok_cases h hbase with ⟨hconst, rfl⟩ | ⟨-, hfits, rfl⟩
    · have hcells : decodedRow cells mdi e = List.replicate cells.length base := by
        rw [decodedRow_of_rowBase hbase, List.map_eq_replicate_iff]
        intro c hc
        obtain ⟨hpresent, hzero⟩ := not_needsCodes_iff.mp hconst c hc
        rw [decodedCell_present hpresent, hzero, recon_zero]
      rw [hcells]
      exact .constant base rfl rfl (Nat.lt_succ_self 1)
    · exact normalRowRecord_decodes hbase hfits

/-! ### The error of a decoded row -/

theorem isFinite_rowBase (hfin : presentFinite cells mdi) (hbase : rowBase cells mdi = some base) : isFinite base = true := by
  obtain ⟨before, after, rfl, hpresent, -⟩ := rowBase_splits hbase
  exact hfin base (by simp) hpresent

/-- The one rounding of R156 is zero where the exact sum is a binary64 value. -/
theorem real_recon_of_exact {x : Word} {k : ℕ} (hbase : isFinite base = true) (hx : isFinite x = true)
    (hsum : real x = real base + k * (2 : ℚ) ^ e) : real (recon base k e) = real x := by
  obtain ⟨-, -, hcode⟩ := reconstructionRoundsTheExactSumOnce base k e
  rcases Nat.eq_zero_or_pos k with rfl | hk
  · simp [hsum]
  · obtain ⟨-, -, hnearest⟩ := hcode hk hbase
    rw [← hsum] at hnearest
    obtain ⟨-, hleast⟩ := hnearest (abs_lt.mp (abs_real_lt_overflowBound hx)).2
    have hdist := (hleast x hx).1
    rw [sub_self, abs_zero] at hdist
    exact sub_eq_zero.mp (abs_nonpos_iff.mp hdist)

theorem packRow_withinHalfQuantum {record : RowRecord} (h : packRow bMax cells mdi e r = .ok record) :
    withinHalfQuantum cells mdi e := by
  intro base hbase c hc
  obtain ⟨hquantum, -⟩ := quantizationErrorBound bMax cells mdi e r record base h hbase c hc
  rw [decodedCell_present (mem_presentCells.mp hc).2]
  refine ⟨?_, fun x hx hsum => real_recon_of_exact (isFinite_rowBase (presentFinite_of_packRow_ok h) hbase) hx hsum⟩
  rw [abs_sub_comm] at hquantum
  have htriangle := abs_sub_le (real (recon base (cellCode base c e) e)) (real base + cellCode base c e * (2 : ℚ) ^ e) (real c)
  linarith

end

/-- Settles O49: the record decodes, so UNPACK_ROW gives its cells, its kind and its length. -/
theorem packThenUnpackRoundTrip : Obligations.PackThenUnpackRoundTrip := by
  intro s a n cols mdi e o k cells r record hops hcols he hlen hpack hn hwords hk ha ho
  have hcount : n.toNat / 8 = record.words.length := by omega
  have hdecodes := packRow_recordDecodes hpack
  have hexec := exec_unpackRow_ok hops (by omega) hcols he hk ha ho (by rwa [hcount, hwords, ← hlen])
  have hcells := s.cellsAt_rowUnpacking o (decodedRow cells mdi e.toInt) record.kind record.words.length
  rw [hdecodes.length_eq, hlen] at hcells
  refine ⟨_, hexec, rfl, ?_, hcells, packRow_withinHalfQuantum hpack⟩
  rw [State.complete_res, State.rowUnpacking, hdecodes.length_eq, hlen]
  rfl

end Sys2Proof.Machine
end

section
/-! Proofs for 43_row_unpacker, R162: a decoded row whose reconstructions are exact has the base, the missing cells and the codes of the
row it was packed from, so it packs to the same record. -/

namespace Sys2Proof.Machine

theorem feq_self {x : Word} (h : isNaN x = false) : feq x x = true := by simp [feq, h]

theorem decodedRow_of_rowBase_none {cells : List Word} {mdi : Word} (h : rowBase cells mdi = none) (e : ℤ) :
    decodedRow cells mdi e = cells.map fun _ => mdi := by rw [decodedRow, h]

theorem decodedRow_length (cells : List Word) (mdi : Word) (e : ℤ) : (decodedRow cells mdi e).length = cells.length := by
  unfold decodedRow
  split <;> exact List.length_map _

@[simp] theorem cellCode_self (base : Word) (e : ℤ) : cellCode base base e = 0 := by simp [cellCode, quantize]

/-- A value that is `k` quanta above the base has code `k`. -/
theorem cellCode_eq_of_real {base c : Word} {k : ℕ} {e : ℤ} (h : real c = real base + k * (2 : ℚ) ^ e) : cellCode base c e = k := by
  have hpos : (0 : ℚ) < 2 ^ e := zpow_pos two_pos e
  have hcode := cellCode_eq_round (base := base) (c := c) e (h ▸ le_add_of_nonneg_right (by positivity))
  rw [h, add_sub_cancel_left, mul_div_cancel_right₀ _ hpos.ne', round_natCast] at hcode
  exact_mod_cast hcode

theorem rowBase_mem {cells : List Word} {mdi base : Word} (h : rowBase cells mdi = some base) : base ∈ presentCells cells mdi := by
  rw [rowBase, leastCell_eq_argmin] at h
  exact List.argmin_mem h

section
variable {bMax r : ℕ} {cells : List Word} {mdi base : Word} {e : ℤ} (hexact : exactRow cells mdi e)
  (hbase : rowBase cells mdi = some base)
include hexact hbase

/-- Decoding keeps which cells are missing. -/
theorem feq_decodedCell {c : Word} (hc : c ∈ cells) : feq (decodedCell base mdi e c) mdi = feq c mdi := by
  obtain ⟨hnan, hcells⟩ := hexact
  cases hmissing : feq c mdi with
  | true => simp [decodedCell, hmissing, feq_self hnan]
  | false =>
    obtain ⟨-, -, hpresent⟩ := hcells base hbase c (mem_presentCells.mpr ⟨hc, hmissing⟩)
    rw [decodedCell_present hmissing, hpresent]

/-- Decoding keeps the codes of the present cells. -/
theorem cellCode_decodedCell {c : Word} (hc : c ∈ presentCells cells mdi) :
    cellCode base (decodedCell base mdi e c) e = cellCode base c e := by
  obtain ⟨-, hreal, -⟩ := hexact.2 base hbase c hc
  rw [decodedCell_present (mem_presentCells.mp hc).2, cellCode_eq_of_real hreal]

theorem rowCode_decodedCell {c : Word} (hc : c ∈ cells) (b : ℕ) :
    rowCode base mdi e b (decodedCell base mdi e c) = rowCode base mdi e b c := by
  rw [rowCode, rowCode, feq_decodedCell hexact hbase hc]
  split
  · rfl
  · next hpresent => exact cellCode_decodedCell hexact hbase (mem_presentCells.mpr ⟨hc, by simpa using hpresent⟩)

theorem presentCells_decodedRow :
    presentCells (decodedRow cells mdi e) mdi = (presentCells cells mdi).map (decodedCell base mdi e) := by
  rw [decodedRow_of_rowBase hbase, presentCells, List.filter_map, presentCells]
  exact congrArg _ (List.filter_congr fun c hc => congrArg not (feq_decodedCell hexact hbase hc))

/-- The base decodes to itself, and a decoded cell that is no greater has code 0, so it is the base too. -/
theorem rowBase_decodedRow : rowBase (decodedRow cells mdi e) mdi = some base := by
  have hmem := rowBase_mem hbase
  cases hleast : rowBase (decodedRow cells mdi e) mdi with
  | none =>
    rw [rowBase_eq_none_iff, presentCells_decodedRow hexact hbase, List.map_eq_nil_iff] at hleast
    simp [hleast] at hmem
  | some least =>
    have hdecoded := rowBase_mem hleast
    rw [presentCells_decodedRow hexact hbase] at hdecoded
    obtain ⟨c, hc, rfl⟩ := List.mem_map.mp hdecoded
    obtain ⟨-, hreal, -⟩ := hexact.2 base hbase c hc
    obtain ⟨hbaseMem, hbasePresent⟩ := mem_presentCells.mp hmem
    have hfixed : decodedCell base mdi e base = base := by rw [decodedCell_present hbasePresent, cellCode_self, recon_zero]
    have hle : real (decodedCell base mdi e c) ≤ real base := real_rowBase_le hleast base
      (by rw [decodedRow_of_rowBase hbase]; exact List.mem_map.mpr ⟨base, hbaseMem, hfixed⟩) hbasePresent
    rw [decodedCell_present (mem_presentCells.mp hc).2] at hle ⊢
    have hpos : (0 : ℚ) < 2 ^ e := zpow_pos two_pos e
    have hzero : cellCode base c e = 0 := by
      have hcode : (cellCode base c e : ℚ) ≤ 0 := nonpos_of_mul_nonpos_left (by linarith) hpos
      exact Nat.le_zero.mp (by exact_mod_cast hcode)
    rw [hzero, recon_zero]

theorem presentFinite_decodedRow : presentFinite (decodedRow cells mdi e) mdi := by
  intro x hx hpresent
  have hmem := mem_presentCells.mpr ⟨hx, hpresent⟩
  rw [presentCells_decodedRow hexact hbase] at hmem
  obtain ⟨c, hc, rfl⟩ := List.mem_map.mp hmem
  obtain ⟨hfinite, -⟩ := hexact.2 base hbase c hc
  rwa [decodedCell_present (mem_presentCells.mp hc).2]

theorem maxCode_decodedRow :
    maxCode base e (presentCells (decodedRow cells mdi e) mdi) = maxCode base e (presentCells cells mdi) := by
  refine eq_of_forall_ge_iff fun n => ?_
  rw [maxCode_le_iff, maxCode_le_iff, presentCells_decodedRow hexact hbase, List.forall_mem_map]
  exact forall₂_congr fun c hc => by rw [cellCode_decodedCell hexact hbase hc]

/-- The tests and the record of R136 to R139 are those of the row itself. -/
theorem packRow_decodedRow_of_rowBase (hfin : presentFinite cells mdi) :
    packRow bMax (decodedRow cells mdi e) mdi e r = packRow bMax cells mdi e r := by
  have hmax := maxCode_decodedRow hexact hbase
  have hwidth : rowWidth (decodedRow cells mdi e) mdi base e = rowWidth cells mdi base e := by rw [rowWidth, hmax, rowWidth]
  have hcount : (presentCells (decodedRow cells mdi e) mdi).length = (presentCells cells mdi).length := by
    rw [presentCells_decodedRow hexact hbase, List.length_map]
  have hrecord : normalRowRecord (decodedRow cells mdi e) mdi base e = normalRowRecord cells mdi base e := by
    rw [normalRowRecord, hwidth, decodedRow_of_rowBase hbase, List.map_map, normalRowRecord]
    exact congrArg _ (List.map_congr_left fun c hc => rowCode_decodedCell hexact hbase hc _)
  rw [packRow_of_rowBase hbase, packRow_of_rowBase (rowBase_decodedRow hexact hbase), hcount, hmax, hwidth, hrecord, decodedRow_length,
    not_anyNonFinite_iff.mpr hfin, not_anyNonFinite_iff.mpr (presentFinite_decodedRow hexact hbase)]

end

/-- R162 for one row. -/
theorem packRow_decodedRow {bMax r : ℕ} {cells : List Word} {mdi : Word} {e : ℤ} {record : RowRecord}
    (h : packRow bMax cells mdi e r = .ok record) (hexact : exactRow cells mdi e) :
    packRow bMax (decodedRow cells mdi e) mdi e r = .ok record := by
  cases hbase : rowBase cells mdi with
  | none =>
    have hmissing : ∀ c ∈ decodedRow cells mdi e, feq c mdi = true := by
      rw [decodedRow_of_rowBase_none hbase, List.forall_mem_map]
      exact fun _ _ => feq_self hexact.1
    rw [packRow_allMissing (rowBase_eq_none_of_allMissing hmissing), ← h, packRow_allMissing hbase]
  | some base => rw [packRow_decodedRow_of_rowBase hexact hbase (presentFinite_of_packRow_ok h), h]

end Sys2Proof.Machine
end

section
/-! Proofs for 44_field_codec: the rows of a field that packs (R171) decode in row order (R176), and re-encode to the same payload where
every row is exact (R182). -/

namespace Sys2Proof.Machine

/-! ### The rows of a field -/

theorem rowCells_zero (cols : ℕ) (cells : List Word) : rowCells cols 0 cells = cells.take cols := by simp [rowCells]

theorem rowCells_succ (cols r : ℕ) (cells : List Word) : rowCells cols (r + 1) cells = rowCells cols r (cells.drop cols) := by
  rw [rowCells, rowCells, List.drop_drop, Nat.succ_mul, Nat.add_comm]

/-- A statement about every row of a field is one about its first row and the rows of the rest. -/
theorem forall_rowCells_succ {cols n : ℕ} {cells : List Word} {P : List Word → Prop} :
    (∀ r < n + 1, P (rowCells cols r cells)) ↔ P (cells.take cols) ∧ ∀ r < n, P (rowCells cols r (cells.drop cols)) := by
  simp only [← Nat.succ_eq_add_one, Nat.forall_lt_succ_left, rowCells_zero, rowCells_succ]

theorem length_firstRow {cols n : ℕ} {cells : List Word} (h : cells.length = (n + 1) * cols) : (cells.take cols).length = cols := by
  rw [List.length_take, h, Nat.succ_mul]
  omega

theorem length_laterRows {cols n : ℕ} {cells : List Word} (h : cells.length = (n + 1) * cols) :
    (cells.drop cols).length = n * cols := by
  rw [List.length_drop, h, Nat.succ_mul]
  omega

section
variable {bMax cols : ℕ} {mdi : Word} {e : ℤ}

/-- R171: the first row's record and then the payload of the later rows. -/
theorem packRows_succ_eq_ok_iff {n r : ℕ} {cells payload : List Word} :
    packRows bMax cols mdi e (n + 1) r cells = .ok payload ↔ ∃ record rest, packRow bMax (cells.take cols) mdi e r = .ok record ∧
      packRows bMax cols mdi e n (r + 1) (cells.drop cols) = .ok rest ∧ record.words ++ rest = payload := by
  rw [packRows]
  cases packRow bMax (cells.take cols) mdi e r with
  | error => simp
  | ok record => cases packRows bMax cols mdi e n (r + 1) (cells.drop cols) <;> simp

theorem packRows_withinHalfQuantum {n r : ℕ} {cells payload : List Word} (h : packRows bMax cols mdi e n r cells = .ok payload) :
    ∀ i < n, withinHalfQuantum (rowCells cols i cells) mdi e := by
  induction n generalizing r cells payload with
  | zero => simp
  | succ n ih =>
    obtain ⟨record, rest, hrow, hrows, -⟩ := packRows_succ_eq_ok_iff.mp h
    exact forall_rowCells_succ (P := (withinHalfQuantum · mdi e)).mpr ⟨packRow_withinHalfQuantum hrow, ih hrows⟩

theorem decodedRows_length {n : ℕ} {cells : List Word} (h : cells.length = n * cols) :
    (decodedRows cols mdi e n cells).length = n * cols := by
  induction n generalizing cells with
  | zero => simp [decodedRows]
  | succ n ih =>
    rw [decodedRows, List.length_append, decodedRow_length, length_firstRow h, ih (length_laterRows h), Nat.succ_mul, Nat.add_comm]

/-- R182 for the payload: row by row, R162. -/
theorem packRows_decodedRows {n r : ℕ} {cells payload : List Word} (h : packRows bMax cols mdi e n r cells = .ok payload)
    (hcount : cells.length = n * cols) (hexact : ∀ i < n, exactRow (rowCells cols i cells) mdi e) :
    packRows bMax cols mdi e n r (decodedRows cols mdi e n cells) = .ok payload := by
  induction n generalizing r cells payload with
  | zero => exact h
  | succ n ih =>
    obtain ⟨record, rest, hrow, hrows, rfl⟩ := packRows_succ_eq_ok_iff.mp h
    obtain ⟨hfirst, hlater⟩ := forall_rowCells_succ (P := (exactRow · mdi e)).mp hexact
    have hlen : (decodedRow (cells.take cols) mdi e).length = cols := by rw [decodedRow_length, length_firstRow hcount]
    refine packRows_succ_eq_ok_iff.mpr ⟨record, rest, ?_, ?_, rfl⟩
    · rw [decodedRows, List.take_left' hlen]
      exact packRow_decodedRow hrow hfirst
    · rw [decodedRows, List.drop_left' hlen]
      exact ih hrows (length_laterRows hcount) hlater

/-! ### The records of a payload decode -/

/-- A record decodes alike wherever it stands, and only its own words are read. -/
theorem RecordDecodes.embed {cur kind len lim : ℕ} {words cells : List Word} (before after : List Word)
    (h : RecordDecodes bMax words words.length cols mdi e cur cells kind len) (hlim : before.length + words.length ≤ lim) :
    RecordDecodes bMax (before ++ (words ++ after)) lim cols mdi e (before.length + cur) cells kind len := by
  have hword : ∀ {k w}, words[k]? = some w → (before ++ (words ++ after))[before.length + k]? = some w := fun {k w} hw => by
    obtain ⟨hk, -⟩ := List.getElem?_eq_some_iff.mp hw
    rw [List.getElem?_append_right (Nat.le_add_right ..), Nat.add_sub_cancel_left, List.getElem?_append_left hk, hw]
  cases h with
  | allMissing hd hl => exact .allMissing (hword hd) (by omega)
  | constant base hd hb hl => exact .constant base (hword hd) (hword hb) (by omega)
  | normal b base codes pad hb1 hb2 hd hb hl hn hk hs =>
    refine .normal b base codes pad hb1 hb2 (hword hd) (hword hb) (by omega) hn hk ?_
    have hdrop : (before ++ (words ++ after)).drop (before.length + (cur + 2)) = words.drop (cur + 2) ++ after := by
      rw [← List.drop_drop, List.drop_left, List.drop_append_of_le_length (by omega)]
    rw [Nat.add_assoc, hdrop, List.take_append_of_le_length (by rw [List.length_drop]; omega), hs]

/-- R176: behind any words, the records of a payload decode in row order and end at its end. -/
theorem packRows_rowsDecode {n r : ℕ} {cells payload : List Word} (before : List Word)
    (h : packRows bMax cols mdi e n r cells = .ok payload) (hcount : cells.length = n * cols) :
    RowsDecode bMax (before ++ payload) (before.length + payload.length) cols mdi e n before.length (decodedRows cols mdi e n cells)
      (before.length + payload.length) := by
  induction n generalizing r cells payload before with
  | zero =>
    obtain rfl := Except.ok.inj h
    exact .nil _
  | succ n ih =>
    obtain ⟨record, rest, hrow, hrows, rfl⟩ := packRows_succ_eq_ok_iff.mp h
    have hrecord := (packRow_recordDecodes hrow).embed before rest (lim := before.length + (record.words ++ rest).length)
      (by rw [List.length_append]; omega)
    rw [length_firstRow hcount] at hrecord
    have hrest := ih (before ++ record.words) hrows (length_laterRows hcount)
    rw [List.append_assoc, List.length_append, Nat.add_assoc, ← List.length_append] at hrest
    exact .cons hrecord hrest

end

/-! ### Running the records -/

theorem RowsDecode.length_eq {bMax lim cols n cur stop : ℕ} {work cells : List Word} {mdi : Word} {e : ℤ}
    (h : RowsDecode bMax work lim cols mdi e n cur cells stop) : cells.length = n * cols := by
  induction h with
  | nil => simp
  | cons hrecord _ ih => rw [List.length_append, hrecord.length_eq, ih, Nat.succ_mul, Nat.add_comm]

/-- R176: the row sequencer stages the cells in row order and stops where the last record ends. -/
theorem nextRecords_of_rowsDecode {bMax n stop : ℕ} {t : Transient} {cells : List Word} (hcap : bMax ≤ 63)
    (h : RowsDecode bMax t.work t.lim t.cols t.mdi t.acc n t.cur cells stop) :
    ∃ u, nextRecords bMax n t = .ok u ∧ u.stage = t.stage ++ cells ∧ u.cur = stop := by
  induction n generalizing t cells with
  | zero =>
    cases h
    exact ⟨t, rfl, by simp, rfl⟩
  | succ n ih =>
    cases h with | cons hrecord hrest =>
    rw [nextRecords, nextRecord_of_recordDecodes hcap hrecord]
    obtain ⟨u, hrun, hstage, hcur⟩ := ih (t := t.emit _ _ _) hrest
    exact ⟨u, hrun, by simpa using hstage, hcur⟩

end Sys2Proof.Machine
end

section
/-! Proofs for 44_field_codec: what a successful ENCODE_FIELD is (R171, R172), DECODE_FIELD of a stream that ENCODE_FIELD wrote (R178),
the field round trip (R181) and the re-encode (R182). -/

namespace Sys2Proof.Machine

/-! ### Commands that end with OK -/

theorem State.conclude_ok_iff (s t : State) (r : Except Abort Completion) :
    (s.conclude r = .next t ∧ t.status = 0x00) ↔ ∃ c, r = .ok c ∧ t = s.complete c := by
  constructor
  · rintro ⟨hend, hok⟩
    rcases s.conclude_next t r hend with hc | ⟨x, -, rfl⟩
    · exact hc
    · exact absurd hok x.code_ne_ok
  · rintro ⟨c, rfl, rfl⟩
    exact ⟨rfl, rfl⟩

/-- A command that decodes rows ends with OK where its start, its rows and its end all succeed. -/
theorem State.startRows_ok_iff (s u : State) (r : Except Abort Transient) :
    (s.startRows r = .next u ∧ u.status = 0x00) ↔ ∃ t, r = .ok t ∧ ∃ v, nextRecords s.cfg.bMax t.rows t = .ok v ∧
      ∃ c, finishWork s v = .ok c ∧ u = s.complete c := by
  match r with
  | .error (.raise x) =>
    simp only [startRows_raise, reduceCtorEq, false_and, exists_false, iff_false, not_and]
    rintro ⟨⟩ hok
    exact x.code_ne_ok hok
  | .error (.stop f) => simp
  | .ok t =>
    rw [State.startRows_ok]
    cases hrun : nextRecords s.cfg.bMax t.rows t with
    | error x =>
      simp only [Except.ok.injEq, exists_eq_left', hrun, reduceCtorEq, false_and, exists_false, iff_false, not_and]
      rintro ⟨⟩ hok
      exact x.code_ne_ok hok
    | ok v => simpa [hrun] using s.conclude_ok_iff u (finishWork s v)

/-! ### The stream of a field -/

/-- The header of a field's stream (R170). -/
def fieldHeader (rows cols e : Word) (payload : List Word) : Header := ⟨e.toInt, cols.toInt, rows.toInt, payload.length⟩

/-- The words of a field's stream (R170). -/
def fieldWords (rows cols e : Word) (payload : List Word) : List Word := headerWords (fieldHeader rows cols e payload) ++ payload

theorem fieldWords_length (rows cols e : Word) (payload : List Word) :
    (fieldWords rows cols e payload).length = 2 + payload.length := by
  rw [fieldWords, List.length_append]
  rfl

/-- The cells of a field of this shape pack to this payload, and a header can be built for it (R171, R172). -/
structure FieldPacks (bMax : ℕ) (cells : List Word) (rows cols mdi e : Word) (payload : List Word) : Prop where
  rows_inDim : inDim rows
  cols_inDim : inDim cols
  count : cells.length = rows.toNat * cols.toNat
  acc_inAcc : inAcc e
  packs : packRows bMax cols.toNat mdi e.toInt rows.toNat 0 cells = .ok payload
  plen_le : payload.length ≤ payloadMax

section
variable {bMax : ℕ} {cells payload : List Word} {rows cols mdi e : Word} (h : FieldPacks bMax cells rows cols mdi e payload)
include h

theorem FieldPacks.header_inRange : (fieldHeader rows cols e payload).InRange :=
  ⟨h.acc_inAcc, h.cols_inDim, h.rows_inDim, h.plen_le⟩

theorem FieldPacks.rowsDecode :
    RowsDecode bMax (fieldWords rows cols e payload) (2 + payload.length) cols.toNat mdi e.toInt rows.toNat 2
      (decodedRows cols.toNat mdi e.toInt rows.toNat cells) (2 + payload.length) :=
  packRows_rowsDecode (headerWords (fieldHeader rows cols e payload)) h.packs h.count

/-- R182 for a field: its decoded cells pack to the same payload. -/
theorem FieldPacks.reEncode (hexact : ∀ r < rows.toNat, exactRow (rowCells cols.toNat r cells) mdi e.toInt) :
    FieldPacks bMax (decodedRows cols.toNat mdi e.toInt rows.toNat cells) rows cols mdi e payload :=
  ⟨h.rows_inDim, h.cols_inDim, decodedRows_length h.count, h.acc_inAcc, packRows_decodedRows h.packs h.count hexact, h.plen_le⟩

end

/-- The input region of `n` bytes at `a` exists and holds the stream of a field. -/
structure State.HoldsStream (s : State) (a n rows cols e : Word) (payload : List Word) : Prop where
  size : n.toNat = 8 * (2 + payload.length)
  admitted : admitsRegion s.cfg a.toNat n.toNat = true
  words : s.streamAt a.toNat (2 + payload.length) = fieldWords rows cols e payload

/-! ### ENCODE_FIELD -/

theorem toInt_eq_toNat_of_inDim {d : Word} (h : inDim d) : d.toInt = d.toNat := by
  have hpos := h.1
  rw [← toNat_toInt_of_inDim h, Int.toNat_of_nonneg (by omega)]

/-- The check of R171 on the cell count, which is an exact product. -/
theorem cellCount_toInt_iff {n : ℕ} {rows cols : Word} (hrows : inDim rows) (hcols : inDim cols) :
    (n : ℤ) = rows.toInt * cols.toInt ↔ n = rows.toNat * cols.toNat := by
  rw [toInt_eq_toNat_of_inDim hrows, toInt_eq_toNat_of_inDim hcols]
  norm_cast

/-- The completion of ENCODE_FIELD (R172, R174). -/
def State.fieldEncoding (s : State) (o rows cols e : Word) (payload : List Word) : Completion :=
  ⟨s.mem.writeBytes o.toNat (natBytesOf .big (fieldWords rows cols e payload)),
    ⟨some (unsigned64 (8 * (2 + payload.length))), some (unsigned64 payload.length), none, none⟩⟩

/-- The output region holds the bytes of the stream words, big-endian on every host. -/
theorem State.readBytes_fieldEncoding (s : State) (o rows cols e : Word) (payload : List Word) :
    (s.fieldEncoding o rows cols e payload).mem.readBytes o.toNat (8 * (2 + payload.length)) =
      natBytesOf .big (fieldWords rows cols e payload) := by
  rw [← fieldWords_length rows cols e payload, ← natBytesOf_length .big, State.fieldEncoding, Memory.readBytes_writeBytes]

/-- What ENCODE_FIELD needs to succeed with this payload (R171, R172): the field packs, its two regions exist and the output capacity
suffices. -/
structure State.FieldEncodes (s : State) (a n rows cols mdi e o k : Word) (payload : List Word) : Prop where
  packs : FieldPacks s.cfg.bMax (s.cellsAt a.toNat n.toNat) rows cols mdi e payload
  input : admitsRegion s.cfg a.toNat (8 * n.toNat) = true
  capacity : 8 * (2 + payload.length) ≤ k.toNat
  output : admitsRegion s.cfg o.toNat (8 * (2 + payload.length)) = true

section
variable {s : State} {a n rows cols mdi e o k : Word} (hops : s.operandsAre [a, n, rows, cols, mdi, e, o, k])
include hops

theorem encodeFieldWork_eq_ok_iff (c : Completion) :
    encodeFieldWork s = .ok c ↔
      ∃ payload, s.FieldEncodes a n rows cols mdi e o k payload ∧ c = s.fieldEncoding o rows cols e payload := by
  have hlen (payload : List Word) :
      (headerWords ⟨e.toInt, cols.toInt, rows.toInt, payload.length⟩ ++ payload).length = 2 + payload.length :=
    fieldWords_length rows cols e payload
  simp only [encodeFieldWork, s.argU_of_get 0 a (hops 0 a rfl), s.argU_of_get 1 n (hops 1 n rfl),
    s.argS_of_get 2 rows (hops 2 rows rfl), s.argS_of_get 3 cols (hops 3 cols rfl), s.argF_of_get 4 mdi (hops 4 mdi rfl),
    s.argS_of_get 5 e (hops 5 e rfl), s.argU_of_get 6 o (hops 6 o rfl), s.argU_of_get 7 k (hops 7 k rfl), Abort.bind_ok,
    Abort.bind_eq_ok, check_eq_ok, dimOk_iff_inDim, accOk_iff_inAcc, decide_eq_true_eq, exists_const, State.memRead_eq_ok,
    State.memWrite_eq_ok, liftError_eq_ok, normalizeBytes_natBytesOf, natBytesOf_length, hlen, pure, Except.pure, Except.ok.injEq]
  constructor
  · rintro ⟨hrows, hcols, hcount, he, _, ⟨ha, rfl⟩, payload, hpacks, hplen, hk, _, ⟨ho, rfl⟩, rfl⟩
    rw [toNat_toInt_of_inDim hrows, toNat_toInt_of_inDim hcols] at hpacks
    have hcells := (s.cellsAt_length a.toNat n.toNat).trans ((cellCount_toInt_iff hrows hcols).mp hcount)
    exact ⟨payload, ⟨⟨hrows, hcols, hcells, he, hpacks, hplen⟩, ha, hk, ho⟩, rfl⟩
  · rintro ⟨payload, ⟨⟨hrows, hcols, hcells, he, hpacks, hplen⟩, ha, hk, ho⟩, rfl⟩
    rw [State.cellsAt_length] at hcells
    rw [toNat_toInt_of_inDim hrows, toNat_toInt_of_inDim hcols]
    have hcount := (cellCount_toInt_iff hrows hcols).mpr hcells
    exact ⟨hrows, hcols, hcount, he, _, ⟨ha, rfl⟩, payload, hpacks, hplen, hk, _, ⟨ho, rfl⟩, rfl⟩

theorem exec_encodeField_ok_iff (t : State) :
    (exec .encodeField s = .next t ∧ t.status = 0x00) ↔ ∃ payload, s.FieldEncodes a n rows cols mdi e o k payload ∧
      t = s.complete (s.fieldEncoding o rows cols e payload) := by
  refine (s.conclude_ok_iff t (encodeFieldWork s)).trans ⟨?_, ?_⟩
  · rintro ⟨c, hwork, rfl⟩
    obtain ⟨payload, henc, rfl⟩ := (encodeFieldWork_eq_ok_iff hops c).mp hwork
    exact ⟨payload, henc, rfl⟩
  · rintro ⟨payload, henc, rfl⟩
    exact ⟨_, (encodeFieldWork_eq_ok_iff hops _).mpr ⟨payload, henc, rfl⟩, rfl⟩

/-- An ENCODE_FIELD that ended with OK left the stream of a field that packs, of the size it returned, where the next command finds it. -/
theorem encodeField_ok_inv {s' t : State} {len : Word} (hexec : exec .encodeField s = .next t) (hok : t.status = 0x00)
    (hlen : t.res.res0 = some len) (hcfg : s'.cfg = s.cfg) (hmem : s'.mem = t.mem) :
    ∃ payload, FieldPacks s.cfg.bMax (s.cellsAt a.toNat n.toNat) rows cols mdi e payload ∧
      s'.HoldsStream o len rows cols e payload ∧ t = s.complete (s.fieldEncoding o rows cols e payload) := by
  obtain ⟨payload, ⟨hpacks, -, hk, ho⟩, rfl⟩ := (exec_encodeField_ok_iff hops t).mp ⟨hexec, hok⟩
  obtain rfl := Option.some.inj hlen
  have hsize : (unsigned64 (8 * (2 + payload.length))).toNat = 8 * (2 + payload.length) :=
    Nat.mod_eq_of_lt (hk.trans_lt k.isLt)
  refine ⟨payload, hpacks, ⟨hsize, by rwa [hsize, hcfg], ?_⟩, rfl⟩
  rw [State.streamAt, hmem, State.complete_mem, s.readBytes_fieldEncoding, natWords_natBytesOf]

end

/-! ### DECODE_FIELD -/

/-- `DecodeHeader` of a stream reads its first two words alone. -/
theorem decodeHeader_of_stream {o : ByteOrder} {b : List Byte} {len : ℕ} {h : Header} {payload : List Word} (hr : h.InRange)
    (hlen : 16 ≤ len) (hwords : natWords o b = headerWords h ++ payload) : decodeHeader o b len = .ok h := by
  obtain ⟨w0, w1, heq, hfields⟩ := headerWords_fields hr
  rw [heq] at hwords
  rw [decodeHeader, if_neg hlen.not_gt, hwords]
  exact (congrArg checkHeader hfields).trans hr.checkHeader_ok

/-- The expected shape that DECODE_FIELD accepts (R177). -/
theorem shapeAgrees_fieldHeader_iff (er ec rows cols e : Word) (payload : List Word) :
    shapeAgrees er.toInt ec.toInt (fieldHeader rows cols e payload) = true ↔ (er = 0 ∧ ec = 0) ∨ (er = rows ∧ ec = cols) := by
  have hzero (x : Word) : x.toInt = 0 ↔ x = 0 := BitVec.toInt_inj (y := 0)
  simp [shapeAgrees, fieldHeader, hzero, BitVec.toInt_inj]

/-- The transient state DECODE_FIELD begins its rows with (R176), on the stream of a field. -/
def fieldDecodingStart (mdi o rows cols e : Word) (payload : List Word) : Transient where
  job := .decodeField
  work := fieldWords rows cols e payload
  lim := 2 + payload.length
  cur := 2
  row := 0
  rows := rows.toNat
  cols := cols.toNat
  mdi := mdi
  acc := e.toInt
  stage := []
  kind := 0
  consumed := 0
  out := o.toNat

/-- The completion of DECODE_FIELD (R178). -/
def State.fieldDecoding (s : State) (o rows cols e : Word) (cells : List Word) : Completion :=
  ⟨s.mem.writeBytes o.toNat (natBytesOf s.cfg.hostOrder cells),
    ⟨some (unsigned64 (8 * rows.toNat * cols.toNat)), some rows, some cols, some e⟩⟩

/-- The output region holds the cells. -/
theorem State.cellsAt_fieldDecoding (s : State) (o rows cols e : Word) {cells : List Word} {n : ℕ} (hn : cells.length = n) :
    (s.complete (s.fieldDecoding o rows cols e cells)).cellsAt o.toNat n = cells := by
  subst hn
  have hread := s.mem.readBytes_writeBytes o.toNat (natBytesOf s.cfg.hostOrder cells)
  rw [natBytesOf_length] at hread
  exact (congrArg _ hread).trans (natWords_natBytesOf _ _)

/-- The end of DECODE_FIELD whose records ended at the declared payload end (R178 step 7). -/
theorem finishWork_decodeField_eq_ok_iff {s : State} {v : Transient} (hjob : v.job = .decodeField) (hcur : v.cur = v.lim)
    (c : Completion) :
    finishWork s v = .ok c ↔ admitsRegion s.cfg v.out (8 * v.stage.length) = true ∧
      c = ⟨s.mem.writeBytes v.out (natBytesOf s.cfg.hostOrder v.stage),
        ⟨some (unsigned64 (8 * v.rows * v.cols)), some (unsigned64 v.rows), some (unsigned64 v.cols), some (enc64 v.acc)⟩⟩ := by
  simp only [finishWork, Transient.filled, Transient.results, hjob, hcur, decide_true, check_true, Abort.bind_ok, Abort.bind_eq_ok,
    State.memWrite_eq_ok, natBytesOf_length, pure, Except.pure, Except.ok.injEq, and_assoc, exists_and_left, exists_eq_left]
  exact and_congr_right fun _ => eq_comm

section
variable {s : State} {a n mdi er ec o k rows cols e : Word} {payload : List Word}
  (hops : s.operandsAre [a, n, mdi, er, ec, o, k]) (hstream : s.HoldsStream a n rows cols e payload)
  (hr : (fieldHeader rows cols e payload).InRange)
include hops hstream hr

/-- On the stream of a field, the checks of R178 that are left are those of the expected shape and of the capacity. -/
theorem decodeFieldSetup_eq_ok_iff (t : Transient) :
    decodeFieldSetup s = .ok t ↔ ((er = 0 ∧ ec = 0) ∨ (er = rows ∧ ec = cols)) ∧ 8 * rows.toNat * cols.toNat ≤ k.toNat ∧
      t = fieldDecodingStart mdi o rows cols e payload := by
  obtain ⟨hsize, ha, hwords⟩ := hstream
  have hwork : natWords s.cfg.hostOrder (normalizeBytes s.cfg.hostOrder (s.mem.readBytes a.toNat n.toNat)) =
      fieldWords rows cols e payload := by
    rw [natWords_normalizeBytes _ _ (by rw [Memory.readBytes_length]; omega), hsize]
    exact hwords
  have hrowsNat : (fieldHeader rows cols e payload).rows.toNat = rows.toNat := toNat_toInt_of_inDim hr.rows
  have hcolsNat : (fieldHeader rows cols e payload).cols.toNat = cols.toNat := toNat_toInt_of_inDim hr.cols
  have hheader := decodeHeader_of_stream hr (len := n.toNat) (by omega) hwork
  simp only [decodeFieldSetup, s.argU_of_get 0 a (hops 0 a rfl), s.argU_of_get 1 n (hops 1 n rfl),
    s.argF_of_get 2 mdi (hops 2 mdi rfl), s.argS_of_get 3 er (hops 3 er rfl), s.argS_of_get 4 ec (hops 4 ec rfl),
    s.argU_of_get 5 o (hops 5 o rfl), s.argU_of_get 6 k (hops 6 k rfl), s.memRead_of_admits _ _ ha, hheader, hwork, liftError_ok,
    Abort.bind_ok, Abort.bind_eq_ok, check_eq_ok, shapeAgrees_fieldHeader_iff, decide_eq_true_eq, exists_const,
    hrowsNat, hcolsNat, show n.toNat % 8 = 0 by omega, show n.toNat / 8 = 2 + payload.length by omega]
  refine ⟨fun ⟨_, _, hshape, hk, ht⟩ => ⟨hshape, hk, (Except.ok.inj ht).symm⟩, ?_⟩
  rintro ⟨hshape, hk, rfl⟩
  exact ⟨trivial, le_rfl, hshape, hk, rfl⟩

/-- DECODE_FIELD of the stream of a field whose records decode. -/
theorem exec_decodeField_ok_iff {cells : List Word} (hrows : RowsDecode s.cfg.bMax (fieldWords rows cols e payload) (2 + payload.length)
      cols.toNat mdi e.toInt rows.toNat 2 cells (2 + payload.length)) (u : State) :
    (exec .decodeField s = .next u ∧ u.status = 0x00) ↔ ((er = 0 ∧ ec = 0) ∨ (er = rows ∧ ec = cols)) ∧
      8 * rows.toNat * cols.toNat ≤ k.toNat ∧ admitsRegion s.cfg o.toNat (8 * (rows.toNat * cols.toNat)) = true ∧
      u = s.complete (s.fieldDecoding o rows cols e cells) := by
  obtain ⟨v, hrun, hstage, hcur⟩ :=
    nextRecords_of_rowsDecode (t := fieldDecodingStart mdi o rows cols e payload) (bMax_le s.cfg) hrows
  obtain ⟨hjob, -, hlim, hrows', hcols', -, hacc, hout, -⟩ := nextRecords_keeps _ _ _ _ hrun
  have hfinish (c : Completion) : finishWork s v = .ok c ↔ admitsRegion s.cfg o.toNat (8 * (rows.toNat * cols.toNat)) = true ∧
      c = s.fieldDecoding o rows cols e cells := by
    rw [finishWork_decodeField_eq_ok_iff hjob (hcur.trans hlim.symm), hstage, hrows', hcols', hacc, hout]
    simp [fieldDecodingStart, State.fieldDecoding, hrows.length_eq, unsigned64, enc64]
  refine (s.startRows_ok_iff u (decodeFieldSetup s)).trans ?_
  simp only [decodeFieldSetup_eq_ok_iff hops hstream hr]
  constructor
  · rintro ⟨t, ⟨hshape, hk, rfl⟩, v', hrun', c, hc, rfl⟩
    obtain rfl := Except.ok.inj (hrun.symm.trans hrun')
    obtain ⟨ho, rfl⟩ := (hfinish c).mp hc
    exact ⟨hshape, hk, ho, rfl⟩
  · rintro ⟨hshape, hk, ho, rfl⟩
    exact ⟨_, ⟨hshape, hk, rfl⟩, v, hrun, _, (hfinish _).mpr ⟨ho, rfl⟩, rfl⟩

end

/-! ### The two laws -/

/-- Settles O57: the encoded stream is one whose rows decode, and the operands meet the two checks left to DECODE_FIELD. -/
theorem fieldRoundTrip : Obligations.FieldRoundTrip := by
  intro s t s' a n rows cols mdi e o k len er ec o' k' hops hexec hok hlen hcfg hmem hops' hshape hk' ho'
  obtain ⟨payload, hpacks, hstream, -⟩ := encodeField_ok_inv hops hexec hok hlen hcfg hmem
  have hrows := hpacks.rowsDecode
  have hcount := hpacks.count
  rw [State.cellsAt_length] at hcount
  obtain ⟨hnext, hstatus⟩ := (exec_decodeField_ok_iff hops' hstream hpacks.header_inRange (hcfg ▸ hrows) _).mpr
    ⟨hshape, by rwa [Nat.mul_assoc, ← hcount], by rwa [← hcount, hcfg], rfl⟩
  have hcells := s'.cellsAt_fieldDecoding o' rows cols e (hrows.length_eq.trans hcount.symm)
  refine ⟨_, hnext, hstatus, ?_, hcells, packRows_withinHalfQuantum hpacks.packs⟩
  rw [State.complete_res, State.fieldDecoding, Nat.mul_assoc, ← hcount, unsigned64]

/-- Settles O58: the cells that DECODE_FIELD left are those the rows decode to, which pack to the payload of the first stream. -/
theorem fieldReEncode : Obligations.FieldReEncode := by
  intro s t s' u s'' a n rows cols mdi e o k len er ec o' k' o'' k'' hops hexec hok hlen hexact hcfg hmem hops' hexec' hok' hcfg''
    hmem'' hops'' hk'' ho''
  obtain ⟨payload, hpacks, hstream, rfl⟩ := encodeField_ok_inv hops hexec hok hlen hcfg hmem
  have hrows := hpacks.rowsDecode
  have hcount := hpacks.count
  rw [State.cellsAt_length] at hcount
  obtain ⟨-, -, ho', rfl⟩ := (exec_decodeField_ok_iff hops' hstream hpacks.header_inRange (hcfg ▸ hrows) u).mp ⟨hexec', hok'⟩
  have hcells : s''.cellsAt o'.toNat n.toNat = decodedRows cols.toNat mdi e.toInt rows.toNat (s.cellsAt a.toNat n.toNat) := by
    rw [State.cellsAt, hmem'', hcfg'', ← hcfg]
    exact s'.cellsAt_fieldDecoding o' rows cols e (hrows.length_eq.trans hcount.symm)
  have hpacks'' := hpacks.reEncode hexact
  rw [← hcells, ← hcfg''] at hpacks''
  rw [hstream.size] at hk'' ho'' ⊢
  obtain ⟨hnext, hstatus⟩ := (exec_encodeField_ok_iff hops'' _).mpr
    ⟨payload, ⟨hpacks'', by rwa [hcfg'', hcount, ← hcfg], hk'', by rwa [hcfg'']⟩, rfl⟩
  refine ⟨_, hnext, hstatus, rfl, ?_⟩
  rw [State.complete_mem, State.readBytes_fieldEncoding, State.complete_mem, State.readBytes_fieldEncoding]

end Sys2Proof.Machine
end

section
/-! Proofs for 30_encoding, sections 1 and 5: the encoder and the decoders of the two formats are inverse to each other (R60, R70 to R73,
R77). -/

namespace Sys2Proof.Machine

/-- Settles O9: the words of the opcode table, decoded one by one. -/
theorem tableWordsDecode : Obligations.TableWordsDecode := by
  unfold Obligations.TableWordsDecode
  decide

/-! ### Decoding an encoded instruction -/

theorem decodeCommand_encode {i : Instr} (hi : i.isCommand = true) : decodeCommand (encode i) = some i := by
  cases i with
  | normalize | decodeHeader | encodeHeader | packRow | unpackRow | encodeField | decodeField => rfl
  | allMissing | constant | normal => simp [Instr.isCommand] at hi

theorem wellFormed_normal_iff (bMax : ℕ) (b : BitVec 8) :
    (Instr.normal b).wellFormed bMax = true ↔ 1 ≤ b.toNat ∧ b.toNat ≤ bMax := by
  simp [Instr.wellFormed]

theorem decodeDescriptor_encode {bMax : ℕ} {d : RowDescriptor} (hd : d.toInstr.wellFormed bMax = true) :
    decodeDescriptor bMax (encode d.toInstr) = some d := by
  cases d with
  | allMissing => exact decodeDescriptor_allMissing bMax
  | constant => exact decodeDescriptor_constant bMax
  | normal b =>
    obtain ⟨hreserved, hwidth, htag⟩ := descriptorWord_fields 0x03#8 b
    simp only [RowDescriptor.toInstr, encode, decodeDescriptor, hreserved, hwidth, htag]
    exact if_pos ((wellFormed_normal_iff bMax b).mp hd)

/-- Settles O10: each command word is its own case of the decoder; a descriptor word has the fields it is made of. -/
theorem decodeOfEncode : Obligations.DecodeOfEncode :=
  ⟨fun _ hi => decodeCommand_encode hi, fun _ _ hd => decodeDescriptor_encode hd⟩

/-! ### Encoding a decoded word -/

theorem eq_ofNat_of_toNat {b : BitVec 8} {n : ℕ} (h : b.toNat = n) : b = BitVec.ofNat 8 n := by
  rw [← h, BitVec.ofNat_toNat, BitVec.setWidth_eq]

/-- A word whose reserved bits 55:0 are zero is the command word of its opcode (R60). -/
theorem eq_commandWord {w : Word} {n : ℕ} (hreserved : w.extractLsb' 0 56 = 0#56) (htag : (w.extractLsb' 56 8).toNat = n) :
    w = commandWord (BitVec.ofNat 8 n) := by
  rw [lowField_eq_zero_iff] at hreserved
  rw [← eq_ofNat_of_toNat htag, ← BitVec.toNat_inj, commandWord_toNat, topByte_toNat]
  omega

/-- A word whose reserved bits 47:0 are zero is the descriptor word of its tag and width (R70). -/
theorem eq_descriptorWord {w : Word} {n : ℕ} (hreserved : w.extractLsb' 0 48 = 0#48) (htag : (w.extractLsb' 56 8).toNat = n) :
    w = descriptorWord (BitVec.ofNat 8 n) (w.extractLsb' 48 8) := by
  rw [lowField_eq_zero_iff] at hreserved
  rw [← eq_ofNat_of_toNat htag, ← BitVec.toNat_inj, descriptorWord_toNat, topByte_toNat, field_toNat]
  omega

theorem encode_of_decodeCommand {w : Word} {i : Instr} (h : decodeCommand w = some i) : encode i = w := by
  unfold decodeCommand at h
  split at h
  · next hreserved =>
    split at h
    case h_8 => cases h
    all_goals
      next htag =>
      obtain rfl := Option.some.inj h
      exact (eq_commandWord hreserved htag).symm
  · cases h

theorem encode_of_decodeDescriptor {bMax : ℕ} {w : Word} {d : RowDescriptor} (h : decodeDescriptor bMax w = some d) :
    d.toInstr.wellFormed bMax = true ∧ encode d.toInstr = w := by
  simp only [decodeDescriptor] at h
  split at h
  case isFalse => cases h
  case isTrue hreserved =>
    split at h
    case h_4 => cases h
    case h_1 htag | h_2 htag =>
      obtain ⟨hwidth, rfl⟩ := Option.ite_none_right_eq_some.mp h |>.imp_right Option.some.inj
      refine ⟨rfl, ?_⟩
      rw [eq_descriptorWord hreserved htag, hwidth]
      rfl
    case h_3 htag =>
      obtain ⟨hwidth, rfl⟩ := Option.ite_none_right_eq_some.mp h |>.imp_right Option.some.inj
      exact ⟨(wellFormed_normal_iff ..).mpr hwidth, (eq_descriptorWord hreserved htag).symm⟩

/-- Settles O11: a word that decodes has zero reserved bits, so its fields make it up. -/
theorem encodeOfDecode : Obligations.EncodeOfDecode :=
  ⟨fun _ _ h => ⟨decodeCommand_isCommand h, encode_of_decodeCommand h⟩, fun _ _ _ h => encode_of_decodeDescriptor h⟩

end Sys2Proof.Machine
end

section
/-! Proofs for 10_state, 20_memory section 3 and 70_reset_and_hazards: what one access of the host does (R22 to R26, R221), the invariant
that every step keeps, and the rows of a command run one by one (log 11). -/

namespace Sys2Proof.Machine

/-! ### One access -/

/-- The step that what was fetched decides. -/
def Fetched.outcome : Fetched → Out
  | .run i s => exec i s
  | .ended o => o

theorem step_eq_outcome (s : State) : step s = s.fetch.outcome := rfl

/-- Between commands a step is the next access of the host, taken off the queue. -/
theorem step_access {s : State} {e : HostEvent} {rest : List HostEvent} (ht : s.transient = none) (hh : s.host = e :: rest) :
    step s = (State.access { s with host := rest } e).outcome := by
  rw [step_eq_outcome]
  simp only [State.fetch, ht, hh]

theorem step_ended {s : State} {e : HostEvent} {rest : List HostEvent} {o : Out} (ht : s.transient = none) (hh : s.host = e :: rest)
    (ha : State.access { s with host := rest } e = .ended o) : step s = o := by
  rw [step_access ht hh, ha, Fetched.outcome]

theorem step_idle {s : State} (ht : s.transient = none) (hh : s.host = []) : step s = .next s := by
  simp only [step, State.fetch, ht, hh]

theorem step_writeCmd {s : State} {v : Word} {rest : List HostEvent} {i : Instr} (ht : s.transient = none)
    (hh : s.host = .writeCmd v :: rest) (hv : decodeCommand v = some i) : step s = exec i { s with host := rest, cmd := v } := by
  rw [step_access ht hh]
  simp only [State.access, State.issue, hv, Fetched.outcome]

/-- Settles O7: between commands the access is the queue's first, and its word selects the command. -/
theorem stepRunsTheDecodedCommand : Obligations.StepRunsTheDecodedCommand := fun _ _ _ _ ht hh hv => step_writeCmd ht hh hv

/-- Settles O1: the access is `resetBlock`, which keeps the configuration, memory and the queue. -/
theorem resetEventLeavesTheResetState : Obligations.ResetEventLeavesTheResetState := by
  intro s rest ht hh
  refine ⟨_, step_ended ht hh rfl, rfl, fun i => ?_, fun i => ?_, rfl, rfl, rfl, rfl⟩
  · fin_cases i <;> rfl
  · fin_cases i <;> rfl

/-- Settles O14: a write of an ARG register is `ArgFile.set`; the other writes change nothing but the queue. -/
theorem hostWritesReachOperandsAlone : Obligations.HostWritesReachOperandsAlone := by
  refine fun s rest ht => ⟨fun i v hh => ?_, fun v hh => step_ended ht hh rfl, fun i v hh => step_ended ht hh rfl⟩
  exact ⟨_, step_ended ht hh rfl, ArgFile.get_set_self .., fun j hj => ArgFile.get_set_other _ _ _ _ hj.symm, rfl, rfl, rfl, rfl, rfl,
    ht, rfl⟩

theorem State.hostReadArg_of_get {s : State} {i : Fin 8} {v : Word} (h : s.args.get i = some v) :
    s.hostReadArg i = .next { s with hostData := v } := by rw [State.hostReadArg, h]

theorem State.hostReadRes_of_get {s : State} {i : Fin 4} {v : Word} (h : s.res.get i = some v) :
    s.hostReadRes i = .next { s with hostData := v } := by rw [State.hostReadRes, h]

theorem State.hostReadRes_of_none {s : State} {i : Fin 4} (h : s.res.get i = none) :
    s.hostReadRes i = .fault (.unwrittenResult i) := by rw [State.hostReadRes, h]

/-- Settles O15: each read is one access, decided by whether the register holds a value. -/
theorem hostReadsReturnTheRegisters : Obligations.HostReadsReturnTheRegisters :=
  fun s rest ht => ⟨fun hh => step_ended ht hh rfl,
    fun _ _ hh hv => step_ended ht hh (congrArg Fetched.ended (State.hostReadArg_of_get (s := { s with host := rest }) hv)),
    fun _ _ hh hv => step_ended ht hh (congrArg Fetched.ended (State.hostReadRes_of_get (s := { s with host := rest }) hv)),
    fun _ hh hv => step_ended ht hh (congrArg Fetched.ended (State.hostReadRes_of_none (s := { s with host := rest }) hv)),
    fun hh => ⟨_, _, step_ended ht hh rfl⟩⟩

theorem State.hostStore_of_admits {s : State} {a : Word} (v : Byte) (h : admits s.cfg a.toNat = true) :
    s.hostStore a v = .next { s with mem := s.mem.write a.toNat v } := if_pos h

theorem State.hostLoad_of_admits {s : State} {a : Word} (h : admits s.cfg a.toNat = true) :
    s.hostLoad a = .next { s with hostData := unsigned64 (s.mem.read a.toNat).toNat } := if_pos h

/-- Settles O16: an admitted store is `Memory.write`, an admitted load `Memory.read`. -/
theorem hostMemoryAccessesTakeEffect : Obligations.HostMemoryAccessesTakeEffect := by
  refine fun s a rest ht ha => ⟨fun v hh => ?_, fun hh => ?_⟩
  · exact ⟨_, step_ended ht hh (congrArg Fetched.ended (State.hostStore_of_admits (s := { s with host := rest }) v ha)),
      Memory.read_write_self .., fun x hx => Memory.read_write_other _ _ _ _ hx, rfl⟩
  · rw [step_ended ht hh (congrArg Fetched.ended (State.hostLoad_of_admits (s := { s with host := rest }) ha)), unsigned64,
      BitVec.ofNat_toNat]

/-- Settles O18: error entry writes four fields, and the codes and infos are those of the tables. -/
theorem errorEntryChangesOnlyStatusAndResults : Obligations.ErrorEntryChangesOnlyStatusAndResults := by
  refine ⟨fun s e => ⟨?_, ?_, rfl, rfl, rfl, rfl, rfl, rfl, rfl, rfl, rfl, rfl⟩, fun n => ?_, rfl, rfl⟩
  · cases e <;> exact Nat.le_of_ble_eq_true rfl
  · cases e <;> exact Nat.le_of_ble_eq_true rfl
  · exact ⟨⟨rfl, rfl⟩, ⟨rfl, rfl⟩, ⟨rfl, rfl⟩, ⟨rfl, rfl⟩, ⟨rfl, rfl⟩, ⟨rfl, rfl⟩, ⟨rfl, rfl⟩⟩

/-! ### What a step keeps -/

/-- Everything but `STATUS`, the RES registers and the transient state is as before, and memory is as before or holds one byte more of the
host's. -/
def AccessKeeps (s t : State) : Prop :=
  t.cfg = s.cfg ∧ t.status = s.status ∧ t.res = s.res ∧ t.transient = s.transient ∧
    (t.mem = s.mem ∨ ∃ (a : Word) (v : Byte), t.mem = s.mem.write a.toNat v)

/-- What an access that is no legal command word can do: an error entry for an illegal command word, a reset, or a change of an ARG
register, of the host's data or of a byte of memory. -/
theorem State.access_ended {s t : State} {e : HostEvent} (h : s.access e = .ended (.next t)) :
    (∃ v, t = State.raise { s with cmd := v } .illegalCommand) ∨ t = s.resetBlock ∨ AccessKeeps s t := by
  cases e with
  | writeCmd v =>
    simp only [State.access, State.issue] at h
    split at h
    · cases h
    · cases h; exact .inl ⟨v, rfl⟩
  | reset => cases h; exact .inr (.inl rfl)
  | writeArg | writeStatus | writeRes | readCmd | readStatus =>
    cases h; exact .inr (.inr ⟨rfl, rfl, rfl, rfl, .inl rfl⟩)
  | readArg i =>
    simp only [State.access, State.hostReadArg] at h
    split at h <;> cases h
    exact .inr (.inr ⟨rfl, rfl, rfl, rfl, .inl rfl⟩)
  | readRes i =>
    simp only [State.access, State.hostReadRes] at h
    split at h <;> cases h
    exact .inr (.inr ⟨rfl, rfl, rfl, rfl, .inl rfl⟩)
  | storeByte a v =>
    simp only [State.access, State.hostStore] at h
    split at h <;> cases h
    exact .inr (.inr ⟨rfl, rfl, rfl, rfl, .inr ⟨a, v, rfl⟩⟩)
  | loadByte a =>
    simp only [State.access, State.hostLoad] at h
    split at h <;> cases h
    exact .inr (.inr ⟨rfl, rfl, rfl, rfl, .inl rfl⟩)

/-- What a step can do, by its effect: a new transient state in the middle of a row decode, the end of a command, or an access of the host.
The last two start from the state with an access off the queue and, for a command, a word in `CMD`. -/
theorem step_effect {s t : State} (h : step s = .next t) :
    (s.transient ≠ none ∧ ∃ v, t = { s with transient := v }) ∨
      ∃ host cmd, CommandEnds { s with host := host, cmd := cmd } t ∨ t = State.resetBlock { s with host := host } ∨
        AccessKeeps { s with host := host } t := by
  rcases step_cases h with ⟨u, hu, ⟨d, hd⟩ | ⟨e, rfl⟩ | hfin⟩ | ⟨ht, ⟨-, rfl⟩ | ⟨e, rest, -, ⟨i, v, -, hv, hexec⟩ | ha⟩⟩
  · obtain ⟨_, -, ⟨e, -, rfl⟩ | ⟨v, -, rfl⟩⟩ := s.runRecord_next t _ hd
    · exact .inr ⟨s.host, s.cmd, .inl (.inl ⟨e, rfl⟩)⟩
    · exact .inl ⟨by simp [hu], some v, rfl⟩
  · exact .inr ⟨s.host, s.cmd, .inl (.inl ⟨e, rfl⟩)⟩
  · exact .inr ⟨s.host, s.cmd, .inl (s.finishRows_ends t hfin)⟩
  · exact .inr ⟨t.host, t.cmd, .inr (.inr ⟨rfl, rfl, rfl, rfl, .inl rfl⟩)⟩
  · exact .inr ⟨rest, v, .inl (exec_ends (decodeCommand_isCommand hv) hexec)⟩
  · rcases State.access_ended ha with ⟨v, rfl⟩ | hreset | hkeeps
    · exact .inr ⟨rest, v, .inl (.inl ⟨_, rfl⟩)⟩
    · exact .inr ⟨rest, s.cmd, .inr (.inl hreset)⟩
    · exact .inr ⟨rest, s.cmd, .inr (.inr hkeeps)⟩

theorem CommandEnds.cfg_eq {s t : State} (h : CommandEnds s t) : t.cfg = s.cfg := by
  rcases h with ⟨e, rfl⟩ | ⟨c, rfl, -⟩ <;> rfl

theorem CommandEnds.transient_eq {s t : State} (h : CommandEnds s t) : t.transient = none := by
  rcases h with ⟨e, rfl⟩ | ⟨c, rfl, -⟩ <;> rfl

/-- Settles O4: no effect of a step touches the configuration. -/
theorem stepKeepsTheConfiguration : Obligations.StepKeepsTheConfiguration := by
  intro s t h
  rcases step_effect h with ⟨-, v, rfl⟩ | ⟨host, cmd, hends | rfl | ⟨hcfg, -⟩⟩
  · rfl
  · exact hends.cfg_eq
  · rfl
  · exact hcfg

/-- Settles O5: between commands a step is a whole command or an access, and neither leaves a transient state. -/
theorem stepEndsBetweenCommands : Obligations.StepEndsBetweenCommands := by
  intro s t ht h
  rcases step_effect h with ⟨hmid, -⟩ | ⟨host, cmd, hends | rfl | ⟨-, -, -, htransient, -⟩⟩
  · exact absurd ht hmid
  · exact hends.transient_eq
  · rfl
  · exact htransient.trans ht

/-! ### The invariant -/

/-- Settles O2: no byte of memory, `STATUS` is NONE and no RES register is written. -/
theorem resetMeetsTheInvariant : Obligations.ResetMeetsTheInvariant := ⟨State.reset_mem_wf, rfl, rfl⟩

theorem CodecError.status_inv (e : CodecError) :
    statusLegal e.code = true ∧ resultsMatch e.code ⟨some (unsigned64 e.info), none, none, none⟩ = true := by
  cases e <;> exact ⟨rfl, rfl⟩

theorem resultsMatch_ok {r : ResFile} (h : r.res0.isSome = true) : resultsMatch statusOK r = true := by
  simp [resultsMatch, h, statusOK, statusNone]

theorem CommandEnds.inv {s t : State} (h : CommandEnds s t) (hmem : s.mem.wf = true) : t.Inv := by
  rcases h with ⟨e, rfl⟩ | ⟨c, rfl, hres, hwrite⟩
  · exact ⟨hmem, e.status_inv⟩
  · refine ⟨?_, rfl, resultsMatch_ok hres⟩
    rcases hwrite with hsame | ⟨a, v, ha, hv⟩
    · rwa [State.complete_mem, hsame]
    · rw [State.complete_mem, hv]
      exact Memory.wf_writeBytes _ _ _ hmem ((admitsRegion_iff ..).mp ha).1

theorem AccessKeeps.inv {s t : State} (h : AccessKeeps s t) (hs : s.Inv) : t.Inv := by
  obtain ⟨hmem, hstatus⟩ := hs
  obtain ⟨-, hst, hres, -, hwrite⟩ := h
  refine ⟨?_, by rwa [hst, hres]⟩
  rcases hwrite with hsame | ⟨a, v, hv⟩
  · rwa [hsame]
  · rw [hv]
    exact Memory.wf_write _ _ _ hmem a.isLt

/-- Settles O3: each effect of a step meets the invariant; the only writes of memory are a command's, within the address space, and the
host's. -/
theorem stepKeepsTheInvariant : Obligations.StepKeepsTheInvariant := by
  intro s t hs h
  rcases step_effect h with ⟨-, v, rfl⟩ | ⟨host, cmd, hends | rfl | hkeeps⟩
  · exact hs
  · exact hends.inv hs.1
  · exact ⟨hs.1, rfl, rfl⟩
  · exact hkeeps.inv hs

/-! ### Register traffic -/

/-- Between commands, with accesses of registers alone to come. -/
def State.TrafficOnly (s : State) : Prop := s.transient = none ∧ ∀ e ∈ s.host, registerOnly e = true

/-- An access of registers alone goes on, keeps the queue and leaves no transient state. -/
theorem State.access_registerOnly {s : State} {e : HostEvent} (he : registerOnly e = true) (ht : s.transient = none) :
    ∃ t, s.access e = .ended (.next t) ∧ t.transient = none ∧ t.host = s.host := by
  cases e with
  | writeCmd v =>
    have hv : decodeCommand v = none := Option.isNone_iff_eq_none.mp he
    exact ⟨State.raise { s with cmd := v } .illegalCommand, by simp only [State.access, State.issue, hv], rfl, rfl⟩
  | reset => exact ⟨_, rfl, rfl, rfl⟩
  | writeArg | writeStatus | writeRes | readCmd | readStatus => exact ⟨_, rfl, ht, rfl⟩
  | readArg | readRes | storeByte | loadByte => cases he

theorem State.TrafficOnly.step_next {s : State} (h : s.TrafficOnly) : ∃ t, step s = .next t ∧ t.TrafficOnly := by
  obtain ⟨ht, hhost⟩ := h
  cases hh : s.host with
  | nil => exact ⟨s, step_idle ht hh, ht, hhost⟩
  | cons e rest =>
    rw [hh, List.forall_mem_cons] at hhost
    obtain ⟨t, hacc, htransient, hq⟩ := State.access_registerOnly (s := { s with host := rest }) hhost.1 ht
    exact ⟨t, step_ended ht hh hacc, htransient, by rw [hq]; exact hhost.2⟩

theorem Reaches.trafficOnly {s t : State} (h : Reaches s t) (hs : s.TrafficOnly) : t.TrafficOnly := by
  induction h with
  | refl => exact hs
  | step _ hstep ih =>
    obtain ⟨u, hnext, hu⟩ := ih.step_next
    obtain rfl := Host.Outcome.next.inj (hstep.symm.trans hnext)
    exact hu

/-- Settles O17: such a state goes on to another such state. -/
theorem registerTrafficIsSafe : Obligations.RegisterTrafficIsSafe := by
  intro s ht hhost t hreach
  obtain ⟨u, hnext, -⟩ := (hreach.trafficOnly ⟨ht, hhost⟩).step_next
  exact ⟨u, hnext⟩

/-! ### The rows of a command, step by step -/

theorem exec_toInstr (d : RowDescriptor) (s : State) : exec d.toInstr s = runDescriptor d s := by cases d <;> rfl

/-- Settles O8: with rows left, the descriptor at the cursor is what comes next. -/
theorem stepRunsTheDecodedDescriptor : Obligations.StepRunsTheDecodedDescriptor := by
  intro s t w d ht hrow hl hw hd
  simp only [step, State.fetch, ht, State.fetchRow, hrow, if_true, Transient.descriptor_ok hl hw hd]

/-- With rows left a step is one row of the sequencer. -/
theorem step_row {s : State} {t : Transient} (ht : s.transient = some t) (hrow : t.row < t.rows) : step s = s.decodeRecord := by
  simp only [step, State.fetch, ht, State.fetchRow, hrow, if_true, State.decodeRecord]
  cases t.descriptor s.cfg.bMax with
  | ok d => exact exec_toInstr d s
  | error e => rfl

theorem step_rowsDone {s : State} {t : Transient} (ht : s.transient = some t) (hrow : ¬ t.row < t.rows) : step s = s.finishRows := by
  simp only [step, State.fetch, ht, State.fetchRow, hrow, if_false]

/-- A run whose first step is a refusal. -/
theorem core_run_refused (k : ℕ) (s : State) (r : Refusal) (h : step s = .refused r) :
    Sys2Proof.core.run (k + 1) s = .refused r := by
  have hcore : Sys2Proof.core.step s = .refused r := h
  simp [Host.Core.run, hcore]

theorem core_run_one (s : State) : Sys2Proof.core.run 1 s = step s := by
  cases h : step s with
  | next t => exact core_run_next 0 s t h
  | fault f => exact core_run_fault 0 s f h
  | refused r => exact core_run_refused 0 s r h

/-- An idle block holds its registers (70 R221). -/
theorem core_run_idle {s : State} (ht : s.transient = none) (hh : s.host = []) (k : ℕ) : Sys2Proof.core.run k s = .next s := by
  induction k with
  | zero => rfl
  | succ k ih => rw [core_run_next k s s (step_idle ht hh), ih]

/-- One row decoded: an error entry, or the transient state one row on. -/
theorem State.decodeRecord_cases {s : State} {t : Transient} (ht : s.transient = some t) :
    (∃ e, s.decodeRecord = .next (s.raise e)) ∨
      ∃ u, s.decodeRecord = .next { s with transient := some u } ∧ u.row = t.row + 1 ∧ u.rows = t.rows := by
  rw [State.decodeRecord_eq]
  cases hr : nextRecord s.cfg.bMax t with
  | error e => exact .inl ⟨e, State.runRecord_error ht hr⟩
  | ok u =>
    obtain ⟨d, -, hd⟩ := (nextRecord_eq_ok ..).mp hr
    obtain ⟨-, -, -, hrows, -, -, -, -, hrow, -⟩ := recordRule_keeps d t u hd
    exact .inr ⟨u, State.runRecord_ok ht hr, hrow, hrows⟩

theorem core_run_rows (n : ℕ) {s : State} {t : Transient} (hh : s.host = []) (ht : s.transient = some t) (hn : t.rows = t.row + n) :
    Sys2Proof.core.run (n + 1) s = State.runRows n s := by
  induction n generalizing s t with
  | zero => rw [core_run_one, step_rowsDone ht (by omega), State.runRows]
  | succ n ih =>
    have hstep := step_row ht (by omega)
    rw [State.runRows]
    rcases State.decodeRecord_cases ht with ⟨e, he⟩ | ⟨u, hu, hrow, hrows⟩
    · rw [he]
      exact (core_run_next _ _ _ (hstep.trans he)).trans (core_run_idle (s.raise_transient e) hh _)
    · rw [hu]
      exact (core_run_next _ _ _ (hstep.trans hu)).trans (ih hh rfl (by omega))

/-- Settles O6: by induction on the rows left; after an error the block is idle. -/
theorem rowStepsGiveTheCommand : Obligations.RowStepsGiveTheCommand := fun _ _ hh ht hrows => core_run_rows _ hh ht (by omega)

/-! ### A command with its operands -/

/-- The ARG registers after the writes of `argWrites`. -/
def ArgFile.setFrom (f : ArgFile) : ℕ → List Word → ArgFile
  | _, [] => f
  | k, v :: vs => if h : k < 8 then (f.set ⟨k, h⟩ v).setFrom (k + 1) vs else f

theorem ArgFile.get_setFrom_before (f : ArgFile) {j : Fin 8} {k : ℕ} (hj : j.val < k) (vs : List Word) :
    (f.setFrom k vs).get j = f.get j := by
  induction vs generalizing f k with
  | nil => rfl
  | cons v vs ih =>
    rw [ArgFile.setFrom]
    split
    · next hk => rw [ih _ (by omega), ArgFile.get_set_other _ _ _ _ (by intro h; subst h; simp at hj)]
    · rfl

/-- Register `k + i` holds value `i`. -/
theorem ArgFile.get_setFrom (f : ArgFile) {j : Fin 8} {k : ℕ} {v : Word} (hj : k ≤ j.val) (vs : List Word)
    (hv : vs[j.val - k]? = some v) : (f.setFrom k vs).get j = some v := by
  induction vs generalizing f k with
  | nil => simp at hv
  | cons w ws ih =>
    rw [ArgFile.setFrom, dif_pos (by omega : k < 8)]
    rcases Nat.eq_or_lt_of_le hj with rfl | hlt
    · rw [ArgFile.get_setFrom_before _ (Nat.lt_succ_self _), ArgFile.get_set_self]
      simpa using hv
    · refine ih _ hlt ?_
      rwa [show j.val - k = (j.val - (k + 1)) + 1 by omega, List.getElem?_cons_succ] at hv

/-- The queued writes of ARG registers, one step each. -/
theorem core_run_argWrites {s : State} {more : List HostEvent} (m : ℕ) {k : ℕ} {vs : List Word} (ht : s.transient = none)
    (hk : k + vs.length ≤ 8) (hh : s.host = argWrites k vs ++ more) :
    Sys2Proof.core.run (vs.length + m) s = Sys2Proof.core.run m { s with args := s.args.setFrom k vs, host := more } := by
  induction vs generalizing s k with
  | nil =>
    have hs : { s with args := s.args.setFrom k [], host := more } = s := by rw [← show s.host = more from hh]; rfl
    rw [hs, List.length_nil, Nat.zero_add]
  | cons v vs ih =>
    rw [List.length_cons] at hk ⊢
    have hk8 : k < 8 := by omega
    rw [argWrites, dif_pos hk8, List.cons_append] at hh
    rw [Nat.add_right_comm, core_run_next _ _ _ (step_ended ht hh rfl), ArgFile.setFrom, dif_pos hk8]
    exact ih (s := { s with host := argWrites (k + 1) vs ++ more, args := s.args.set ⟨k, hk8⟩ v }) ht (by omega) rfl

theorem AsmCommand.instr_isCommand (c : AsmCommand) : c.instr.isCommand = true := by cases c <;> rfl

theorem AsmCommand.operands_length_le (c : AsmCommand) : c.operands.length ≤ 8 := by
  cases c <;> exact Nat.le_of_ble_eq_true rfl

/-- Settles O60: the ARG writes put the operand values in their registers, and the last write's word decodes to the command. -/
theorem commandSyntaxRunsTheCommand : Obligations.CommandSyntaxRunsTheCommand := by
  intro c s rest ht hh
  have hlen : (c.operands.map fun p => p.2.word).length = c.operands.length := List.length_map _
  rw [AsmCommand.hostWrites, List.append_assoc] at hh
  have hwrites := core_run_argWrites 1 ht (by rw [Nat.zero_add, hlen]; exact c.operands_length_le) hh
  rw [hlen] at hwrites
  refine ⟨{ s with args := s.args.setFrom 0 (c.operands.map fun p => p.2.word), host := rest, cmd := encode c.instr },
    fun k v hv => ArgFile.get_setFrom _ (Nat.zero_le _) _ hv, rfl, rfl, rfl, ?_⟩
  rw [hwrites, core_run_one]
  exact step_writeCmd ht rfl (decodeCommand_encode c.instr_isCommand)

end Sys2Proof.Machine
end

section
/-! Proofs for 10_state R21, R23, 20_memory R43, R51 and 60_exceptions R203, R205: every command is one piece of work on its operands, the
configuration and memory, which `State.conclude` ends. The work of each command is taken apart here once for each of the questions which
operands it reads, how it can stop, and what it depends on. -/

namespace Sys2Proof.Machine

/-! ### The work of a command -/

/-- The work of a command that decodes rows, from the work before its rows (R160, R178). -/
def rowsWork (s : State) (setup : Except Abort Transient) : Except Abort Completion := do
  let t ← setup
  let u ← liftError (nextRecords s.cfg.bMax t.rows t)
  finishWork s u

/-- The work of a command; a row descriptor is none. -/
def commandWork (s : State) : Instr → Except Abort Completion
  | .normalize => normalizeWork s
  | .decodeHeader => decodeHeaderWork s
  | .encodeHeader => encodeHeaderWork s
  | .packRow => packRowWork s
  | .unpackRow => rowsWork s (unpackRowSetup s)
  | .encodeField => encodeFieldWork s
  | .decodeField => rowsWork s (decodeFieldSetup s)
  | .allMissing | .constant | .normal _ => .error (.stop .noRowRecord)

theorem State.startRows_eq_conclude (s : State) (setup : Except Abort Transient) :
    s.startRows setup = s.conclude (rowsWork s setup) := by
  match setup with
  | .error (.raise e) => rfl
  | .error (.stop f) => rfl
  | .ok t =>
    rw [State.startRows_ok, rowsWork, Abort.bind_ok]
    cases nextRecords s.cfg.bMax t.rows t <;> rfl

theorem exec_eq_conclude {i : Instr} (hi : i.isCommand = true) (s : State) : exec i s = s.conclude (commandWork s i) := by
  cases i with
  | normalize | decodeHeader | encodeHeader | packRow | encodeField => rfl
  | unpackRow | decodeField => exact s.startRows_eq_conclude _
  | allMissing | constant | normal => cases hi

section
variable {i : Instr} {s : State} (hi : i.isCommand = true)
include hi

theorem exec_raise {e : CodecError} (h : commandWork s i = .error (.raise e)) : exec i s = .next (s.raise e) := by
  rw [exec_eq_conclude hi, h, State.conclude_raise]

theorem exec_stop {f : Fault} (h : commandWork s i = .error (.stop f)) : exec i s = .fault f := by
  rw [exec_eq_conclude hi, h, State.conclude_stop]

theorem exec_complete {c : Completion} (h : commandWork s i = .ok c) : exec i s = .next (s.complete c) := by
  rw [exec_eq_conclude hi, h, State.conclude_ok]

end

/-- Settles O19: the two ends of a command, error entry and completion, keep these fields, and both write `RES0`. -/
theorem commandsEndWithOkOrAnErrorEntry : Obligations.CommandsEndWithOkOrAnErrorEntry := by
  intro i s t hi h
  rcases exec_ends hi h with ⟨e, rfl⟩ | ⟨c, rfl, hres, -⟩
  · exact ⟨.inr ⟨e, rfl⟩, rfl, rfl, rfl, rfl, rfl, rfl, rfl, rfl⟩
  · exact ⟨.inl rfl, rfl, rfl, rfl, rfl, rfl, rfl, rfl, hres⟩

/-! ### The operands are read first -/

/-- Read these ARG registers in order. -/
def State.readArgs (s : State) : List (Fin 8) → Except Abort Unit
  | [] => .ok ()
  | k :: ks => do
    let _ ← s.arg k
    s.readArgs ks

section
variable {α : Type} (s : State) (k : Fin 8) (ks : List (Fin 8))

theorem State.readArgs_nil_bind (w : Except Abort α) : (s.readArgs [] >>= fun _ => w) = w := rfl

/-- Work that begins with the read of a register reads it after an extra read of the same register. -/
theorem State.readArgs_argF (f : Word → Except Abort α) :
    (s.readArgs (k :: ks) >>= fun _ => s.argF k >>= f) = s.argF k >>= fun a => s.readArgs ks >>= fun _ => f a := by
  simp only [State.readArgs, State.argF]
  cases s.arg k <;> rfl

theorem State.readArgs_argU (f : ℕ → Except Abort α) :
    (s.readArgs (k :: ks) >>= fun _ => s.argU k >>= f) = s.argU k >>= fun a => s.readArgs ks >>= fun _ => f a := by
  simp only [State.readArgs, State.argU]
  cases s.arg k <;> rfl

theorem State.readArgs_argS (f : ℤ → Except Abort α) :
    (s.readArgs (k :: ks) >>= fun _ => s.argS k >>= f) = s.argS k >>= fun a => s.readArgs ks >>= fun _ => f a := by
  simp only [State.readArgs, State.argS]
  cases s.arg k <;> rfl

end

/-- The operand registers of an instruction, ARG0 first. -/
def operandRegs (i : Instr) : List (Fin 8) := (List.finRange 8).take (operandCount i)

theorem finRange_take_two : (List.finRange 8).take 2 = [0, 1] := rfl
theorem finRange_take_six : (List.finRange 8).take 6 = [0, 1, 2, 3, 4, 5] := rfl
theorem finRange_take_seven : (List.finRange 8).take 7 = [0, 1, 2, 3, 4, 5, 6] := rfl
theorem finRange_take_eight : (List.finRange 8).take 8 = [0, 1, 2, 3, 4, 5, 6, 7] := rfl

theorem mem_operandRegs_iff {i : Instr} {k : Fin 8} : k ∈ operandRegs i ↔ k.val < operandCount i := by
  simp only [operandRegs, List.mem_take_iff_getElem, List.getElem_finRange, List.length_finRange, lt_min_iff]
  constructor
  · rintro ⟨j, hj, rfl⟩
    exact hj.1
  · exact fun hk => ⟨k.val, ⟨hk, k.isLt⟩, rfl⟩

theorem operandRegs_sorted (i : Instr) : (operandRegs i).Pairwise (· < ·) :=
  (List.pairwise_lt_finRange 8).sublist (List.take_sublist _ _)

/-- Reading all operands first changes nothing: the work of a command begins with their reads, in order. -/
theorem readArgs_commandWork {i : Instr} (hi : i.isCommand = true) (s : State) :
    (s.readArgs (operandRegs i) >>= fun _ => commandWork s i) = commandWork s i := by
  cases i with
  | normalize | decodeHeader | encodeHeader | packRow | unpackRow | encodeField | decodeField =>
    simp only [operandRegs, operandCount, finRange_take_two, finRange_take_six, finRange_take_seven, finRange_take_eight, commandWork,
      normalizeWork, decodeHeaderWork, encodeHeaderWork, packRowWork, rowsWork, unpackRowSetup, encodeFieldWork, decodeFieldSetup,
      bind_assoc, State.readArgs_argU, State.readArgs_argS, State.readArgs_argF, State.readArgs_nil_bind]
  | allMissing | constant | normal => cases hi

/-- Reading registers in rising order stops at the first one that is unwritten. -/
theorem State.readArgs_unwritten {s : State} {k : Fin 8} (hk : s.args.get k = none) {ks : List (Fin 8)} (hmem : k ∈ ks)
    (hsorted : ks.Pairwise (· < ·)) :
    ∃ j, j ≤ k ∧ s.args.get j = none ∧ s.readArgs ks = .error (.stop (.unwrittenOperand j)) := by
  induction ks with
  | nil => simp at hmem
  | cons x xs ih =>
    obtain ⟨hlt, hsorted⟩ := List.pairwise_cons.mp hsorted
    have hle : x ≤ k := by
      rcases List.mem_cons.mp hmem with rfl | htail
      · exact le_rfl
      · exact (hlt k htail).le
    cases hx : s.args.get x with
    | none => exact ⟨x, hle, hx, by rw [State.readArgs, State.arg, hx]; rfl⟩
    | some v =>
      have htail : k ∈ xs := by
        rcases List.mem_cons.mp hmem with rfl | htail
        · rw [hk] at hx; cases hx
        · exact htail
      obtain ⟨j, hjk, hj, hread⟩ := ih htail hsorted
      exact ⟨j, hjk, hj, by rw [State.readArgs, s.arg_of_get x v hx, Abort.bind_ok, hread]⟩

theorem isCommand_of_operandCount {i : Instr} (h : 0 < operandCount i) : i.isCommand = true := by
  cases i with
  | normalize | decodeHeader | encodeHeader | packRow | unpackRow | encodeField | decodeField => rfl
  | allMissing | constant | normal => cases h

/-- Settles O21: the work begins with the reads of its operands, and the first unwritten register among them stops it. -/
theorem unwrittenOperandIsAFault : Obligations.UnwrittenOperandIsAFault := by
  intro i s k hcount hk
  have hi := isCommand_of_operandCount (i := i) (by omega)
  obtain ⟨j, hjk, hj, hread⟩ := State.readArgs_unwritten hk (mem_operandRegs_iff.mpr hcount) (operandRegs_sorted i)
  refine ⟨j, hjk, hj, ?_⟩
  rw [exec_eq_conclude hi, ← readArgs_commandWork hi, hread]
  rfl

/-! ### How a command stops -/

/-- The work stops the machine, if at all, on an access that is not admitted. -/
def StopsOnAccess {α : Type} (w : Except Abort α) : Prop := ∀ f, w = .error (.stop f) → f = .stuckAccess

theorem stopsOnAccess_ok {α : Type} (a : α) : StopsOnAccess (.ok a) := by rintro f ⟨⟩

/-- A sequence of two pieces of work stops as the first does, or where the first succeeds as the second does. -/
theorem stopsOnAccess_bind_iff {α β : Type} (w : Except Abort α) (g : α → Except Abort β) :
    StopsOnAccess (w >>= g) ↔ StopsOnAccess w ∧ ∀ a, w = .ok a → StopsOnAccess (g a) := by
  cases w with
  | ok a => simp [stopsOnAccess_ok]
  | error x => simp [StopsOnAccess]

theorem stopsOnAccess_check (p : Bool) (e : CodecError) : StopsOnAccess (check p e) := by
  cases p <;> rintro f ⟨⟩

theorem stopsOnAccess_liftError {α : Type} (r : Except CodecError α) : StopsOnAccess (liftError r) := by
  cases r <;> rintro f ⟨⟩

theorem State.stopsOnAccess_memRead (s : State) (a n : ℕ) : StopsOnAccess (s.memRead a n) := by
  unfold State.memRead
  split <;> rintro f ⟨⟩
  rfl

theorem State.stopsOnAccess_memWrite (s : State) (a : ℕ) (v : List Byte) : StopsOnAccess (s.memWrite a v) := by
  unfold State.memWrite
  split <;> rintro f ⟨⟩
  rfl

theorem State.stopsOnAccess_argF_iff (s : State) (k : Fin 8) : StopsOnAccess (s.argF k) ↔ (s.args.get k).isSome = true := by
  unfold State.argF State.arg
  cases s.args.get k <;> simp [StopsOnAccess]

theorem State.stopsOnAccess_argU_iff (s : State) (k : Fin 8) : StopsOnAccess (s.argU k) ↔ (s.args.get k).isSome = true := by
  unfold State.argU State.arg
  cases s.args.get k <;> simp [StopsOnAccess, Except.map]

theorem State.stopsOnAccess_argS_iff (s : State) (k : Fin 8) : StopsOnAccess (s.argS k) ↔ (s.args.get k).isSome = true := by
  unfold State.argS State.arg
  cases s.args.get k <;> simp [StopsOnAccess, Except.map]

theorem State.operandsWritten_iff (s : State) (i : Instr) :
    s.operandsWritten i = true ↔ ∀ k ∈ operandRegs i, (s.args.get k).isSome = true := by
  simp only [mem_operandRegs_iff, State.operandsWritten, List.all_eq_true, List.mem_finRange, forall_const, Bool.or_eq_true,
    decide_eq_true_eq, or_iff_not_imp_left, not_le]

theorem stopsOnAccess_finishWork (s : State) (t : Transient) : StopsOnAccess (finishWork s t) := by
  simp only [finishWork, stopsOnAccess_bind_iff, stopsOnAccess_check, State.stopsOnAccess_memWrite, pure, Except.pure,
    stopsOnAccess_ok, implies_true, and_self]

theorem stopsOnAccess_rowsWork_iff (s : State) (setup : Except Abort Transient) :
    StopsOnAccess (rowsWork s setup) ↔ StopsOnAccess setup := by
  simp only [rowsWork, stopsOnAccess_bind_iff, stopsOnAccess_liftError, stopsOnAccess_finishWork, implies_true, and_true]

/-- With its operands written, each operation that a command is made of stops on an access or not at all. -/
theorem stopsOnAccess_commandWork {s : State} {i : Instr} (hi : i.isCommand = true)
    (hw : ∀ k ∈ operandRegs i, (s.args.get k).isSome = true) : StopsOnAccess (commandWork s i) := by
  cases i with
  | normalize | decodeHeader | encodeHeader | packRow | unpackRow | encodeField | decodeField =>
    simp only [operandRegs, operandCount, finRange_take_two, finRange_take_six, finRange_take_seven, finRange_take_eight,
      List.forall_mem_cons] at hw
    simp [commandWork, normalizeWork, decodeHeaderWork, encodeHeaderWork, packRowWork, unpackRowSetup, encodeFieldWork,
      decodeFieldSetup, stopsOnAccess_rowsWork_iff, stopsOnAccess_bind_iff, stopsOnAccess_check, stopsOnAccess_liftError,
      State.stopsOnAccess_memRead, State.stopsOnAccess_memWrite, State.stopsOnAccess_argF_iff, State.stopsOnAccess_argU_iff,
      State.stopsOnAccess_argS_iff, stopsOnAccess_ok, pure, Except.pure, hw]
  | allMissing | constant | normal => cases hi

/-- Settles O22: the end of the work is a next state, or the one fault it can stop with. -/
theorem commandsStopOnlyForOperandsOrAddresses : Obligations.CommandsStopOnlyForOperandsOrAddresses := by
  intro i s hi hw
  have hstops := stopsOnAccess_commandWork hi ((s.operandsWritten_iff i).mp hw)
  rw [exec_eq_conclude hi]
  match hwork : commandWork s i with
  | .ok c => exact .inl ⟨_, rfl⟩
  | .error (.raise e) => exact .inl ⟨_, rfl⟩
  | .error (.stop f) => exact .inr (by rw [hstops f hwork, State.conclude_stop])

/-! ### What a command depends on -/

section
variable {s s' : State}

theorem State.arg_congr {k : Fin 8} (h : s.args.get k = s'.args.get k) : s.arg k = s'.arg k := by rw [State.arg, h, State.arg]

theorem State.memRead_congr (hcfg : s.cfg = s'.cfg) (hmem : s.mem = s'.mem) (a n : ℕ) : s.memRead a n = s'.memRead a n := by
  rw [State.memRead, hcfg, hmem, State.memRead]

theorem State.memWrite_congr (hcfg : s.cfg = s'.cfg) (hmem : s.mem = s'.mem) (a : ℕ) (v : List Byte) :
    s.memWrite a v = s'.memWrite a v := by
  rw [State.memWrite, hcfg, hmem, State.memWrite]

theorem rowsWork_congr (hcfg : s.cfg = s'.cfg) (hmem : s.mem = s'.mem) (setup : Except Abort Transient) :
    rowsWork s setup = rowsWork s' setup := by
  simp only [rowsWork, finishWork, hcfg, State.memWrite_congr hcfg hmem]

/-- R21: the work reads nothing but its operands, the configuration and memory. -/
theorem commandWork_congr {i : Instr} (hcfg : s.cfg = s'.cfg) (hmem : s.mem = s'.mem)
    (hargs : ∀ k ∈ operandRegs i, s.args.get k = s'.args.get k) : commandWork s i = commandWork s' i := by
  have harg : ∀ k ∈ operandRegs i, s.arg k = s'.arg k := fun k hk => State.arg_congr (hargs k hk)
  cases i with
  | normalize | decodeHeader | encodeHeader | packRow | unpackRow | encodeField | decodeField =>
    simp only [operandRegs, operandCount, finRange_take_two, finRange_take_six, finRange_take_seven, finRange_take_eight,
      List.forall_mem_cons] at harg
    simp only [commandWork, normalizeWork, decodeHeaderWork, encodeHeaderWork, packRowWork, unpackRowSetup, encodeFieldWork,
      decodeFieldSetup, rowsWork_congr hcfg hmem, State.memRead_congr hcfg hmem, State.memWrite_congr hcfg hmem, hcfg, hmem,
      State.argF, State.argU, State.argS, harg]
  | allMissing | constant | normal => rfl

end

/-- Settles O23: the same work ends in states with the same `STATUS`, results and memory, or in the same fault. -/
theorem commandsDependOnOperandsAndMemoryAlone : Obligations.CommandsDependOnOperandsAndMemoryAlone := by
  intro i s s' hi hcfg hmem hargs
  rw [exec_eq_conclude hi, exec_eq_conclude hi, commandWork_congr hcfg hmem fun k hk => hargs k (mem_operandRegs_iff.mp hk)]
  match commandWork s' i with
  | .ok c => exact .inl ⟨_, _, rfl, rfl, rfl, rfl, rfl⟩
  | .error (.raise e) => exact .inl ⟨_, _, rfl, rfl, rfl, rfl, hmem⟩
  | .error (.stop f) => exact .inr ⟨f, rfl, rfl⟩

end Sys2Proof.Machine
end

section
/-! Proofs for 42_row_packer, sections 2 and 3: PACK_ROW (R140) and kind fidelity (R143); and for 00_scope R12: IEEE-754 equality. -/

namespace Sys2Proof.Machine

/-! ### IEEE-754 equality -/

theorem real_eq_real_iff (x y : Word) : real x = real y ↔ scaled x = scaled y := by
  rw [le_antisymm_iff, le_antisymm_iff, real_le_real_iff, real_le_real_iff]

theorem isNaN_of_isFinite {x : Word} (h : isFinite x = true) : isNaN x = false := by
  have hexp : expField x ≠ 2047 := by simpa [isFinite] using h
  simp [isNaN, hexp]

theorem feq_of_isFinite {x y : Word} (hx : isFinite x = true) (hy : isFinite y = true) : feq x y = true ↔ real x = real y := by
  rw [real_eq_real_iff, feq, isNaN_of_isFinite hx, isNaN_of_isFinite hy, hx, hy]
  simp

/-- Settles O45: the branches of `feq` are a NaN, two finite patterns, and the rest. -/
theorem floatEqualityIsIeee : Obligations.FloatEqualityIsIeee := by
  refine fun x y => ⟨fun hnan => ?nan, feq_of_isFinite, fun hx hy hinf => ?infinite⟩
  case nan => simp [feq, hnan]
  case infinite =>
    have hmixed : (isFinite x && isFinite y) = false := by simpa [← Bool.not_eq_true, or_iff_not_imp_left] using hinf
    simp [feq, hx, hy, hmixed]

/-! ### Kind fidelity -/

/-- A row of finite present cells that are pairwise equal has its first cell as the base, and codes 0 alone. -/
theorem packRow_equalCells {bMax r : ℕ} {c : Word} {rest : List Word} {mdi : Word} {e : ℤ}
    (hfin : ∀ x ∈ c :: rest, feq x mdi = false ∧ isFinite x = true)
    (heq : ∀ x ∈ c :: rest, ∀ y ∈ c :: rest, feq x y = true) :
    packRow bMax (c :: rest) mdi e r = .ok ⟨[0x0200000000000000, c], 2, 0⟩ := by
  have hscaled : ∀ x ∈ c :: rest, ∀ y ∈ c :: rest, scaled x = scaled y := fun x hx y hy =>
    (real_eq_real_iff x y).mp ((feq_of_isFinite (hfin x hx).2 (hfin y hy).2).mp (heq x hx y hy))
  have hc : c ∈ presentCells (c :: rest) mdi := mem_presentCells.mpr ⟨List.mem_cons_self, (hfin c List.mem_cons_self).1⟩
  cases hbase : rowBase (c :: rest) mdi with
  | none => rw [rowBase_eq_none_iff.mp hbase] at hc; cases hc
  | some base =>
    obtain ⟨before, after, hsplit, -, hgreater⟩ := rowBase_splits hbase
    have hmem : base ∈ c :: rest := by rw [hsplit]; simp
    have hfirst : base = c := by
      cases before with
      | nil => exact (List.cons.inj hsplit).1.symm
      | cons x xs =>
        obtain ⟨rfl, -⟩ := List.cons.inj hsplit
        have hlt := hgreater c List.mem_cons_self (hfin c List.mem_cons_self).1
        exact absurd (hscaled base hmem c List.mem_cons_self) hlt.ne
    rw [packRow_constant (fun x hx _ => (hfin x hx).2) hbase, hfirst]
    refine not_needsCodes_iff.mpr fun x hx => ⟨(hfin x hx).1, ?_⟩
    rw [cellCode, hscaled x hx base hmem, sub_self]
    rfl

/-- A row that packs with a missing and a present cell is NORMAL (R143). -/
theorem packRow_mixed_kind {bMax r : ℕ} {cells : List Word} {mdi : Word} {e : ℤ} {record : RowRecord}
    (hmissing : ∃ c ∈ cells, feq c mdi = true) (hpresent : ∃ c ∈ cells, feq c mdi = false)
    (h : packRow bMax cells mdi e r = .ok record) : record.kind = 3 := by
  obtain ⟨c, hc, hcmdi⟩ := hmissing
  obtain ⟨x, hx, hxmdi⟩ := hpresent
  cases hbase : rowBase cells mdi with
  | none =>
    have hmem := mem_presentCells.mpr ⟨hx, hxmdi⟩
    rw [rowBase_eq_none_iff.mp hbase] at hmem
    cases hmem
  | some base =>
    rcases packRow_ok_cases h hbase with ⟨hconst, -⟩ | ⟨-, -, rfl⟩
    · exact absurd ⟨c, hc, .inl hcmdi⟩ hconst
    · rfl

/-- Settles O34: the tests of R132, R133 and R136 on each of the four sorts of row. -/
theorem kindFidelity : Obligations.KindFidelity := by
  refine fun bMax cells mdi e r => ⟨fun h => ⟨_, packRow_allMissing (rowBase_eq_none_of_allMissing h), rfl⟩,
    fun hmissing hpresent record h => packRow_mixed_kind hmissing hpresent h, ?_, fun h record hok => ?_⟩
  · rintro c rest rfl hfin heq
    exact packRow_equalCells hfin heq
  · exact not_presentFinite_of_exists h (presentFinite_of_packRow_ok hok)

/-! ### The end of a command that wrote words -/

theorem State.complete_write_endsWell (s : State) (a : ℕ) (v : List Byte) (res : ResFile) :
    EndsWell s (s.complete ⟨s.mem.writeBytes a v, res⟩) res a v.length :=
  s.complete_endsWell _ a v.length fun x hx => Memory.read_writeBytes_outside _ _ _ _ (by omega)

/-- Words written in host order read back as cells. -/
theorem State.cellsAt_complete_write (s : State) (a : ℕ) (ws : List Word) (res : ResFile) :
    (s.complete ⟨s.mem.writeBytes a (natBytesOf s.cfg.hostOrder ws), res⟩).cellsAt a ws.length = ws := by
  have hread := s.mem.readBytes_writeBytes a (natBytesOf s.cfg.hostOrder ws)
  rw [natBytesOf_length] at hread
  exact (congrArg _ hread).trans (natWords_natBytesOf _ _)

/-! ### PACK_ROW -/

/-- The results of PACK_ROW (R140). -/
def RowRecord.results (record : RowRecord) : ResFile :=
  ⟨some (unsigned64 (8 * record.words.length)), some (unsigned64 record.kind), some (unsigned64 record.width), none⟩

/-- What PACK_ROW does with its record: the capacity check, then the write (R140). -/
def State.storeRecord (s : State) (o k : Word) (record : RowRecord) : Except Abort Completion := do
  check (decide (8 * record.words.length ≤ k.toNat)) (.allocationFailure 1)
  let m ← s.memWrite o.toNat (natBytesOf s.cfg.hostOrder record.words)
  pure ⟨m, record.results⟩

section
variable {s : State} {o k : Word} {record : RowRecord}

theorem State.storeRecord_full (hk : k.toNat < 8 * record.words.length) :
    s.storeRecord o k record = .error (.raise (.allocationFailure 1)) := by
  rw [State.storeRecord, decide_eq_false hk.not_ge, check_false, Abort.bind_error]

theorem State.storeRecord_stuck (hk : 8 * record.words.length ≤ k.toNat)
    (ho : regionMissing s.cfg o.toNat (8 * record.words.length)) : s.storeRecord o k record = .error (.stop .stuckAccess) := by
  rw [regionMissing_iff, ← natBytesOf_length s.cfg.hostOrder] at ho
  rw [State.storeRecord, decide_eq_true hk, check_true, Abort.bind_ok, s.memWrite_stuck _ _ ho, Abort.bind_error]

theorem State.storeRecord_ok (hk : 8 * record.words.length ≤ k.toNat)
    (ho : admitsRegion s.cfg o.toNat (8 * record.words.length) = true) :
    s.storeRecord o k record =
      .ok ⟨s.mem.writeBytes o.toNat (natBytesOf s.cfg.hostOrder record.words), record.results⟩ := by
  rw [← natBytesOf_length s.cfg.hostOrder] at ho
  rw [State.storeRecord, decide_eq_true hk, check_true, Abort.bind_ok, s.memWrite_of_admits _ _ ho]
  rfl

end

section
variable {s : State} {a cols mdi e o k : Word} (hops : s.operandsAre [a, cols, mdi, e, o, k])
include hops

theorem packRowWork_of_operands :
    packRowWork s = (do
      check (dimOk cols.toInt) (.shapeMismatch 2)
      check (accOk e.toInt) (.shapeMismatch 4)
      let b ← s.memRead a.toNat (8 * cols.toInt.toNat)
      let record ← liftError (packRow s.cfg.bMax (natWords s.cfg.hostOrder b) mdi e.toInt 0)
      s.storeRecord o k record) := by
  simp only [packRowWork, s.argU_of_get 0 a (hops 0 a rfl), s.argS_of_get 1 cols (hops 1 cols rfl),
    s.argF_of_get 2 mdi (hops 2 mdi rfl), s.argS_of_get 3 e (hops 3 e rfl), s.argU_of_get 4 o (hops 4 o rfl),
    s.argU_of_get 5 k (hops 5 k rfl), Abort.bind_ok]
  rfl

/-- With its operands in range, PACK_ROW reads its input first. -/
theorem packRowWork_of_inRange (hcols : inDim cols) (he : inAcc e) :
    packRowWork s = (do
      let b ← s.memRead a.toNat (8 * cols.toNat)
      let record ← liftError (packRow s.cfg.bMax (natWords s.cfg.hostOrder b) mdi e.toInt 0)
      s.storeRecord o k record) := by
  rw [packRowWork_of_operands hops, dimOk_of_inDim hcols, accOk_of_inAcc he, toNat_toInt_of_inDim hcols, check_true, check_true,
    Abort.bind_ok, Abort.bind_ok]

theorem packRowWork_of_admitted (hcols : inDim cols) (he : inAcc e) (ha : admitsRegion s.cfg a.toNat (8 * cols.toNat) = true) :
    packRowWork s = (do
      let record ← liftError (packRow s.cfg.bMax (s.cellsAt a.toNat cols.toNat) mdi e.toInt 0)
      s.storeRecord o k record) := by
  rw [packRowWork_of_inRange hops hcols he, s.memRead_of_admits _ _ ha]
  rfl

theorem packRowWork_stuckInput (hcols : inDim cols) (he : inAcc e) (ha : regionMissing s.cfg a.toNat (8 * cols.toNat)) :
    packRowWork s = .error (.stop .stuckAccess) := by
  rw [packRowWork_of_inRange hops hcols he, s.memRead_stuck _ _ ((regionMissing_iff ..).mp ha), Abort.bind_error]

/-- With a record for its row, what is left of PACK_ROW is to store it. -/
theorem packRowWork_of_record {record : RowRecord} (hcols : inDim cols) (he : inAcc e)
    (ha : admitsRegion s.cfg a.toNat (8 * cols.toNat) = true)
    (hpack : packRow s.cfg.bMax (s.cellsAt a.toNat cols.toNat) mdi e.toInt 0 = .ok record) :
    packRowWork s = s.storeRecord o k record := by
  rw [packRowWork_of_admitted hops hcols he ha, hpack, liftError_ok, Abort.bind_ok]

theorem packRowWork_badCols (hcols : ¬ inDim cols) : packRowWork s = .error (.raise (.shapeMismatch 2)) := by
  rw [packRowWork_of_operands hops, dimOk_of_not_inDim hcols, check_false, Abort.bind_error]

theorem packRowWork_badAcc (hcols : inDim cols) (he : ¬ inAcc e) : packRowWork s = .error (.raise (.shapeMismatch 4)) := by
  rw [packRowWork_of_operands hops, dimOk_of_inDim hcols, check_true, Abort.bind_ok, accOk_of_not_inAcc he, check_false,
    Abort.bind_error]

theorem packRowWork_rowError {err : CodecError} (hcols : inDim cols) (he : inAcc e)
    (ha : admitsRegion s.cfg a.toNat (8 * cols.toNat) = true)
    (hpack : packRow s.cfg.bMax (s.cellsAt a.toNat cols.toNat) mdi e.toInt 0 = .error err) :
    packRowWork s = .error (.raise err) := by
  rw [packRowWork_of_admitted hops hcols he ha, hpack, liftError_error, Abort.bind_error]

end

/-- The one error of a row that does not pack (R133, R138). -/
theorem packRow_error {bMax r : ℕ} {cells : List Word} {mdi : Word} {e : ℤ} {err : CodecError}
    (h : packRow bMax cells mdi e r = .error err) : err = .accuracyOverflow r := by
  cases hbase : rowBase cells mdi with
  | none => rw [packRow_allMissing hbase] at h; cases h
  | some base =>
    rw [packRow_of_rowBase hbase] at h
    split_ifs at h <;> cases h <;> rfl

/-- Settles O31: the record is stored at the output address, and its words read back from there. -/
theorem packRowWritesTheRecord : Obligations.PackRowWritesTheRecord := by
  intro s a cols mdi e o k record hops hcols he ha hpack hk ho
  have hwork := (packRowWork_of_record hops hcols he ha hpack).trans (State.storeRecord_ok hk ho)
  have hends := s.complete_write_endsWell o.toNat (natBytesOf s.cfg.hostOrder record.words) record.results
  rw [natBytesOf_length] at hends
  exact ⟨_, exec_complete rfl hwork, hends, s.cellsAt_complete_write ..⟩

/-- Settles O32: the checks in the order of the work. -/
theorem packRowChecksInOrder : Obligations.PackRowChecksInOrder := by
  refine fun s a cols mdi e o k hops => ⟨fun hcols => ?cols, fun hcols he => ?acc, fun hcols he ha => ⟨fun err hpack => ?row,
    fun record hpack hk => ?capacity⟩⟩
  case cols => exact exec_raise rfl (packRowWork_badCols hops hcols)
  case acc => exact exec_raise rfl (packRowWork_badAcc hops hcols he)
  case row =>
    obtain rfl := packRow_error hpack
    exact ⟨rfl, exec_raise rfl (packRowWork_rowError hops hcols he ha hpack)⟩
  case capacity =>
    exact exec_raise rfl ((packRowWork_of_record hops hcols he ha hpack).trans (State.storeRecord_full hk))

end Sys2Proof.Machine
end

section
/-! Proofs for 43_row_unpacker, sections 1, 2, 4 and 5: UNPACK_ROW and its errors (R160), the records that do not decode (R151, R152, R154,
R155), and the re-encode of a row (R162). -/

namespace Sys2Proof.Machine

/-- Settles O50: the decoded row has the base, the missing cells and the codes of the row. -/
theorem reEncodeGivesTheSameRecord : Obligations.ReEncodeGivesTheSameRecord := fun _ _ _ _ _ _ h hexact => packRow_decodedRow h hexact

/-- Settles O46: the record decodes, so its cells are written, with the results of R160. -/
theorem unpackRowWritesTheCells : Obligations.UnpackRowWritesTheCells := by
  intro s a n off cols mdi e o k cells kind len hops hn hcols he hk ha ho h
  have hends := s.complete_write_endsWell o.toNat (natBytesOf s.cfg.hostOrder cells) (s.rowUnpacking o cells kind len).res
  have hcells := s.cellsAt_rowUnpacking o cells kind len
  simp only [natBytesOf_length, State.rowUnpacking, h.length_eq] at hends hcells
  refine ⟨_, exec_unpackRow_ok hops hn hcols he hk ha ho h, ?_, ?_⟩
  · rw [State.rowUnpacking, h.length_eq]
    exact hends
  · rw [State.rowUnpacking, h.length_eq]
    exact hcells

/-! ### Records that do not decode -/

section
variable {bMax : ℕ} {t : Transient}

theorem nextRecord_of_descriptor_error {e : CodecError} (h : t.descriptor bMax = .error e) : nextRecord bMax t = .error e := by
  rw [nextRecord, h]

theorem nextRecord_of_descriptor {d : RowDescriptor} (h : t.descriptor bMax = .ok d) : nextRecord bMax t = recordRule d t := by
  rw [nextRecord, h]

/-- R151: no word is left for the descriptor. -/
theorem nextRecord_noWord (hl : t.lim ≤ t.cur) : nextRecord bMax t = .error (.truncatedRow t.row) :=
  nextRecord_of_descriptor_error (t.descriptor_truncated bMax hl)

variable {d : Word} (hl : t.cur < t.lim) (hw : t.work[t.cur]? = some d)
include hl hw

/-- R152: an illegal descriptor. -/
theorem nextRecord_corrupt (hd : decodeDescriptor bMax d = none) : nextRecord bMax t = .error (.corruptRowHeader t.row) := by
  refine nextRecord_of_descriptor_error (t.descriptor_corrupt bMax hl ?_)
  rwa [Transient.word_eq hw, ← decodeDescriptor_eq_none_iff]

/-- R154: no word is left for the base of a CONSTANT record. -/
theorem nextRecord_constant_truncated (hd : decodeDescriptor bMax d = some .constant) (hend : t.lim ≤ t.cur + 1) :
    nextRecord bMax t = .error (.truncatedRow t.row) :=
  (nextRecord_of_descriptor (Transient.descriptor_ok hl hw hd)).trans (constantRecord_truncated hend)

/-- R155: a NORMAL record runs past the limit. -/
theorem nextRecord_normal_truncated {b : BitVec 8} (hd : decodeDescriptor bMax d = some (.normal b))
    (hend : t.lim < t.cur + 2 + wordsFor (t.cols * b.toNat)) : nextRecord bMax t = .error (.truncatedRow t.row) :=
  (nextRecord_of_descriptor (Transient.descriptor_ok hl hw hd)).trans (normalRecordOn_truncated hend)

end

/-! ### The work of a command that decodes rows -/

section
variable {s : State} {setup : Except Abort Transient}

theorem rowsWork_of_error {x : Abort} (h : setup = .error x) : rowsWork s setup = .error x := by
  rw [rowsWork, h, Abort.bind_error]

variable {t : Transient} (hsetup : setup = .ok t)
include hsetup

theorem rowsWork_of_ok : rowsWork s setup = (do
    let u ← liftError (nextRecords s.cfg.bMax t.rows t)
    finishWork s u) := by
  rw [rowsWork, hsetup, Abort.bind_ok]

/-- The first row that fails ends the command (R180). -/
theorem rowsWork_rowError {m : ℕ} {u : Transient} {e : CodecError} (hrun : nextRecords s.cfg.bMax m t = .ok u) (hm : m < t.rows)
    (hrow : nextRecord s.cfg.bMax u = .error e) : rowsWork s setup = .error (.raise e) := by
  obtain ⟨n, hn⟩ := Nat.exists_eq_add_of_lt hm
  have hall : nextRecords s.cfg.bMax t.rows t = .error e := by
    rw [hn, Nat.add_assoc, nextRecords_add, hrun]
    simp only [nextRecords, hrow]
  rw [rowsWork_of_ok hsetup, hall, liftError_error, Abort.bind_error]

/-- Where all rows decode, what is left of the command is its end. -/
theorem rowsWork_of_rowsDecode {cells : List Word} {stop : ℕ}
    (h : RowsDecode s.cfg.bMax t.work t.lim t.cols t.mdi t.acc t.rows t.cur cells stop) :
    ∃ u, nextRecords s.cfg.bMax t.rows t = .ok u ∧ rowsWork s setup = finishWork s u ∧ u.stage = t.stage ++ cells ∧
      u.cur = stop := by
  obtain ⟨u, hrun, hstage, hcur⟩ := nextRecords_of_rowsDecode (bMax_le s.cfg) h
  refine ⟨u, hrun, ?_, hstage, hcur⟩
  rw [rowsWork_of_ok hsetup, hrun, liftError_ok, Abort.bind_ok]

end

theorem finishWork_stuck {s : State} {t : Transient} (hfilled : t.filled = true)
    (ho : regionMissing s.cfg t.out (8 * t.stage.length)) : finishWork s t = .error (.stop .stuckAccess) := by
  rw [regionMissing_iff, ← natBytesOf_length s.cfg.hostOrder] at ho
  rw [finishWork, hfilled, check_true, Abort.bind_ok, s.memWrite_stuck _ _ ho, Abort.bind_error]

theorem finishWork_notFilled {s : State} {t : Transient} (hfilled : t.filled = false) :
    finishWork s t = .error (.raise (.malformedHeader 5)) := by
  rw [finishWork, hfilled, check_false, Abort.bind_error]

/-! ### The errors of UNPACK_ROW -/

section
variable {s : State} {a n off cols mdi e o k : Word} (hops : s.operandsAre [a, n, off, cols, mdi, e, o, k])
include hops

theorem unpackRowSetup_of_operands :
    unpackRowSetup s = (do
      check (decide (n.toNat % 8 = 0)) (.invalidLength n.toNat)
      check (dimOk cols.toInt) (.shapeMismatch 2)
      check (accOk e.toInt) (.shapeMismatch 4)
      check (decide (8 * cols.toInt.toNat ≤ k.toNat)) (.allocationFailure 1)
      let b ← s.memRead a.toNat n.toNat
      pure { job := .unpackRow, work := natWords s.cfg.hostOrder b, lim := n.toNat / 8, cur := off.toNat, row := 0, rows := 1,
             cols := cols.toInt.toNat, mdi := mdi, acc := e.toInt, stage := [], kind := 0, consumed := 0, out := o.toNat }) := by
  simp only [unpackRowSetup, s.argU_of_get 0 a (hops 0 a rfl), s.argU_of_get 1 n (hops 1 n rfl), s.argU_of_get 2 off (hops 2 off rfl),
    s.argS_of_get 3 cols (hops 3 cols rfl), s.argF_of_get 4 mdi (hops 4 mdi rfl), s.argS_of_get 5 e (hops 5 e rfl),
    s.argU_of_get 6 o (hops 6 o rfl), s.argU_of_get 7 k (hops 7 k rfl), Abort.bind_ok]

theorem unpackRowSetup_badLength (hn : n.toNat % 8 ≠ 0) : unpackRowSetup s = .error (.raise (.invalidLength n.toNat)) := by
  rw [unpackRowSetup_of_operands hops, decide_eq_false hn, check_false, Abort.bind_error]

theorem unpackRowSetup_badCols (hn : n.toNat % 8 = 0) (hcols : ¬ inDim cols) :
    unpackRowSetup s = .error (.raise (.shapeMismatch 2)) := by
  rw [unpackRowSetup_of_operands hops, decide_eq_true hn, check_true, Abort.bind_ok, dimOk_of_not_inDim hcols, check_false,
    Abort.bind_error]

theorem unpackRowSetup_badAcc (hn : n.toNat % 8 = 0) (hcols : inDim cols) (he : ¬ inAcc e) :
    unpackRowSetup s = .error (.raise (.shapeMismatch 4)) := by
  rw [unpackRowSetup_of_operands hops, decide_eq_true hn, check_true, Abort.bind_ok, dimOk_of_inDim hcols, check_true, Abort.bind_ok,
    accOk_of_not_inAcc he, check_false, Abort.bind_error]

theorem unpackRowSetup_full (hn : n.toNat % 8 = 0) (hcols : inDim cols) (he : inAcc e) (hk : k.toNat < 8 * cols.toNat) :
    unpackRowSetup s = .error (.raise (.allocationFailure 1)) := by
  rw [← toNat_toInt_of_inDim hcols] at hk
  rw [unpackRowSetup_of_operands hops, decide_eq_true hn, check_true, Abort.bind_ok, dimOk_of_inDim hcols, check_true, Abort.bind_ok,
    accOk_of_inAcc he, check_true, Abort.bind_ok, decide_eq_false hk.not_ge, check_false, Abort.bind_error]

theorem unpackRowSetup_stuck (hn : n.toNat % 8 = 0) (hcols : inDim cols) (he : inAcc e) (hk : 8 * cols.toNat ≤ k.toNat)
    (ha : regionMissing s.cfg a.toNat n.toNat) : unpackRowSetup s = .error (.stop .stuckAccess) := by
  rw [← toNat_toInt_of_inDim hcols] at hk
  rw [unpackRowSetup_of_operands hops, decide_eq_true hn, check_true, Abort.bind_ok, dimOk_of_inDim hcols, check_true, Abort.bind_ok,
    accOk_of_inAcc he, check_true, Abort.bind_ok, decide_eq_true hk, check_true, Abort.bind_ok,
    s.memRead_stuck _ _ ((regionMissing_iff ..).mp ha), Abort.bind_error]

end

/-- Settles O47: the checks of the work before its rows, in their order. -/
theorem unpackRowChecksInOrder : Obligations.UnpackRowChecksInOrder := fun _ _ _ _ _ _ _ _ _ hops =>
  ⟨fun hn => exec_raise rfl (rowsWork_of_error (unpackRowSetup_badLength hops hn)),
    fun hn hcols => exec_raise rfl (rowsWork_of_error (unpackRowSetup_badCols hops hn hcols)),
    fun hn hcols he => exec_raise rfl (rowsWork_of_error (unpackRowSetup_badAcc hops hn hcols he)),
    fun hn hcols he hk => exec_raise rfl (rowsWork_of_error (unpackRowSetup_full hops hn hcols he hk))⟩

/-- Settles O48: the one record of the command fails with row 0. -/
theorem unpackRowReportsABadRecord : Obligations.UnpackRowReportsABadRecord := by
  intro s a n off cols mdi e o k hops hn hcols he hk ha
  have hsetup := unpackRowSetup_ok hops hn hcols he hk ha
  have hfail {x : CodecError} (hrow : nextRecord s.cfg.bMax (s.unpackRowStart a n off cols mdi e o) = .error x) :
      exec .unpackRow s = .next (s.raise x) := exec_raise rfl (rowsWork_rowError hsetup (m := 0) rfl Nat.one_pos hrow)
  refine ⟨fun hl => hfail (nextRecord_noWord hl), fun d hw => ?_⟩
  obtain ⟨hl, -⟩ := List.getElem?_eq_some_iff.mp hw
  rw [State.cellsAt_length] at hl
  exact ⟨fun hd => hfail (nextRecord_corrupt hl hw hd), fun hd hend => hfail (nextRecord_constant_truncated hl hw hd hend),
    fun b hd hend => hfail (nextRecord_normal_truncated hl hw hd hend)⟩

end Sys2Proof.Machine
end

section
/-! Proofs for 44_field_codec, section 1: the payload of a field (R171, R173), ENCODE_FIELD and its errors (R172), and that its stream
does not depend on the host order (R174, 40 R105). -/

namespace Sys2Proof.Machine

/-! ### The payload of a field -/

section
variable {bMax cols : ℕ} {mdi : Word} {e : ℤ}

/-- Row by row from row `r` on, these are the records of the rows of a field. -/
def PackedAs (bMax cols : ℕ) (mdi : Word) (e : ℤ) (r : ℕ) (cells : List Word) (records : List RowRecord) : Prop :=
  ∀ i, ∀ h : i < records.length, packRow bMax (rowCells cols i cells) mdi e (r + i) = .ok records[i]

theorem packedAs_cons_iff {r : ℕ} {cells : List Word} {record : RowRecord} {records : List RowRecord} :
    PackedAs bMax cols mdi e r cells (record :: records) ↔
      packRow bMax (cells.take cols) mdi e r = .ok record ∧ PackedAs bMax cols mdi e (r + 1) (cells.drop cols) records := by
  constructor
  · intro h
    have hfirst := h 0 (Nat.succ_pos _)
    rw [rowCells_zero] at hfirst
    refine ⟨hfirst, fun i hi => ?_⟩
    have hlater := h (i + 1) (by simpa using hi)
    rwa [rowCells_succ, ← Nat.add_assoc, Nat.add_right_comm] at hlater
  · rintro ⟨hfirst, hlater⟩ i hi
    cases i with
    | zero => rw [rowCells_zero]; exact hfirst
    | succ i =>
      rw [rowCells_succ, ← Nat.add_assoc, Nat.add_right_comm]
      exact hlater i (by simpa using hi)

/-- R171: the payload is the concatenation of the records in row order. -/
theorem packRows_eq_ok_iff {n r : ℕ} {cells payload : List Word} :
    packRows bMax cols mdi e n r cells = .ok payload ↔
      ∃ records : List RowRecord, records.length = n ∧ PackedAs bMax cols mdi e r cells records ∧
        payload = (records.map RowRecord.words).flatten := by
  induction n generalizing r cells payload with
  | zero =>
    simp only [packRows, Except.ok.injEq, List.length_eq_zero_iff, exists_eq_left, List.map_nil, List.flatten_nil]
    exact ⟨fun h => ⟨fun i hi => absurd hi (Nat.not_lt_zero i), h.symm⟩, fun h => h.2.symm⟩
  | succ n ih =>
    rw [packRows_succ_eq_ok_iff]
    constructor
    · rintro ⟨record, rest, hrow, hrows, rfl⟩
      obtain ⟨records, hlen, hpacked, rfl⟩ := ih.mp hrows
      exact ⟨record :: records, by rw [List.length_cons, hlen], packedAs_cons_iff.mpr ⟨hrow, hpacked⟩, rfl⟩
    · rintro ⟨records, hlen, hpacked, rfl⟩
      obtain ⟨record, records, rfl⟩ := List.exists_cons_of_length_eq_add_one hlen
      obtain ⟨hrow, hrows⟩ := packedAs_cons_iff.mp hpacked
      exact ⟨record, _, hrow, ih.mpr ⟨records, by simpa using hlen, hrows, rfl⟩, rfl⟩

theorem packRows_succ_eq_error_iff {n r : ℕ} {cells : List Word} {err : CodecError} :
    packRows bMax cols mdi e (n + 1) r cells = .error err ↔ packRow bMax (cells.take cols) mdi e r = .error err ∨
      (∃ record, packRow bMax (cells.take cols) mdi e r = .ok record) ∧
        packRows bMax cols mdi e n (r + 1) (cells.drop cols) = .error err := by
  rw [packRows]
  cases packRow bMax (cells.take cols) mdi e r with
  | error => simp
  | ok record => cases packRows bMax cols mdi e n (r + 1) (cells.drop cols) <;> simp

/-- R173: the error is that of the first row that does not pack. -/
theorem packRows_eq_error_iff {n r : ℕ} {cells : List Word} {err : CodecError} :
    packRows bMax cols mdi e n r cells = .error err ↔
      ∃ i < n, packRow bMax (rowCells cols i cells) mdi e (r + i) = .error err ∧
        ∀ j < i, ∃ record, packRow bMax (rowCells cols j cells) mdi e (r + j) = .ok record := by
  induction n generalizing r cells with
  | zero => simp [packRows]
  | succ n ih =>
    rw [packRows_succ_eq_error_iff, ih]
    constructor
    · rintro (hfirst | ⟨hrow, i, hi, herr, hbefore⟩)
      · exact ⟨0, Nat.succ_pos n, by rwa [rowCells_zero], fun j hj => absurd hj (Nat.not_lt_zero j)⟩
      · refine ⟨i + 1, by omega, by rwa [rowCells_succ, ← Nat.add_assoc, Nat.add_right_comm], ?_⟩
        rw [← Nat.succ_eq_add_one, Nat.forall_lt_succ_left]
        refine ⟨by rwa [rowCells_zero], fun j hj => ?_⟩
        rw [rowCells_succ, ← Nat.add_assoc, Nat.add_right_comm]
        exact hbefore j hj
    · rintro ⟨i, hi, herr, hbefore⟩
      cases i with
      | zero => exact .inl (by rwa [rowCells_zero] at herr)
      | succ i =>
        rw [← Nat.succ_eq_add_one, Nat.forall_lt_succ_left, rowCells_zero] at hbefore
        rw [rowCells_succ, ← Nat.add_assoc, Nat.add_right_comm] at herr
        refine .inr ⟨hbefore.1, i, by omega, herr, fun j hj => ?_⟩
        have hlater := hbefore.2 j hj
        rwa [rowCells_succ, ← Nat.add_assoc, Nat.add_right_comm] at hlater

end

/-- Settles O53: by induction on the rows, from row 0 on. -/
theorem payloadIsTheRecordsInRowOrder : Obligations.PayloadIsTheRecordsInRowOrder := by
  intro bMax rows cols mdi e cells
  refine ⟨fun payload => packRows_eq_ok_iff.trans ⟨?_, ?_⟩, fun err => packRows_eq_error_iff.trans ⟨?_, ?_⟩⟩
  · rintro ⟨records, hlen, hpacked, rfl⟩
    refine ⟨records, hlen, fun r h => by simpa using hpacked r h, rfl, ?_⟩
    rw [List.length_flatten, List.map_map]
    rfl
  · rintro ⟨records, hlen, hpacked, hpayload, -⟩
    exact ⟨records, hlen, fun r h => by simpa using hpacked r h, hpayload⟩
  · rintro ⟨r, hr, herr, hbefore⟩
    simp only [Nat.zero_add] at herr hbefore
    exact ⟨r, hr, herr, packRow_error herr, hbefore⟩
  · rintro ⟨r, hr, herr, -, hbefore⟩
    refine ⟨r, hr, ?_⟩
    simp only [Nat.zero_add]
    exact ⟨herr, hbefore⟩

/-! ### Accesses by their check alone -/

/-- The part of an access that can be stuck: the region exists (20_memory R43). -/
def Config.reach (c : Config) (a n : ℕ) : Except Abort Unit := if admitsRegion c a n then .ok () else .error (.stop .stuckAccess)

theorem reach_of_admits {c : Config} {a n : ℕ} (h : admitsRegion c a n = true) : Config.reach c a n = .ok () := if_pos h

theorem reach_of_missing {c : Config} {a n : ℕ} (h : regionMissing c a n) : Config.reach c a n = .error (.stop .stuckAccess) := by
  rw [Config.reach, (regionMissing_iff ..).mp h, if_neg Bool.false_ne_true]

theorem State.memRead_eq_reach (s : State) (a n : ℕ) : s.memRead a n = (fun _ => s.mem.readBytes a n) <$> Config.reach s.cfg a n := by
  rw [State.memRead, Config.reach]
  split <;> rfl

theorem State.memWrite_eq_reach (s : State) (a : ℕ) (v : List Byte) :
    s.memWrite a v = (fun _ => s.mem.writeBytes a v) <$> Config.reach s.cfg a v.length := by
  rw [State.memWrite, Config.reach]
  split <;> rfl

/-- Regions exist alike in configurations with the same admitted bytes. -/
theorem reach_congr {c c' : Config} (h : c'.admitted = c.admitted) (a n : ℕ) : Config.reach c' a n = Config.reach c a n := by
  have hbytes (a n : ℕ) : admitsBytes c' a n = admitsBytes c a n := by
    induction n generalizing a with
    | zero => rfl
    | succ n ih => rw [admitsBytes, ih, admitsBytes, admits, admits, h]
  rw [Config.reach, admitsRegion, hbytes, Config.reach, admitsRegion]

/-! ### ENCODE_FIELD -/

/-- The checks of ENCODE_FIELD that come before its input is read (R172). -/
def encodeFieldChecks (n rows cols e : Word) : Except Abort Unit := do
  check (dimOk rows.toInt) (.shapeMismatch 1)
  check (dimOk cols.toInt) (.shapeMismatch 2)
  check (decide ((n.toNat : ℤ) = rows.toInt * cols.toInt)) (.shapeMismatch 3)
  check (accOk e.toInt) (.shapeMismatch 4)

theorem encodeFieldChecks_ok {n rows cols e : Word} (hrows : inDim rows) (hcols : inDim cols)
    (hn : n.toNat = rows.toNat * cols.toNat) (he : inAcc e) : encodeFieldChecks n rows cols e = .ok () := by
  simp [encodeFieldChecks, dimOk_of_inDim hrows, dimOk_of_inDim hcols, (cellCount_toInt_iff hrows hcols).mpr hn, accOk_of_inAcc he]

/-- The checks of ENCODE_FIELD that come after its rows are packed, and the reach of its output (R172). -/
def Config.storeField (c : Config) (o k : Word) (payload : List Word) : Except Abort Unit := do
  check (decide (payload.length ≤ payloadMax)) (.allocationFailure 2)
  check (decide (8 * (2 + payload.length) ≤ k.toNat)) (.allocationFailure 1)
  Config.reach c o.toNat (8 * (2 + payload.length))

/-- The payload that ENCODE_FIELD goes on to write, with every way it can end otherwise (R172). -/
def encodeFieldPlan (c : Config) (cells : List Word) (a n rows cols mdi e o k : Word) : Except Abort (List Word) := do
  encodeFieldChecks n rows cols e
  Config.reach c a.toNat (8 * n.toNat)
  let payload ← liftError (packRows c.bMax cols.toInt.toNat mdi e.toInt rows.toInt.toNat 0 cells)
  Config.storeField c o k payload
  pure payload

section
variable {c : Config} {cells : List Word} {a n rows cols mdi e o k : Word}

/-- The order of the cells' bytes in memory is not among what ENCODE_FIELD looks at. -/
theorem encodeFieldPlan_congr {c' : Config} (hcap : c'.capPred = c.capPred) (hadmit : c'.admitted = c.admitted) :
    encodeFieldPlan c' cells a n rows cols mdi e o k = encodeFieldPlan c cells a n rows cols mdi e o k := by
  simp only [encodeFieldPlan, Config.storeField, reach_congr hadmit, Config.bMax, hcap]

section
variable (hrows : inDim rows) (hcols : inDim cols) (hn : n.toNat = rows.toNat * cols.toNat) (he : inAcc e)
include hrows hcols hn he

theorem encodeFieldPlan_stuckInput (ha : regionMissing c a.toNat (8 * n.toNat)) :
    encodeFieldPlan c cells a n rows cols mdi e o k = .error (.stop .stuckAccess) := by
  rw [encodeFieldPlan, encodeFieldChecks_ok hrows hcols hn he, Abort.bind_ok, reach_of_missing ha, Abort.bind_error]

theorem encodeFieldPlan_of_admitted (ha : admitsRegion c a.toNat (8 * n.toNat) = true) :
    encodeFieldPlan c cells a n rows cols mdi e o k = (do
      let payload ← liftError (packRows c.bMax cols.toNat mdi e.toInt rows.toNat 0 cells)
      Config.storeField c o k payload
      pure payload) := by
  rw [encodeFieldPlan, encodeFieldChecks_ok hrows hcols hn he, Abort.bind_ok, reach_of_admits ha, Abort.bind_ok,
    toNat_toInt_of_inDim hrows, toNat_toInt_of_inDim hcols]

end

theorem encodeFieldPlan_capacity {payload : List Word} (h : encodeFieldPlan c cells a n rows cols mdi e o k = .ok payload) :
    8 * (2 + payload.length) ≤ k.toNat := by
  simp only [encodeFieldPlan, Config.storeField, Abort.bind_eq_ok, check_eq_ok, decide_eq_true_eq, exists_const, pure, Except.pure,
    Except.ok.injEq] at h
  obtain ⟨-, -, -, -, _, -, -, ⟨-, hk, -⟩, rfl⟩ := h
  exact hk

theorem storeField_long {payload : List Word} (hp : payloadMax < payload.length) :
    Config.storeField c o k payload = .error (.raise (.allocationFailure 2)) := by
  rw [Config.storeField, decide_eq_false hp.not_ge, check_false, Abort.bind_error]

theorem storeField_full {payload : List Word} (hp : payload.length ≤ payloadMax) (hk : k.toNat < 8 * (2 + payload.length)) :
    Config.storeField c o k payload = .error (.raise (.allocationFailure 1)) := by
  rw [Config.storeField, decide_eq_true hp, check_true, Abort.bind_ok, decide_eq_false hk.not_ge, check_false, Abort.bind_error]

theorem storeField_stuck {payload : List Word} (hp : payload.length ≤ payloadMax) (hk : 8 * (2 + payload.length) ≤ k.toNat)
    (ho : regionMissing c o.toNat (8 * (2 + payload.length))) : Config.storeField c o k payload = .error (.stop .stuckAccess) := by
  rw [Config.storeField, decide_eq_true hp, check_true, Abort.bind_ok, decide_eq_true hk, check_true, Abort.bind_ok,
    reach_of_missing ho]

end

section
variable {s : State} {a n rows cols mdi e o k : Word} (hops : s.operandsAre [a, n, rows, cols, mdi, e, o, k])
include hops

/-- ENCODE_FIELD writes the stream of the payload it has planned. -/
theorem encodeFieldWork_eq_plan :
    encodeFieldWork s = s.fieldEncoding o rows cols e <$>
      encodeFieldPlan s.cfg (s.cellsAt a.toNat n.toNat) a n rows cols mdi e o k := by
  have hlen (payload : List Word) :
      (headerWords ⟨e.toInt, cols.toInt, rows.toInt, payload.length⟩ ++ payload).length = 2 + payload.length :=
    fieldWords_length rows cols e payload
  simp only [encodeFieldWork, s.argU_of_get 0 a (hops 0 a rfl), s.argU_of_get 1 n (hops 1 n rfl),
    s.argS_of_get 2 rows (hops 2 rows rfl), s.argS_of_get 3 cols (hops 3 cols rfl), s.argF_of_get 4 mdi (hops 4 mdi rfl),
    s.argS_of_get 5 e (hops 5 e rfl), s.argU_of_get 6 o (hops 6 o rfl), s.argU_of_get 7 k (hops 7 k rfl), Abort.bind_ok,
    State.memRead_eq_reach, State.memWrite_eq_reach, normalizeBytes_natBytesOf, natBytesOf_length, hlen, encodeFieldPlan,
    encodeFieldChecks, Config.storeField, map_bind, map_pure, bind_assoc, bind_map_left]
  rfl

theorem encodeFieldWork_of_plan_error {x : Abort}
    (h : encodeFieldPlan s.cfg (s.cellsAt a.toNat n.toNat) a n rows cols mdi e o k = .error x) : encodeFieldWork s = .error x := by
  rw [encodeFieldWork_eq_plan hops, h]
  rfl

theorem encodeFieldWork_badOperands {x : CodecError} (h : encodeFieldChecks n rows cols e = .error (.raise x)) :
    encodeFieldWork s = .error (.raise x) :=
  encodeFieldWork_of_plan_error hops (by rw [encodeFieldPlan, h, Abort.bind_error])

section
variable (hrows : inDim rows) (hcols : inDim cols) (hn : n.toNat = rows.toNat * cols.toNat) (he : inAcc e)
  (ha : admitsRegion s.cfg a.toNat (8 * n.toNat) = true)
include hrows hcols hn he ha

theorem encodeFieldWork_rowError {x : CodecError}
    (h : packRows s.cfg.bMax cols.toNat mdi e.toInt rows.toNat 0 (s.cellsAt a.toNat n.toNat) = .error x) :
    encodeFieldWork s = .error (.raise x) :=
  encodeFieldWork_of_plan_error hops (by
    rw [encodeFieldPlan_of_admitted hrows hcols hn he ha, h, liftError_error, Abort.bind_error])

theorem encodeFieldWork_storeError {x : Abort} {payload : List Word}
    (h : packRows s.cfg.bMax cols.toNat mdi e.toInt rows.toNat 0 (s.cellsAt a.toNat n.toNat) = .ok payload)
    (hstore : Config.storeField s.cfg o k payload = .error x) : encodeFieldWork s = .error x :=
  encodeFieldWork_of_plan_error hops (by
    rw [encodeFieldPlan_of_admitted hrows hcols hn he ha, h, liftError_ok, Abort.bind_ok, hstore, Abort.bind_error])

end

end

/-- The words of a stream by their fields (30_encoding R65). -/
theorem fieldWords_eq (rows cols e : Word) (payload : List Word) :
    fieldWords rows cols e payload = (BitVec.setWidth 32 e ++ BitVec.setWidth 32 cols) ::
      (BitVec.setWidth 32 rows ++ BitVec.ofNat 32 payload.length) :: payload := by
  simp only [fieldWords, headerWords, fieldHeader, enc32_toInt, List.cons_append, List.nil_append]

/-- Settles O51: ENCODE_FIELD succeeds with this payload and leaves the big-endian bytes of its stream. -/
theorem encodeFieldWritesTheStream : Obligations.EncodeFieldWritesTheStream := by
  intro s a n rows cols mdi e o k payload hops hrows hcols hn he ha hpack hp hk ho
  have hcount := (s.cellsAt_length a.toNat n.toNat).trans hn
  obtain ⟨hexec, -⟩ := (exec_encodeField_ok_iff hops _).mpr ⟨payload, ⟨⟨hrows, hcols, hcount, he, hpack, hp⟩, ha, hk, ho⟩, rfl⟩
  have hends := s.complete_write_endsWell o.toNat (natBytesOf .big (fieldWords rows cols e payload))
    (s.fieldEncoding o rows cols e payload).res
  rw [natBytesOf_length, fieldWords_length] at hends
  refine ⟨_, hexec, hends, ?_⟩
  rw [State.streamAt, State.complete_mem, s.readBytes_fieldEncoding, natWords_natBytesOf, fieldWords_eq]

/-- Settles O52: the checks in the order of the work. -/
theorem encodeFieldChecksInOrder : Obligations.EncodeFieldChecksInOrder := by
  refine fun s a n rows cols mdi e o k hops => ⟨fun hrows => ?rows, fun hrows hcols => ?cols, fun hrows hcols hn => ?count,
    fun hrows hcols hn he => ?acc, fun hrows hcols hn he ha => ⟨fun x hpack => ?row, fun payload hpack => ⟨fun hp => ?long,
    fun hp hk => ?capacity⟩⟩⟩
  case rows =>
    exact exec_raise rfl (encodeFieldWork_badOperands hops (by simp [encodeFieldChecks, dimOk_of_not_inDim hrows]))
  case cols =>
    exact exec_raise rfl (encodeFieldWork_badOperands hops (by
      simp [encodeFieldChecks, dimOk_of_inDim hrows, dimOk_of_not_inDim hcols]))
  case count =>
    have hcount := mt (cellCount_toInt_iff hrows hcols).mp hn
    exact exec_raise rfl (encodeFieldWork_badOperands hops (by
      simp [encodeFieldChecks, dimOk_of_inDim hrows, dimOk_of_inDim hcols, hcount]))
  case acc =>
    exact exec_raise rfl (encodeFieldWork_badOperands hops (by
      simp [encodeFieldChecks, dimOk_of_inDim hrows, dimOk_of_inDim hcols, (cellCount_toInt_iff hrows hcols).mpr hn,
        accOk_of_not_inAcc he]))
  case row => exact exec_raise rfl (encodeFieldWork_rowError hops hrows hcols hn he ha hpack)
  case long => exact exec_raise rfl (encodeFieldWork_storeError hops hrows hcols hn he ha hpack (storeField_long hp))
  case capacity => exact exec_raise rfl (encodeFieldWork_storeError hops hrows hcols hn he ha hpack (storeField_full hp hk))

theorem State.operandsAre_congr {s s' : State} {vs : List Word} (h : s.operandsAre vs) (hargs : s'.args = s.args) :
    s'.operandsAre vs := fun k v hv => hargs ▸ h k v hv

/-- 40 R105, 44 R174 for ENCODE_FIELD: hosts of either order plan the same payload, and its stream's bytes are the same. -/
theorem encodeField_hostOrder {s s' t : State} {a n rows cols mdi e o k : Word}
    (hops : s.operandsAre [a, n, rows, cols, mdi, e, o, k]) (hargs : s'.args = s.args) (hcap : s'.cfg.capPred = s.cfg.capPred)
    (hadmit : s'.cfg.admitted = s.cfg.admitted) (hcells : s'.cellsAt a.toNat n.toNat = s.cellsAt a.toNat n.toNat)
    (h : exec .encodeField s = .next t) :
    ∃ t', exec .encodeField s' = .next t' ∧ t'.status = t.status ∧ t'.res = t.res ∧
      (t.status = 0x00 → ∀ len ∈ t.res.res0, t'.mem.readBytes o.toNat len.toNat = t.mem.readBytes o.toNat len.toNat) := by
  have hwork := encodeFieldWork_eq_plan hops
  have hwork' := encodeFieldWork_eq_plan (s.operandsAre_congr hops hargs)
  rw [hcells, encodeFieldPlan_congr hcap hadmit] at hwork'
  match hplan : encodeFieldPlan s.cfg (s.cellsAt a.toNat n.toNat) a n rows cols mdi e o k with
  | .error (.stop f) =>
    rw [hplan] at hwork
    cases h.symm.trans (exec_stop rfl hwork)
  | .error (.raise x) =>
    rw [hplan] at hwork hwork'
    obtain rfl := Host.Outcome.next.inj (h.symm.trans (exec_raise rfl hwork))
    exact ⟨_, exec_raise rfl hwork', rfl, rfl, fun hok => absurd hok x.code_ne_ok⟩
  | .ok payload =>
    rw [hplan] at hwork hwork'
    obtain rfl := Host.Outcome.next.inj (h.symm.trans (exec_complete rfl hwork))
    refine ⟨_, exec_complete rfl hwork', rfl, rfl, fun _ len hlen => ?_⟩
    obtain rfl := Option.some.inj hlen
    have hsize : (unsigned64 (8 * (2 + payload.length))).toNat = 8 * (2 + payload.length) :=
      Nat.mod_eq_of_lt ((encodeFieldPlan_capacity hplan).trans_lt k.isLt)
    rw [hsize, State.complete_mem, State.complete_mem, State.readBytes_fieldEncoding, State.readBytes_fieldEncoding]

end Sys2Proof.Machine
end

section
/-! Proofs for 44_field_codec, section 2: DECODE_FIELD on a good stream and its errors (R176 to R178, R180), and that the field it decodes
does not depend on the host order (R174, 40 R105). -/

namespace Sys2Proof.Machine

/-! ### The start of DECODE_FIELD -/

/-- `DecodeHeader` of the words of a stream (41 R111). -/
def streamHeader : List Word → Except CodecError Header
  | w0 :: w1 :: _ => checkHeader (headerOfWords w0 w1)
  | _ => .error (.malformedHeader 1)

theorem streamHeader_short {work : List Word} (h : work.length < 2) : streamHeader work = .error (.malformedHeader 1) := by
  match work, h with
  | [], _ => rfl
  | [_], _ => rfl
  | _ :: _ :: _, h => simp at h

theorem streamHeader_cons_cons (w0 w1 : Word) (payload : List Word) :
    streamHeader (w0 :: w1 :: payload) = checkHeader (headerOfWords w0 w1) := rfl

/-- Of a buffer of whole words, `DecodeHeader` reads the words. -/
theorem decodeHeader_eq_streamHeader (o : ByteOrder) (b : List Byte) (hb : b.length % 8 = 0) :
    decodeHeader o b b.length = streamHeader (natWords o b) := by
  have hcount := natWords_length o b hb
  rw [decodeHeader]
  match hwords : natWords o b with
  | [] => rw [hwords] at hcount; exact ite_self _
  | [_] => rw [hwords] at hcount; exact ite_self _
  | w0 :: w1 :: payload =>
    rw [hwords, List.length_cons, List.length_cons] at hcount
    rw [if_neg (by omega), streamHeader_cons_cons]

/-- The transient state DECODE_FIELD begins its rows with (R176). -/
def decodingStart (work : List Word) (mdi o : Word) (e : ℤ) (rows cols p : ℕ) : Transient where
  job := .decodeField
  work := work
  lim := 2 + p
  cur := 2
  row := 0
  rows := rows
  cols := cols
  mdi := mdi
  acc := e
  stage := []
  kind := 0
  consumed := 0
  out := o.toNat

/-- DECODE_FIELD on the words of its input: the checks of R178 steps 2 to 5, then the start of its rows. -/
def startDecoding (work : List Word) (n mdi er ec o k : Word) : Except Abort Transient := do
  let h ← liftError (streamHeader work)
  check (decide (2 + h.plen ≤ n.toNat / 8)) (.malformedHeader 4)
  check (shapeAgrees er.toInt ec.toInt h) (.shapeMismatch 5)
  check (decide (8 * h.rows.toNat * h.cols.toNat ≤ k.toNat)) (.allocationFailure 1)
  pure (decodingStart work mdi o h.acc h.rows.toNat h.cols.toNat h.plen)

/-- What DECODE_FIELD does before its rows (R178), on the words of its input. -/
def decodeFieldPlan (c : Config) (work : List Word) (a n mdi er ec o k : Word) : Except Abort Transient := do
  check (decide (n.toNat % 8 = 0)) (.invalidLength n.toNat)
  Config.reach c a.toNat n.toNat
  startDecoding work n mdi er ec o k

section
variable {s : State} {a n mdi er ec o k : Word} (hops : s.operandsAre [a, n, mdi, er, ec, o, k])
include hops

/-- R176, R178: the words of the normalized input in native order are the stream's words. -/
theorem decodeFieldSetup_eq_plan :
    decodeFieldSetup s = decodeFieldPlan s.cfg (s.streamAt a.toNat (n.toNat / 8)) a n mdi er ec o k := by
  simp only [decodeFieldSetup, s.argU_of_get 0 a (hops 0 a rfl), s.argU_of_get 1 n (hops 1 n rfl),
    s.argF_of_get 2 mdi (hops 2 mdi rfl), s.argS_of_get 3 er (hops 3 er rfl), s.argS_of_get 4 ec (hops 4 ec rfl),
    s.argU_of_get 5 o (hops 5 o rfl), s.argU_of_get 6 k (hops 6 k rfl), Abort.bind_ok, decodeFieldPlan]
  by_cases hn : n.toNat % 8 = 0
  · have hwhole : 8 * (n.toNat / 8) = n.toNat := by omega
    have hlen : (normalizeBytes s.cfg.hostOrder (s.mem.readBytes a.toNat n.toNat)).length = n.toNat := by simp
    have hwords : natWords s.cfg.hostOrder (normalizeBytes s.cfg.hostOrder (s.mem.readBytes a.toNat n.toNat)) =
        s.streamAt a.toNat (n.toNat / 8) := by
      rw [natWords_normalizeBytes _ _ (by simpa using hn), State.streamAt, hwhole]
    have hheader := decodeHeader_eq_streamHeader s.cfg.hostOrder _ (hlen ▸ hn)
    rw [hlen, hwords] at hheader
    simp only [decide_eq_true hn, check_true, Abort.bind_ok, State.memRead_eq_reach, bind_map_left, hheader, hwords]
    rfl
  · simp only [decide_eq_false hn, check_false, Abort.bind_error]

theorem decodeFieldSetup_badLength (hn : n.toNat % 8 ≠ 0) : decodeFieldSetup s = .error (.raise (.invalidLength n.toNat)) := by
  rw [decodeFieldSetup_eq_plan hops, decodeFieldPlan, decide_eq_false hn, check_false, Abort.bind_error]

theorem decodeFieldSetup_stuck (hn : n.toNat % 8 = 0) (ha : regionMissing s.cfg a.toNat n.toNat) :
    decodeFieldSetup s = .error (.stop .stuckAccess) := by
  rw [decodeFieldSetup_eq_plan hops, decodeFieldPlan, decide_eq_true hn, check_true, Abort.bind_ok, reach_of_missing ha,
    Abort.bind_error]

theorem decodeFieldSetup_of_admitted (hn : n.toNat % 8 = 0) (ha : admitsRegion s.cfg a.toNat n.toNat = true) :
    decodeFieldSetup s = startDecoding (s.streamAt a.toNat (n.toNat / 8)) n mdi er ec o k := by
  rw [decodeFieldSetup_eq_plan hops, decodeFieldPlan, decide_eq_true hn, check_true, Abort.bind_ok, reach_of_admits ha,
    Abort.bind_ok]

end

theorem State.streamAt_length (s : State) (a n : ℕ) : (s.streamAt a n).length = n := by
  rw [State.streamAt, natWords_length _ _ (by simp)]
  simp

/-! ### The checks on the words of the input -/

section
variable {work : List Word} {n mdi er ec o k : Word} {h : Header}

theorem startDecoding_badHeader {x : CodecError} (hx : streamHeader work = .error x) :
    startDecoding work n mdi er ec o k = .error (.raise x) := by
  rw [startDecoding, hx, liftError_error, Abort.bind_error]

variable (hh : streamHeader work = .ok h)
include hh

theorem startDecoding_of_header : startDecoding work n mdi er ec o k = (do
    check (decide (2 + h.plen ≤ n.toNat / 8)) (.malformedHeader 4)
    check (shapeAgrees er.toInt ec.toInt h) (.shapeMismatch 5)
    check (decide (8 * h.rows.toNat * h.cols.toNat ≤ k.toNat)) (.allocationFailure 1)
    pure (decodingStart work mdi o h.acc h.rows.toNat h.cols.toNat h.plen)) := by
  rw [startDecoding, hh, liftError_ok, Abort.bind_ok]

theorem startDecoding_badPayload (hp : n.toNat / 8 < 2 + h.plen) :
    startDecoding work n mdi er ec o k = .error (.raise (.malformedHeader 4)) := by
  rw [startDecoding_of_header hh, decide_eq_false hp.not_ge, check_false, Abort.bind_error]

variable (hp : 2 + h.plen ≤ n.toNat / 8)
include hp

theorem startDecoding_badShape (hshape : shapeAgrees er.toInt ec.toInt h = false) :
    startDecoding work n mdi er ec o k = .error (.raise (.shapeMismatch 5)) := by
  rw [startDecoding_of_header hh, decide_eq_true hp, check_true, Abort.bind_ok, hshape, check_false, Abort.bind_error]

variable (hshape : shapeAgrees er.toInt ec.toInt h = true)
include hshape

theorem startDecoding_full (hk : k.toNat < 8 * h.rows.toNat * h.cols.toNat) :
    startDecoding work n mdi er ec o k = .error (.raise (.allocationFailure 1)) := by
  rw [startDecoding_of_header hh, decide_eq_true hp, check_true, Abort.bind_ok, hshape, check_true, Abort.bind_ok,
    decide_eq_false hk.not_ge, check_false, Abort.bind_error]

theorem startDecoding_ok (hk : 8 * h.rows.toNat * h.cols.toNat ≤ k.toNat) :
    startDecoding work n mdi er ec o k = .ok (decodingStart work mdi o h.acc h.rows.toNat h.cols.toNat h.plen) := by
  rw [startDecoding_of_header hh, decide_eq_true hp, check_true, Abort.bind_ok, hshape, check_true, Abort.bind_ok,
    decide_eq_true hk, check_true, Abort.bind_ok]
  rfl

end

/-- R177 on the operand words. -/
theorem shapeAgrees_iff (er ec : Word) (h : Header) :
    shapeAgrees er.toInt ec.toInt h = true ↔ (er = 0 ∧ ec = 0) ∨ (er.toInt = h.rows ∧ ec.toInt = h.cols) := by
  have hzero (x : Word) : x.toInt = 0 ↔ x = 0 := BitVec.toInt_inj (y := 0)
  simp [shapeAgrees, hzero]

/-- The field size in bytes of a header with positive dimensions, as an exact product. -/
theorem fieldSize_lt_iff {k : ℕ} {rows cols : ℤ} (hrows : 0 < rows) (hcols : 0 < cols) :
    k < 8 * rows.toNat * cols.toNat ↔ (k : ℤ) < 8 * rows * cols := by
  rw [← Int.ofNat_lt]
  push_cast
  rw [Int.toNat_of_nonneg hrows.le, Int.toNat_of_nonneg hcols.le]

/-- Settles O56: the checks in the order of the work, on the first two words of the stream. -/
theorem decodeFieldChecksInOrder : Obligations.DecodeFieldChecksInOrder := by
  intro s a n mdi er ec o k hops
  refine ⟨fun hn => exec_raise rfl (rowsWork_of_error (decodeFieldSetup_badLength hops hn)), fun hn ha => ?_⟩
  have hraise {x : CodecError} (hx : startDecoding (s.streamAt a.toNat (n.toNat / 8)) n mdi er ec o k = .error (.raise x)) :
      exec .decodeField s = .next (s.raise x) :=
    exec_raise rfl (rowsWork_of_error ((decodeFieldSetup_of_admitted hops hn ha).trans hx))
  refine ⟨fun hshort => ?short, fun w0 w1 payload hwords => ?_⟩
  case short => exact hraise (startDecoding_badHeader (streamHeader_short (by rw [State.streamAt_length]; omega)))
  rw [hwords] at hraise
  have hheader (hcols : 0 < (headerOfWords w0 w1).cols) (hrows : 0 < (headerOfWords w0 w1).rows) :
      streamHeader (w0 :: w1 :: payload) = .ok (headerOfWords w0 w1) := checkHeader_ok hcols hrows
  refine ⟨fun hcols => ?cols, fun hcols hrows => ?rows, fun hcols hrows hp => ?payload, fun hcols hrows hp hnone hother => ?shape,
    fun hcols hrows hp hshape hk => ?capacity⟩
  case cols => exact hraise (startDecoding_badHeader (checkHeader_cols hcols))
  case rows => exact hraise (startDecoding_badHeader (checkHeader_rows hcols hrows))
  case payload => exact hraise (startDecoding_badPayload (hheader hcols hrows) hp)
  case shape =>
    have hdiffers : shapeAgrees er.toInt ec.toInt (headerOfWords w0 w1) = false := by
      rw [← Bool.not_eq_true, shapeAgrees_iff]
      exact not_or.mpr ⟨hnone, hother⟩
    exact hraise (startDecoding_badShape (hheader hcols hrows) hp hdiffers)
  case capacity =>
    exact hraise (startDecoding_full (hheader hcols hrows) hp ((shapeAgrees_iff ..).mpr hshape) ((fieldSize_lt_iff hrows hcols).mpr hk))

/-! ### The rows of DECODE_FIELD -/

/-- After rows that decode, the cursor stands where they end. -/
theorem decodingStart_run_rows {bMax r stop rows cols p : ℕ} {work cells : List Word} {mdi o : Word} {e : ℤ} (hcap : bMax ≤ 63)
    (hrows : RowsDecode bMax work (2 + p) cols mdi e r 2 cells stop) :
    ∃ u, nextRecords bMax r (decodingStart work mdi o e rows cols p) = .ok u ∧ u.cur = stop ∧ u.row = r ∧ u.lim = 2 + p ∧
      u.work = work ∧ u.cols = cols := by
  obtain ⟨u, hrun, -, hcur⟩ := nextRecords_of_rowsDecode (t := decodingStart work mdi o e rows cols p) hcap hrows
  obtain ⟨-, hwork, hlim, -, hcols, -, -, -, hrow⟩ := nextRecords_keeps _ _ _ _ hrun
  exact ⟨u, hrun, hcur, hrow.trans (Nat.zero_add r), hlim, hwork, hcols⟩

section
variable {s : State} {a n mdi er ec o k : Word} {work : List Word} {e : ℤ} {rows cols p : ℕ}
  (h : DecodeFieldSetting s a n mdi er ec o k work e rows cols p)
include h

/-- With every check passed, DECODE_FIELD begins its rows. -/
theorem DecodeFieldSetting.setup_eq : decodeFieldSetup s = .ok (decodingStart work mdi o e rows cols p) := by
  obtain ⟨w0, w1, payload, hwork, rfl, hcols, hrows, rfl⟩ := h.header
  have hcolsNat : (headerOfWords w0 w1).cols.toNat = cols := by
    rw [show (headerOfWords w0 w1).cols = cols from hcols.symm, Int.toNat_natCast]
  have hrowsNat : (headerOfWords w0 w1).rows.toNat = rows := by
    rw [show (headerOfWords w0 w1).rows = rows from hrows.symm, Int.toNat_natCast]
  have hheader : streamHeader work = .ok (headerOfWords w0 w1) := by
    rw [hwork, streamHeader_cons_cons]
    refine checkHeader_ok ?_ ?_
    · exact lt_of_lt_of_eq (Int.ofNat_lt.mpr h.cols_pos) hcols
    · exact lt_of_lt_of_eq (Int.ofNat_lt.mpr h.rows_pos) hrows
  have hshape : shapeAgrees er.toInt ec.toInt (headerOfWords w0 w1) = true := by
    rw [shapeAgrees_iff]
    refine h.shape.imp_right fun hsame => ⟨hsame.1.trans hrows, hsame.2.trans hcols⟩
  have hstart := startDecoding_ok (mdi := mdi) (o := o) (k := k) hheader h.fits hshape (by rw [hrowsNat, hcolsNat]; exact h.capacity)
  rw [hrowsNat, hcolsNat] at hstart
  rw [decodeFieldSetup_of_admitted h.operands h.whole h.admitted, h.stream, hstart]
  rfl

/-- All rows decoded: what is left is the end of the command. -/
theorem DecodeFieldSetting.work_of_rows {stop : ℕ} {cells : List Word}
    (hrows : RowsDecode s.cfg.bMax work (2 + p) cols mdi e rows 2 cells stop) :
    ∃ u, commandWork s .decodeField = finishWork s u ∧ u.stage = cells ∧ u.cur = stop ∧ u.lim = 2 + p ∧ u.job = .decodeField ∧
      u.rows = rows ∧ u.cols = cols ∧ u.acc = e ∧ u.out = o.toNat := by
  obtain ⟨u, hrun, hwork, hstage, hcur⟩ := rowsWork_of_rowsDecode h.setup_eq hrows
  obtain ⟨hjob, -, hlim, hrows', hcols, -, hacc, hout, -⟩ := nextRecords_keeps _ _ _ _ hrun
  exact ⟨u, hwork, hstage, hcur, hlim, hjob, hrows', hcols, hacc, hout⟩

end

/-- Settles O54: the rows decode and end at the payload end, so their cells are written. -/
theorem decodeFieldWritesTheField : Obligations.DecodeFieldWritesTheField := by
  intro s a n mdi er ec o k work cells e rows cols p h hrows ho
  obtain ⟨u, hwork, rfl, hcur, hlim, hjob, rfl, rfl, rfl, hout⟩ := h.work_of_rows hrows
  have hlen := hrows.length_eq
  rw [← hout, Nat.mul_assoc, ← hlen] at ho
  have hfinish := (finishWork_decodeField_eq_ok_iff hjob (hcur.trans hlim.symm) _).mpr ⟨ho, rfl⟩
  rw [hout] at hfinish
  have hends := s.complete_write_endsWell o.toNat (natBytesOf s.cfg.hostOrder u.stage)
    ⟨some (unsigned64 (8 * u.rows * u.cols)), some (unsigned64 u.rows), some (unsigned64 u.cols), some (enc64 u.acc)⟩
  rw [natBytesOf_length, hlen, ← Nat.mul_assoc] at hends
  refine ⟨_, exec_complete rfl (hwork.trans hfinish), hends, ?_⟩
  rw [← hlen]
  exact s.cellsAt_complete_write ..

theorem Transient.filled_eq_false {u : Transient} (hjob : u.job = .decodeField) (hcur : u.cur ≠ u.lim) : u.filled = false := by
  simp [Transient.filled, hjob, hcur]

/-- Settles O55: the first rows decode, and the next one or the payload check fails. -/
theorem decodeFieldReportsTheFirstBadRow : Obligations.DecodeFieldReportsTheFirstBadRow := by
  intro s a n mdi er ec o k work cells e rows cols p r stop h hrows
  refine ⟨?filled, ?_⟩
  case filled =>
    rintro rfl hstop
    obtain ⟨u, hwork, -, hcur, hlim, hjob, -⟩ := h.work_of_rows hrows
    refine exec_raise rfl (hwork.trans (finishWork_notFilled (Transient.filled_eq_false hjob ?_)))
    rwa [hcur, hlim]
  obtain ⟨u, hrun, rfl, rfl, hlim, rfl, rfl⟩ := decodingStart_run_rows (o := o) (rows := rows) (bMax_le s.cfg) hrows
  have hfail {x : CodecError} (hr : u.row < rows) (hrow : nextRecord s.cfg.bMax u = .error x) :
      exec .decodeField s = .next (s.raise x) := exec_raise rfl (rowsWork_rowError h.setup_eq hrun hr hrow)
  rw [← hlim]
  exact ⟨fun hr hl => hfail hr (nextRecord_noWord hl), fun d hr hl hw => ⟨fun hd => hfail hr (nextRecord_corrupt hl hw hd),
    fun hd hend => hfail hr (nextRecord_constant_truncated hl hw hd hend),
    fun b hd hend => hfail hr (nextRecord_normal_truncated hl hw hd hend)⟩⟩

/-! ### The host order -/

/-- Each record adds a row of cells. -/
theorem recordRule_stage_length {d : RowDescriptor} {t u : Transient} (h : recordRule d t = .ok u) :
    u.stage.length = t.stage.length + t.cols := by
  cases d with
  | allMissing =>
    obtain rfl := Except.ok.inj h
    simp
  | constant =>
    simp only [recordRule, constantRecord] at h
    split at h <;> cases h
    simp
  | normal b =>
    simp only [recordRule, normalRecordOn] at h
    split at h <;> cases h
    simp [codesOf]

theorem nextRecords_stage_length {bMax n : ℕ} {t u : Transient} (h : nextRecords bMax n t = .ok u) :
    u.stage.length = t.stage.length + n * t.cols := by
  induction n generalizing t with
  | zero => obtain rfl := Except.ok.inj h; simp
  | succ n ih =>
    simp only [nextRecords] at h
    split at h
    case h_2 => cases h
    case h_1 v hv =>
      obtain ⟨d, -, hd⟩ := (nextRecord_eq_ok ..).mp hv
      obtain ⟨-, -, -, -, hcols, -⟩ := recordRule_keeps d t v hd
      rw [ih h, recordRule_stage_length hd, hcols, Nat.succ_mul, Nat.add_assoc, Nat.add_comm t.cols]

/-- The transient state a command that decodes rows goes on to write, with every way it can end otherwise. -/
def rowsPlan (c : Config) (setup : Except Abort Transient) : Except Abort Transient := do
  let t ← setup
  let u ← liftError (nextRecords c.bMax t.rows t)
  check u.filled (.malformedHeader 5)
  Config.reach c u.out (8 * u.stage.length)
  pure u

/-- The completion of a command that decoded its rows. -/
def State.rowsCompletion (s : State) (u : Transient) : Completion :=
  ⟨s.mem.writeBytes u.out (natBytesOf s.cfg.hostOrder u.stage), u.results⟩

theorem rowsWork_eq_plan (s : State) (setup : Except Abort Transient) :
    rowsWork s setup = s.rowsCompletion <$> rowsPlan s.cfg setup := by
  simp only [rowsWork, finishWork, State.memWrite_eq_reach, natBytesOf_length, rowsPlan, map_bind, map_pure, bind_map_left]
  rfl

theorem rowsPlan_congr {c c' : Config} (hcap : c'.capPred = c.capPred) (hadmit : c'.admitted = c.admitted)
    (setup : Except Abort Transient) : rowsPlan c' setup = rowsPlan c setup := by
  simp only [rowsPlan, reach_congr hadmit, Config.bMax, hcap]

theorem decodeFieldPlan_congr {c c' : Config} (hadmit : c'.admitted = c.admitted) (work : List Word) (a n mdi er ec o k : Word) :
    decodeFieldPlan c' work a n mdi er ec o k = decodeFieldPlan c work a n mdi er ec o k := by
  simp only [decodeFieldPlan, reach_congr hadmit]

theorem rowsPlan_eq_ok {c : Config} {setup : Except Abort Transient} {u : Transient} (h : rowsPlan c setup = .ok u) :
    ∃ t, setup = .ok t ∧ nextRecords c.bMax t.rows t = .ok u := by
  simp only [rowsPlan, Abort.bind_eq_ok, liftError_eq_ok, pure, Except.pure, Except.ok.injEq] at h
  obtain ⟨t, hsetup, _, hrun, -, -, -, -, rfl⟩ := h
  exact ⟨t, hsetup, hrun⟩

/-- The first result of a command that decodes rows is the size of its cells in bytes; UNPACK_ROW has one row. -/
theorem Transient.results_res0 {u : Transient} (hrow : u.job = .unpackRow → u.rows = 1) :
    u.results.res0 = some (unsigned64 (8 * u.rows * u.cols)) := by
  unfold Transient.results
  cases hjob : u.job with
  | unpackRow => rw [hrow hjob]
  | decodeField => rfl

/-- All rows of a command decoded: the cells fill its output, whose size is the first result. -/
theorem nextRecords_output {bMax : ℕ} {t u : Transient} (hstage : t.stage = []) (hrow : t.job = .unpackRow → t.rows = 1)
    (hrun : nextRecords bMax t.rows t = .ok u) :
    u.out = t.out ∧ 8 * u.stage.length = 8 * t.rows * t.cols ∧ u.results.res0 = some (unsigned64 (8 * u.stage.length)) := by
  obtain ⟨hjob, -, -, hrows, hcols, -, -, hout, -⟩ := nextRecords_keeps _ _ _ _ hrun
  have hsize : 8 * u.stage.length = 8 * t.rows * t.cols := by
    rw [nextRecords_stage_length hrun, hstage, List.length_nil, Nat.zero_add, Nat.mul_assoc]
  refine ⟨hout, hsize, ?_⟩
  rw [Transient.results_res0 (by rwa [hjob, hrows]), hsize, hrows, hcols]

/-- A start of DECODE_FIELD has a size that its capacity bounds. -/
theorem decodeFieldPlan_eq_ok {c : Config} {work : List Word} {a n mdi er ec o k : Word} {t : Transient}
    (h : decodeFieldPlan c work a n mdi er ec o k = .ok t) :
    t.stage = [] ∧ t.job = .decodeField ∧ t.out = o.toNat ∧ 8 * t.rows * t.cols ≤ k.toNat := by
  simp only [decodeFieldPlan, startDecoding, Abort.bind_eq_ok, check_eq_ok, decide_eq_true_eq, exists_const, pure, Except.pure,
    Except.ok.injEq] at h
  obtain ⟨-, -, -, header, -, -, -, hk, rfl⟩ := h
  exact ⟨rfl, rfl, rfl, hk⟩

theorem Memory.take_readBytes (m : Memory) (a : ℕ) {n j : ℕ} (hj : j ≤ n) : (m.readBytes a n).take j = m.readBytes a j := by
  refine List.ext_getElem (by simp [hj]) fun i _ _ => ?_
  rw [List.getElem_take, Memory.readBytes_getElem, Memory.readBytes_getElem]

/-- The stream of a buffer depends on its bytes alone. -/
theorem State.streamAt_congr {s s' : State} {a n : ℕ} (h : s'.mem.readBytes a n = s.mem.readBytes a n) :
    s'.streamAt a (n / 8) = s.streamAt a (n / 8) := by
  have hwhole : 8 * (n / 8) ≤ n := by omega
  rw [State.streamAt, ← Memory.take_readBytes _ _ hwhole, h, Memory.take_readBytes _ _ hwhole, State.streamAt]

theorem decodeFieldWork_eq_plan {s : State} {a n mdi er ec o k : Word} (hops : s.operandsAre [a, n, mdi, er, ec, o, k]) :
    commandWork s .decodeField = s.rowsCompletion <$>
      rowsPlan s.cfg (decodeFieldPlan s.cfg (s.streamAt a.toNat (n.toNat / 8)) a n mdi er ec o k) := by
  rw [← decodeFieldSetup_eq_plan hops, ← rowsWork_eq_plan]
  rfl

/-- 40 R105, 44 R174 for DECODE_FIELD: hosts of either order decode the same cells, and each reads them back in its own order. -/
theorem decodeField_hostOrder {s s' t : State} {a n mdi er ec o k : Word}
    (hops : s.operandsAre [a, n, mdi, er, ec, o, k]) (hargs : s'.args = s.args) (hcap : s'.cfg.capPred = s.cfg.capPred)
    (hadmit : s'.cfg.admitted = s.cfg.admitted) (hbytes : s'.mem.readBytes a.toNat n.toNat = s.mem.readBytes a.toNat n.toNat)
    (h : exec .decodeField s = .next t) :
    ∃ t', exec .decodeField s' = .next t' ∧ t'.status = t.status ∧ t'.res = t.res ∧
      (t.status = 0x00 → ∀ len ∈ t.res.res0, t'.cellsAt o.toNat (len.toNat / 8) = t.cellsAt o.toNat (len.toNat / 8)) := by
  have hwork := decodeFieldWork_eq_plan hops
  have hwork' := decodeFieldWork_eq_plan (s.operandsAre_congr hops hargs)
  rw [State.streamAt_congr hbytes, decodeFieldPlan_congr hadmit, rowsPlan_congr hcap hadmit] at hwork'
  match hplan : rowsPlan s.cfg (decodeFieldPlan s.cfg (s.streamAt a.toNat (n.toNat / 8)) a n mdi er ec o k) with
  | .error (.stop f) =>
    rw [hplan] at hwork
    cases h.symm.trans (exec_stop rfl hwork)
  | .error (.raise x) =>
    rw [hplan] at hwork hwork'
    obtain rfl := Host.Outcome.next.inj (h.symm.trans (exec_raise rfl hwork))
    exact ⟨_, exec_raise rfl hwork', rfl, rfl, fun hok => absurd hok x.code_ne_ok⟩
  | .ok u =>
    rw [hplan] at hwork hwork'
    obtain rfl := Host.Outcome.next.inj (h.symm.trans (exec_complete rfl hwork))
    refine ⟨_, exec_complete rfl hwork', rfl, rfl, fun _ len hlen => ?_⟩
    obtain ⟨t, hsetup, hrun⟩ := rowsPlan_eq_ok hplan
    obtain ⟨hstage, hjob, hout', hk⟩ := decodeFieldPlan_eq_ok hsetup
    obtain ⟨hout, hsize, hres⟩ := nextRecords_output hstage (by simp [hjob]) hrun
    obtain rfl := Option.some.inj (hres.symm.trans hlen)
    have hcount : (unsigned64 (8 * u.stage.length)).toNat / 8 = u.stage.length := by
      rw [unsigned64, BitVec.toNat_ofNat, Nat.mod_eq_of_lt ((hsize.trans_le hk).trans_lt k.isLt), Nat.mul_div_cancel_left _ (by decide)]
    rw [hcount, ← hout', ← hout]
    exact (s'.cellsAt_complete_write ..).trans (s.cellsAt_complete_write ..).symm

/-- Settles O59: both commands, each by what it has planned before it writes. -/
theorem fieldCommandsDoNotDependOnHostOrder : Obligations.FieldCommandsDoNotDependOnHostOrder :=
  ⟨fun _ _ _ _ _ _ _ _ _ _ _ hops hargs hcap hadmit hcells h => encodeField_hostOrder hops hargs hcap hadmit hcells h,
    fun _ _ _ _ _ _ _ _ _ _ hops hargs hcap hadmit hbytes h => decodeField_hostOrder hops hargs hcap hadmit hbytes h⟩

end Sys2Proof.Machine
end

section
/-! Proofs for 20_memory R43, R51 and 60_exceptions R208, over all commands: where a command writes, and the order of its checks and its
accesses. -/

namespace Sys2Proof.Machine

/-! ### The output region -/

/-- The command wrote one run of bytes at `o`, as many as its first result says. -/
def WritesOutput (s : State) (o : ℕ) (c : Completion) : Prop :=
  ∃ v : List Byte, v.length < 2 ^ 64 ∧ c.mem = s.mem.writeBytes o v ∧ c.res.res0 = some (unsigned64 v.length)

theorem WritesOutput.read_outside {s : State} {o : ℕ} {c : Completion} {n : Word} (h : WritesOutput s o c) (hn : c.res.res0 = some n)
    {x : ℕ} (hx : ¬ (o ≤ x ∧ x < o + n.toNat)) : c.mem.read x = s.mem.read x := by
  obtain ⟨v, hlt, hmem, hres⟩ := h
  obtain rfl := Option.some.inj (hres.symm.trans hn)
  rw [unsigned64, BitVec.toNat_ofNat, Nat.mod_eq_of_lt hlt] at hx
  rw [hmem, Memory.read_writeBytes_outside _ _ _ _ (by omega)]

/-- A command that succeeds has read its operands, so they are written. -/
theorem exists_operands_of_ok {i : Instr} {s : State} {c : Completion} (hi : i.isCommand = true) (h : commandWork s i = .ok c) :
    ∃ vs : List Word, vs.length = operandCount i ∧ s.operandsAre vs := by
  have hwritten : ∀ k ∈ operandRegs i, (s.args.get k).isSome = true := by
    intro k hk
    by_contra hnone
    rw [Bool.not_eq_true, Option.isSome_eq_false_iff, Option.isNone_iff_eq_none] at hnone
    obtain ⟨j, -, -, hread⟩ := State.readArgs_unwritten hnone hk (operandRegs_sorted i)
    rw [← readArgs_commandWork hi, hread] at h
    cases h
  have hcount : operandCount i ≤ 8 := by cases i <;> simp [operandCount]
  refine ⟨(operandRegs i).map fun k => (s.args.get k).getD 0, by simp [operandRegs, hcount], fun k v hv => ?_⟩
  rw [List.getElem?_map, Option.map_eq_some_iff] at hv
  obtain ⟨j, hj, rfl⟩ := hv
  have hjk : j = k := by
    obtain ⟨hlt, hget⟩ := List.getElem?_eq_some_iff.mp hj
    simpa [operandRegs] using hget.symm
  obtain ⟨w, hw⟩ := Option.isSome_iff_exists.mp (hwritten k (hjk ▸ List.mem_of_getElem? hj))
  rw [hjk, hw, Option.getD_some]

theorem State.storeRecord_writesOutput {s : State} {o k : Word} {record : RowRecord} {c : Completion}
    (h : s.storeRecord o k record = .ok c) : WritesOutput s o.toNat c := by
  simp only [State.storeRecord, Abort.bind_eq_ok, check_eq_ok, decide_eq_true_eq, exists_const, State.memWrite_eq_ok, pure, Except.pure,
    Except.ok.injEq] at h
  obtain ⟨hk, _, ⟨-, rfl⟩, rfl⟩ := h
  exact ⟨_, by rw [natBytesOf_length]; exact hk.trans_lt k.isLt, rfl, by rw [natBytesOf_length]; rfl⟩

/-- A command that decodes rows writes the cells of its rows. -/
theorem rowsWork_writesOutput {s : State} {setup : Except Abort Transient} {c : Completion} {o k : Word}
    (hsetup : ∀ t, setup = .ok t →
      t.stage = [] ∧ (t.job = .unpackRow → t.rows = 1) ∧ t.out = o.toNat ∧ 8 * t.rows * t.cols ≤ k.toNat)
    (h : rowsWork s setup = .ok c) : WritesOutput s o.toNat c := by
  rw [rowsWork_eq_plan] at h
  match hplan : rowsPlan s.cfg setup with
  | .error x => rw [hplan] at h; cases h
  | .ok u =>
    rw [hplan] at h
    obtain rfl := Except.ok.inj h
    obtain ⟨t, ht, hrun⟩ := rowsPlan_eq_ok hplan
    obtain ⟨hstage, hrow, hout', hk⟩ := hsetup t ht
    obtain ⟨hout, hsize, hres⟩ := nextRecords_output hstage hrow hrun
    refine ⟨natBytesOf s.cfg.hostOrder u.stage, ?_, by rw [State.rowsCompletion, hout, hout'], by rwa [natBytesOf_length]⟩
    rw [natBytesOf_length, hsize]
    exact hk.trans_lt k.isLt

theorem unpackRowSetup_eq_ok {s : State} {a n off cols mdi e o k : Word} (hops : s.operandsAre [a, n, off, cols, mdi, e, o, k])
    {t : Transient} (h : unpackRowSetup s = .ok t) :
    t.stage = [] ∧ (t.job = .unpackRow → t.rows = 1) ∧ t.out = o.toNat ∧ 8 * t.rows * t.cols ≤ k.toNat := by
  simp only [unpackRowSetup_of_operands hops, Abort.bind_eq_ok, check_eq_ok, decide_eq_true_eq, exists_const, pure, Except.pure,
    Except.ok.injEq] at h
  obtain ⟨-, -, -, hk, _, -, rfl⟩ := h
  exact ⟨rfl, fun _ => rfl, rfl, hk⟩

theorem encodeHeaderWork_writesOutput {s : State} {e cols rows p o k : Word} (hops : s.operandsAre [e, cols, rows, p, o, k])
    {c : Completion} (h : encodeHeaderWork s = .ok c) : WritesOutput s o.toNat c := by
  obtain ⟨-, -, rfl⟩ := (encodeHeaderWork_eq_ok_iff hops c).mp h
  exact ⟨_, by rw [natBytesOf_headerWords_length]; decide, rfl, by rw [natBytesOf_headerWords_length]; rfl⟩

theorem packRowWork_writesOutput {s : State} {a cols mdi e o k : Word} (hops : s.operandsAre [a, cols, mdi, e, o, k])
    {c : Completion} (h : packRowWork s = .ok c) : WritesOutput s o.toNat c := by
  simp only [packRowWork_of_operands hops, Abort.bind_eq_ok] at h
  obtain ⟨-, -, -, -, -, -, record, -, hstore⟩ := h
  exact State.storeRecord_writesOutput hstore

theorem encodeFieldWork_writesOutput {s : State} {a n rows cols mdi e o k : Word}
    (hops : s.operandsAre [a, n, rows, cols, mdi, e, o, k]) {c : Completion} (h : encodeFieldWork s = .ok c) :
    WritesOutput s o.toNat c := by
  obtain ⟨payload, hfield, rfl⟩ := (encodeFieldWork_eq_ok_iff hops c).mp h
  have hlen : (natBytesOf .big (fieldWords rows cols e payload)).length = 8 * (2 + payload.length) := by
    rw [natBytesOf_length, fieldWords_length]
  refine ⟨natBytesOf .big (fieldWords rows cols e payload), ?_, by rw [State.fieldEncoding], by rw [hlen, State.fieldEncoding]⟩
  rw [hlen]
  exact hfield.capacity.trans_lt k.isLt

theorem isCommand_of_outputArg {i : Instr} {r : Fin 8} (h : outputArg i = some r) : i.isCommand = true := by
  cases i with
  | encodeHeader | packRow | unpackRow | encodeField | decodeField => rfl
  | normalize | decodeHeader | allMissing | constant | normal => cases h

/-- Each command that has an output region writes it alone. -/
theorem commandWork_writesOutput {i : Instr} {s : State} {c : Completion} {r : Fin 8} {o : Word} (hout : outputArg i = some r)
    (ho : s.args.get r = some o) (h : commandWork s i = .ok c) : WritesOutput s o.toNat c := by
  obtain ⟨vs, hlen, hops⟩ := exists_operands_of_ok (isCommand_of_outputArg hout) h
  cases i with
  | normalize | decodeHeader | allMissing | constant | normal => cases hout
  | encodeHeader =>
    obtain rfl := Option.some.inj hout
    match vs, hlen with
    | [e, cols, rows, p, o', k], _ =>
      obtain rfl := Option.some.inj (ho.symm.trans (hops 4 o' rfl))
      exact encodeHeaderWork_writesOutput hops h
  | packRow =>
    obtain rfl := Option.some.inj hout
    match vs, hlen with
    | [a, cols, mdi, e, o', k], _ =>
      obtain rfl := Option.some.inj (ho.symm.trans (hops 4 o' rfl))
      exact packRowWork_writesOutput hops h
  | unpackRow =>
    obtain rfl := Option.some.inj hout
    match vs, hlen with
    | [a, n, off, cols, mdi, e, o', k], _ =>
      obtain rfl := Option.some.inj (ho.symm.trans (hops 6 o' rfl))
      exact rowsWork_writesOutput (fun t ht => unpackRowSetup_eq_ok hops ht) h
  | encodeField =>
    obtain rfl := Option.some.inj hout
    match vs, hlen with
    | [a, n, rows, cols, mdi, e, o', k], _ =>
      obtain rfl := Option.some.inj (ho.symm.trans (hops 6 o' rfl))
      exact encodeFieldWork_writesOutput hops h
  | decodeField =>
    obtain rfl := Option.some.inj hout
    match vs, hlen with
    | [a, n, mdi, er, ec, o', k], _ =>
      obtain rfl := Option.some.inj (ho.symm.trans (hops 5 o' rfl))
      refine rowsWork_writesOutput (k := k) (fun t ht => ?_) h
      rw [decodeFieldSetup_eq_plan hops] at ht
      obtain ⟨hstage, hjob, hout', hk⟩ := decodeFieldPlan_eq_ok ht
      exact ⟨hstage, by simp [hjob], hout', hk⟩

/-- Settles O20: the bytes written are those from the output address on, as many as `RES0` says. -/
theorem outputsStayInTheirRegion : Obligations.OutputsStayInTheirRegion := by
  intro i r s t o n hout hexec hok ho hn x hx
  rw [exec_eq_conclude (isCommand_of_outputArg hout)] at hexec
  obtain ⟨c, hwork, rfl⟩ := (s.conclude_ok_iff t _).mp ⟨hexec, hok⟩
  exact (commandWork_writesOutput hout ho hwork).read_outside hn hx

/-! ### Checks and stuck accesses -/

section
variable {s : State} {a n : Word} (hops : s.operandsAre [a, n])
include hops

theorem exec_normalize_stuck (hn : n.toNat % 8 = 0) (ha : regionMissing s.cfg a.toNat n.toNat) :
    exec .normalize s = .fault .stuckAccess := by
  refine exec_stop rfl (?_ : normalizeWork s = _)
  simp [normalizeWork, s.argU_of_get 0 a (hops 0 a rfl), s.argU_of_get 1 n (hops 1 n rfl), hn,
    s.memRead_stuck _ _ ((regionMissing_iff ..).mp ha)]

theorem exec_decodeHeader_stuck (hn : 16 ≤ n.toNat) (ha : regionMissing s.cfg a.toNat 16) :
    exec .decodeHeader s = .fault .stuckAccess := by
  refine exec_stop rfl (?_ : decodeHeaderWork s = _)
  simp [decodeHeaderWork, s.argU_of_get 0 a (hops 0 a rfl), s.argU_of_get 1 n (hops 1 n rfl), hn,
    s.memRead_stuck _ _ ((regionMissing_iff ..).mp ha)]

end

theorem exec_encodeHeader_stuck {s : State} {e cols rows p o k : Word} (hops : s.operandsAre [e, cols, rows, p, o, k])
    (hchecks : encodeHeaderChecks e cols rows p k = .ok ()) (ho : regionMissing s.cfg o.toNat 16) :
    exec .encodeHeader s = .fault .stuckAccess := by
  refine exec_stop rfl (?_ : encodeHeaderWork s = _)
  rw [regionMissing_iff, ← natBytesOf_headerWords_length s.cfg.hostOrder (headerOfOperands e cols rows p)] at ho
  rw [encodeHeaderWork_of_operands hops, hchecks, Abort.bind_ok, s.memWrite_stuck _ _ ho, Abort.bind_error]

/-- UNPACK_ROW of a record that decodes, with no room to write its cells. -/
theorem exec_unpackRow_stuckOutput {s : State} {a n off cols mdi e o k : Word} {cells : List Word} {kind len : ℕ}
    (hops : s.operandsAre [a, n, off, cols, mdi, e, o, k]) (hn : n.toNat % 8 = 0) (hcols : inDim cols) (he : inAcc e)
    (hk : 8 * cols.toNat ≤ k.toNat) (ha : admitsRegion s.cfg a.toNat n.toNat = true)
    (h : RecordDecodes s.cfg.bMax (s.cellsAt a.toNat (n.toNat / 8)) (n.toNat / 8) cols.toNat mdi e.toInt off.toNat cells kind len)
    (ho : regionMissing s.cfg o.toNat (8 * cols.toNat)) : exec .unpackRow s = .fault .stuckAccess := by
  have hsetup := unpackRowSetup_ok hops hn hcols he hk ha
  have hrows : RowsDecode s.cfg.bMax (s.unpackRowStart a n off cols mdi e o).work (n.toNat / 8) cols.toNat mdi e.toInt 1 off.toNat
    (cells ++ []) (off.toNat + len) := .cons h (.nil _)
  obtain ⟨u, hrun, hwork, hstage, -⟩ := rowsWork_of_rowsDecode hsetup hrows
  obtain ⟨hjob, -, -, -, -, -, -, hout, -⟩ := nextRecords_keeps _ _ _ _ hrun
  have hfilled : u.filled = true := by rw [Transient.filled, hjob]; rfl
  refine exec_stop rfl (hwork.trans (finishWork_stuck hfilled ?_))
  rw [hout, hstage, List.append_nil]
  show regionMissing s.cfg o.toNat (8 * ([] ++ cells).length)
  rwa [List.nil_append, h.length_eq]

/-- DECODE_FIELD of rows that decode and fill the payload, with no room to write the field. -/
theorem exec_decodeField_stuckOutput {s : State} {a n mdi er ec o k : Word} {work cells : List Word} {e : ℤ} {rows cols p : ℕ}
    (h : DecodeFieldSetting s a n mdi er ec o k work e rows cols p)
    (hrows : RowsDecode s.cfg.bMax work (2 + p) cols mdi e rows 2 cells (2 + p))
    (ho : regionMissing s.cfg o.toNat (8 * rows * cols)) : exec .decodeField s = .fault .stuckAccess := by
  obtain ⟨u, hwork, rfl, hcur, hlim, hjob, -, -, -, hout⟩ := h.work_of_rows hrows
  have hfilled : u.filled = true := by simp [Transient.filled, hjob, hcur, hlim]
  refine exec_stop rfl (hwork.trans (finishWork_stuck hfilled ?_))
  rwa [hout, hrows.length_eq, ← Nat.mul_assoc]

/-- Settles O24: command by command, the missing input region, then the missing output region. -/
theorem checksAndStuckAccessesInRuleOrder : Obligations.ChecksAndStuckAccessesInRuleOrder := by
  refine ⟨fun s a n hops ha => ?normalize, fun s a n hops ha => ?decodeHeader,
    fun s e cols rows p o k hops hrows hcols he hp hk ho => ?encodeHeader, fun s a cols mdi e o k hops hcols he => ?packRow,
    fun s a n off cols mdi e o k hops hn hcols he hk => ?unpackRow, fun s a n rows cols mdi e o k hops hrows hcols hn he => ?encodeField,
    fun s a n mdi er ec o k hops ha => ?decodeFieldInput,
    fun s a n mdi er ec o k work cells e rows cols p h hrows ho => ?decodeFieldOutput⟩
  case normalize => exact ⟨fun hn => exec_normalize_invalidLength hops hn, fun hn => exec_normalize_stuck hops hn ha⟩
  case decodeHeader => exact ⟨fun hn => exec_decodeHeader_short hops hn, fun hn => exec_decodeHeader_stuck hops hn ha⟩
  case encodeHeader =>
    exact exec_encodeHeader_stuck hops ((encodeHeaderChecks_eq_ok_iff ..).mpr ⟨hrows, hcols, he, hp, hk⟩) ho
  case packRow =>
    refine ⟨fun ha => exec_stop rfl (packRowWork_stuckInput hops hcols he ha), fun record ha hpack hk ho => ?_⟩
    exact exec_stop rfl ((packRowWork_of_record hops hcols he ha hpack).trans (State.storeRecord_stuck hk ho))
  case unpackRow =>
    exact ⟨fun ha => exec_stop rfl (rowsWork_of_error (unpackRowSetup_stuck hops hn hcols he hk ha)),
      fun cells kind len ha h ho => exec_unpackRow_stuckOutput hops hn hcols he hk ha h ho⟩
  case encodeField =>
    refine ⟨fun ha => ?_, fun payload ha hpack hp hk ho => ?_⟩
    · exact exec_stop rfl (encodeFieldWork_of_plan_error hops (encodeFieldPlan_stuckInput hrows hcols hn he ha))
    · exact exec_stop rfl (encodeFieldWork_storeError hops hrows hcols hn he ha hpack (storeField_stuck hp hk ho))
  case decodeFieldInput =>
    exact ⟨fun hn => exec_raise rfl (rowsWork_of_error (decodeFieldSetup_badLength hops hn)),
      fun hn => exec_stop rfl (rowsWork_of_error (decodeFieldSetup_stuck hops hn ha))⟩
  case decodeFieldOutput => exact exec_decodeField_stuckOutput h hrows ho

end Sys2Proof.Machine
end
